-- ==== Sys2Proof/Word.lean ====
section
/-! DEFINITION. The words of EDSP-CORE: samples, unsigned operands, command and response words, and the names of the
three buffer memories (00_scope.md R11, R12; 20_memory.md R60; 30_encoding.md R82, R84). -/

namespace Sys2Proof

/-- A 32-bit pattern read as an IEEE 754 binary32 value (R12, R110). -/
abbrev F32 := BitVec 32

/-- A 32-bit pattern read as an unsigned integer in `[0, 2^32)` (R12). -/
abbrev U32 := BitVec 32

/-- A command word, `unit[39:36] ++ fn[35:32] ++ operand[31:0]` (R82). -/
abbrev CmdWord := BitVec 40

/-- A response word, `status[39:32] ++ data[31:0]` (R84). -/
abbrev RspWord := BitVec 40

/-- The three buffer memories, each an address space of its own: `DLMEM`, `APMEM`, `SPMEM` (R60). -/
inductive Buf where
  | dl | ap | sp
  deriving DecidableEq, Repr

end Sys2Proof
end

