-- ==== Sys2Proof/Syntax.lean ====
section
/-! DEFINITION. The command set: one constructor for each of the 31 rows of spec/opcode_table.json (30_encoding.md R87),
the six units (00_scope.md R2, R86) and the eight wave types (45_oscillator.md R236). -/

namespace Sys2Proof

/-- The six units (R2, numbered by R86). -/
inductive UnitId where
  | dl | lp | svf | ap | sp | osc
  deriving DecidableEq, Repr

/-- The `WaveType` values in the order of their codes 0 to 7 (R236). -/
inductive Wave where
  | sine | tri | saw | ramp | square | pbTri | pbSaw | pbSquare
  deriving DecidableEq, Repr

/-- The commands of R87. Format `F` and `U` commands carry their 32-bit operand as it stands, the format `W` command its
32-bit operand (which must be in `[0, 7]`: WellFormed.lean), format `Z` commands carry nothing (R83). -/
inductive Instr where
  | dlNew
  | dlWrite (x : F32)
  | dlRead
  | dlGet (i : U32)
  | dlLen
  | lpNew (fs : F32)
  | lpProcess (x : F32)
  | lpSetFreq (f : F32)
  | svfNew (fs : F32)
  | svfProcess (x : F32)
  | svfSetFreq (f : F32)
  | svfSetRes (r : F32)
  | svfSetDrive (d : F32)
  | svfGetLow
  | svfGetHigh
  | svfGetBand
  | svfGetNotch
  | svfGetPeak
  | apNew (fs : F32)
  | apProcess (x : F32)
  | apSetFreq (f : F32)
  | spNew (fs : F32)
  | spProcess (x : F32)
  | spSetFreq (t : F32)
  | spSetRt (rt : F32)
  | oscNew (fs : F32)
  | oscProcess
  | oscSetFreq (f : F32)
  | oscSetAmp (a : F32)
  | oscSetPhase (p : F32)
  | oscSetWave (w : U32)
  deriving DecidableEq, Repr

/-- The unit a command is addressed to (R3, R87). -/
def Instr.unit : Instr → UnitId
  | .dlNew => .dl
  | .dlWrite _ => .dl
  | .dlRead => .dl
  | .dlGet _ => .dl
  | .dlLen => .dl
  | .lpNew _ => .lp
  | .lpProcess _ => .lp
  | .lpSetFreq _ => .lp
  | .svfNew _ => .svf
  | .svfProcess _ => .svf
  | .svfSetFreq _ => .svf
  | .svfSetRes _ => .svf
  | .svfSetDrive _ => .svf
  | .svfGetLow => .svf
  | .svfGetHigh => .svf
  | .svfGetBand => .svf
  | .svfGetNotch => .svf
  | .svfGetPeak => .svf
  | .apNew _ => .ap
  | .apProcess _ => .ap
  | .apSetFreq _ => .ap
  | .spNew _ => .sp
  | .spProcess _ => .sp
  | .spSetFreq _ => .sp
  | .spSetRt _ => .sp
  | .oscNew _ => .osc
  | .oscProcess => .osc
  | .oscSetFreq _ => .osc
  | .oscSetAmp _ => .osc
  | .oscSetPhase _ => .osc
  | .oscSetWave _ => .osc

/-- The six NEW commands, the only ones a unit that is not live accepts (R23, R273). -/
def Instr.isNew : Instr → Bool
  | .dlNew => true
  | .lpNew _ => true
  | .svfNew _ => true
  | .apNew _ => true
  | .spNew _ => true
  | .oscNew _ => true
  | .dlWrite _ => false
  | .dlRead => false
  | .dlGet _ => false
  | .dlLen => false
  | .lpProcess _ => false
  | .lpSetFreq _ => false
  | .svfProcess _ => false
  | .svfSetFreq _ => false
  | .svfSetRes _ => false
  | .svfSetDrive _ => false
  | .svfGetLow => false
  | .svfGetHigh => false
  | .svfGetBand => false
  | .svfGetNotch => false
  | .svfGetPeak => false
  | .apProcess _ => false
  | .apSetFreq _ => false
  | .spProcess _ => false
  | .spSetFreq _ => false
  | .spSetRt _ => false
  | .oscProcess => false
  | .oscSetFreq _ => false
  | .oscSetAmp _ => false
  | .oscSetPhase _ => false
  | .oscSetWave _ => false

/-- The setters: the commands that store a parameter or a coefficient (R45, R175). -/
def Instr.isSetter : Instr → Bool
  | .lpSetFreq _ => true
  | .svfSetFreq _ => true
  | .svfSetRes _ => true
  | .svfSetDrive _ => true
  | .apSetFreq _ => true
  | .spSetFreq _ => true
  | .spSetRt _ => true
  | .oscSetFreq _ => true
  | .oscSetAmp _ => true
  | .oscSetPhase _ => true
  | .oscSetWave _ => true
  | .dlNew => false
  | .dlWrite _ => false
  | .dlRead => false
  | .dlGet _ => false
  | .dlLen => false
  | .lpNew _ => false
  | .lpProcess _ => false
  | .svfNew _ => false
  | .svfProcess _ => false
  | .svfGetLow => false
  | .svfGetHigh => false
  | .svfGetBand => false
  | .svfGetNotch => false
  | .svfGetPeak => false
  | .apNew _ => false
  | .apProcess _ => false
  | .spNew _ => false
  | .spProcess _ => false
  | .oscNew _ => false
  | .oscProcess => false

end Sys2Proof
end

