-- ==== Sys2Proof/Machine/State.lean ====
section
/-! DEFINITION. The state of EDSP-CORE as plain data: the registers of table R44 (10_state.md), the three buffer memories
(20_memory.md R60), the port (30_encoding.md R80, R81), and the reset state (70_reset_and_hazards.md R290, R291). -/

namespace Sys2Proof.Machine

/-- Why the machine stops. The spec has no fault: "every command in every state has a defined next state and response"
(93_implementation_defined.md). -/
inductive Fault where
  /-- An access to sample index `a` of memory `b` with `a ≥ N`: an address that does not exist (R61). Raised by `memRead`
  and `memWrite` only, for a cursor outside `[0, N)`, which no run reaches (R28). SAFE: the machine stops (log 9). -/
  | noSample (b : Buf) (a : Nat)
  deriving DecidableEq, Repr

/-- Why an instruction has no meaning. Not the spec's "refusal", which is a completed command with a status (R271). -/
inductive Refusal where
  /-- Raised by an arm of `exec` whose instruction has no meaning yet; no arm raises it now. SAFE: the machine stops. -/
  | notModelled (mnemonic : String)
  deriving DecidableEq, Repr

/-- The status codes of a response, all of them (R270). -/
inductive Status where
  | ok | illegal | notLive | unset
  deriving DecidableEq, Repr

/-- One thing the host does at the ports (R80, R81; log 1, 3). -/
inductive HostInput where
  /-- The host holds `cmd_valid` with this command word until the block takes it. -/
  | command (w : CmdWord)
  /-- The host raises `rsp_ready` and takes the response word that is presented, if one is. -/
  | takeResponse
  /-- The host raises `rst` between two commands (R290). -/
  | reset
  deriving DecidableEq, Repr

/-- The port. `inputs` is the MODEL's own field, what the host is going to do, in order (log 1). `rsp` is the response port:
`some r` is `rsp_valid = 1` with the word `r`, held until the host takes it (R80, R81). -/
structure Port where
  inputs : List HostInput
  rsp : Option RspWord
  deriving DecidableEq, Repr

/-- The samples written to a buffer memory: pairs of a sample address and a sample, addresses strictly rising, no sample
equal to what `BUF_INIT` holds there. An unlisted address reads as `BUF_INIT` (R62, R66; log 6). -/
abbrev Memory := List (Nat × F32)

/-- A delay line: a write cursor over a buffer memory (R28). Its length is a parameter (R8). -/
structure DelayLine where
  index : U32
  mem : Memory
  deriving DecidableEq, Repr

/-- Unit `DL` (R29). -/
structure Dl where
  live : Bool
  line : DelayLine
  deriving DecidableEq, Repr

/-- Unit `LP` (R30). -/
structure Lp where
  live : Bool
  fs : F32
  z1 : F32
  a0 : Option F32
  b1 : Option F32
  deriving DecidableEq, Repr

/-- Unit `SVF` (R31, R32, R33). -/
structure Svf where
  live : Bool
  fs : F32
  lowPass : F32
  highPass : F32
  bandPass : F32
  notch : F32
  previous : F32
  freq : Option F32
  resonance : Option F32
  preDrive : Option F32
  drive : Option F32
  damp : Option F32
  outLowPass : F32
  outHighPass : F32
  outBandPass : F32
  outNotch : F32
  outPeak : F32
  deriving DecidableEq, Repr

/-- Unit `AP` (R35); `line` is the private delay line `AP.dl`. -/
structure Ap where
  live : Bool
  fs : F32
  k1 : Option F32
  line : DelayLine
  deriving DecidableEq, Repr

/-- Unit `SP` (R36); `line` is the private delay line `SP.dl`. -/
structure Sp where
  live : Bool
  fs : F32
  maxLoopTime : F32
  loopTime : Option F32
  reverbTime : Option F32
  coef : Option F32
  line : DelayLine
  deriving DecidableEq, Repr

/-- Unit `OSC` (R38). -/
structure Osc where
  live : Bool
  fs : F32
  phase : F32
  last : F32
  phaseIncrement : Option F32
  amplitude : Option F32
  wave : Option Wave
  deriving DecidableEq, Repr

/-- The whole state (R20) and the port. -/
structure State where
  port : Port
  dl : Dl
  lp : Lp
  svf : Svf
  ap : Ap
  sp : Sp
  osc : Osc
  deriving DecidableEq, Repr

/-- What a command or a step answers. -/
abbrev Result := Host.Outcome State Fault Refusal

/-- The `DL` registers after reset (R44), over a memory that reset does not write (R290). The cursor's 0 is the model's
(DESIGN CHOICE, log 4). -/
def Dl.afterReset (mem : Memory) : Dl :=
  { live := false, line := { index := 0#32, mem := mem } }

/-- The `LP` registers after reset (R44); the zeros are the model's (DESIGN CHOICE, log 4). -/
def Lp.afterReset : Lp :=
  { live := false, fs := 0#32, z1 := 0#32, a0 := none, b1 := none }

/-- The `SVF` registers after reset (R44); the zeros are the model's (DESIGN CHOICE, log 4). -/
def Svf.afterReset : Svf :=
  { live := false, fs := 0#32
    lowPass := 0#32, highPass := 0#32, bandPass := 0#32, notch := 0#32, previous := 0#32
    freq := none, resonance := none, preDrive := none, drive := none, damp := none
    outLowPass := 0#32, outHighPass := 0#32, outBandPass := 0#32, outNotch := 0#32, outPeak := 0#32 }

/-- The `AP` registers after reset (R44); the zeros are the model's (DESIGN CHOICE, log 4). -/
def Ap.afterReset (mem : Memory) : Ap :=
  { live := false, fs := 0#32, k1 := none, line := { index := 0#32, mem := mem } }

/-- The `SP` registers after reset (R44); the zeros are the model's (DESIGN CHOICE, log 4). -/
def Sp.afterReset (mem : Memory) : Sp :=
  { live := false, fs := 0#32, maxLoopTime := 0#32, loopTime := none, reverbTime := none, coef := none
    line := { index := 0#32, mem := mem } }

/-- The `OSC` registers after reset (R44); the zeros are the model's (DESIGN CHOICE, log 4). -/
def Osc.afterReset : Osc :=
  { live := false, fs := 0#32, phase := 0#32, last := 0#32
    phaseIncrement := none, amplitude := none, wave := none }

/-- The launch state (R290, R291): nothing live, every `Opt` register unset, the memories at `BUF_INIT` (nothing listed), no
response pending, and a host that has nothing to say (log 1). -/
def State.reset : State :=
  { port := { inputs := [], rsp := none }
    dl := Dl.afterReset []
    lp := Lp.afterReset
    svf := Svf.afterReset
    ap := Ap.afterReset []
    sp := Sp.afterReset []
    osc := Osc.afterReset }

end Sys2Proof.Machine
end

