-- ==== Sys2Proof/Machine/Flags.lean ====
section
/-! DEFINITION. The flags (10_state.md R23 to R26): the six `live` flags, the valid flags, each the "is set" of the `Opt`
registers it covers, the signals of the command and response ports that software sees (R80, R81), and arithmetic lifted to
`Opt` (R25). No command writes a condition code (R26). -/

namespace Sys2Proof.Machine

/-- The flag `U.live` (R23). -/
def State.live (s : State) : UnitId → Bool
  | .dl => s.dl.live
  | .lp => s.lp.live
  | .svf => s.svf.live
  | .ap => s.ap.live
  | .sp => s.sp.live
  | .osc => s.osc.live

/-- `LP.v` covers `a0` and `b1` (R26). -/
def Lp.v (u : Lp) : Bool := u.a0.isSome && u.b1.isSome

/-- `SVF.v_freq` (R26). -/
def Svf.vFreq (u : Svf) : Bool := u.freq.isSome

/-- `SVF.v_res` (R26). -/
def Svf.vRes (u : Svf) : Bool := u.resonance.isSome

/-- `SVF.v_pre` (R26). -/
def Svf.vPre (u : Svf) : Bool := u.preDrive.isSome

/-- `AP.v` (R26). -/
def Ap.v (u : Ap) : Bool := u.k1.isSome

/-- `SP.v_lt` (R26). -/
def Sp.vLt (u : Sp) : Bool := u.loopTime.isSome

/-- `SP.v_rt` (R26). -/
def Sp.vRt (u : Sp) : Bool := u.reverbTime.isSome

/-- `SP.v_coef` (R26). -/
def Sp.vCoef (u : Sp) : Bool := u.coef.isSome

/-- `OSC.v_inc` (R26). -/
def Osc.vInc (u : Osc) : Bool := u.phaseIncrement.isSome

/-- `OSC.v_amp` (R26). -/
def Osc.vAmp (u : Osc) : Bool := u.amplitude.isSome

/-- `OSC.v_wave` (R26). -/
def Osc.vWave (u : Osc) : Bool := u.wave.isSome

/-- What `X.PROCESS` of a unit requires set (R274); `DL` has no `Opt` register. -/
def State.processable (s : State) : UnitId → Bool
  | .dl => true
  | .lp => s.lp.v
  | .svf => s.svf.freq.isSome && s.svf.damp.isSome && s.svf.drive.isSome
  | .ap => s.ap.v
  | .sp => s.sp.vCoef
  | .osc => s.osc.vInc && s.osc.vAmp && s.osc.vWave

/-- `rsp_valid`: a response is presented (R80). -/
def State.rspValid (s : State) : Bool := s.port.rsp.isSome

/-- `cmd_ready`: "after a command transfer, `cmd_ready` is 0 until the response of that command has been transferred"
(R81). -/
def State.cmdReady (s : State) : Bool := s.port.rsp.isNone

/-- Arithmetic lifted to two `Opt` arguments: unset if either is unset (R25). -/
def lift2 (g : F32 → F32 → F32) : Option F32 → Option F32 → Option F32
  | some a, some b => some (g a b)
  | none, _ => none
  | some _, none => none

end Sys2Proof.Machine
end

