-- ==== Sys2Proof/Machine/Float.lean ====
section
/-! DEFINITION. The numerics of 40_numerics.md: the binary32 format, the arithmetic primitives, `fmin`, `fmax`, `fclamp`,
`u2f`, the constants, and the cursor arithmetic. A finite value is an integer number of units of `2^-149`, so every sum,
product and quotient is computed exactly on `Int` and `Nat` and rounded once. -/

namespace Sys2Proof.Machine

/-! ## The format (R110, R111) -/

/-- Bit 31, the sign. -/
def sgn (p : F32) : Bool := p.getLsbD 31

/-- Bits 30:23, the biased exponent. -/
def expo (p : F32) : Nat := (p.extractLsb' 23 8).toNat

/-- Bits 22:0, the fraction. -/
def frac (p : F32) : Nat := (p.extractLsb' 0 23).toNat

/-- The pattern without its sign, `p[30:0]`. -/
def absBits (p : F32) : Nat := (p.extractLsb' 0 31).toNat

/-- `e = 255, m ≠ 0`: quiet and signalling NaNs are not distinguished (R111). -/
def isNaN (p : F32) : Bool := decide (0x7F800000 < absBits p)

/-- `e = 255, m = 0` (R111). -/
def isInf (p : F32) : Bool := decide (absBits p = 0x7F800000)

/-- `e < 255`: a zero, a subnormal or a normal (R111). -/
def isFinite (p : F32) : Bool := decide (absBits p < 0x7F800000)

/-- `e = 0, m = 0`, of either sign (R111). -/
def isZero (p : F32) : Bool := decide (absBits p = 0)

/-- The magnitude of a finite value in units of `2^-149`: `m` for a subnormal, `(2^23 + m) · 2^(e-1)` for a normal
(R111). -/
def mag (p : F32) : Nat :=
  if expo p = 0 then frac p else (2 ^ 23 + frac p) * 2 ^ (expo p - 1)

/-- The value of a finite pattern in units of `2^-149`. -/
def units (p : F32) : Int := if sgn p then -(mag p : Int) else (mag p : Int)

/-- The value of a finite pattern (R111). -/
def value (p : F32) : Rat := (units p : Rat) / 2 ^ 149

/-! ## Patterns and constants (R114, R123) -/

def QNAN : F32 := 0x7FC00000#32
def POS_INF : F32 := 0x7F800000#32
def NEG_INF : F32 := 0xFF800000#32
def NEG_ZERO : F32 := 0x80000000#32
def C_0 : F32 := 0x00000000#32
def C_1 : F32 := 0x3F800000#32
def C_NEG1 : F32 := 0xBF800000#32
def C_2 : F32 := 0x40000000#32
def C_3 : F32 := 0x40400000#32
def C_0_5 : F32 := 0x3F000000#32
def C_0_25 : F32 := 0x3E800000#32
def C_0_1 : F32 := 0x3DCCCCCD#32
def C_0_01 : F32 := 0x3C23D70A#32
def C_1EM4 : F32 := 0x38D1B717#32
def C_NEG_6_9078 : F32 := 0xC0DD0CB3#32
def PI : F32 := 0x40490FDB#32
def TWO_PI : F32 := 0x40C90FDB#32
def NEG_TWO_PI : F32 := 0xC0C90FDB#32

/-! ## Rounding (R112) -/

/-- How many low bits an integer part `q` has beyond a 24-bit significand: the exponent of the spacing, in units. -/
def spacing (q : Nat) : Nat := if q < 2 ^ 24 then 0 else q.log2 - 23

/-- `num / den`, to the nearest integer, ties to even. -/
def nearestEven (num den : Nat) : Nat :=
  let n := num / den
  let r := num % den
  if den < 2 * r ∨ (2 * r = den ∧ n % 2 = 1) then n + 1 else n

/-- The magnitude bits (bits 30:0) of the binary32 value nearest to `num / den` units of `2^-149`, ties to even; a
magnitude that rounds to `2^128` or more is infinite, results below `2^-126` are subnormal or zero (R112). With spacing
`2^k` and significand `n`, the bits are `k·2^23 + n` for subnormals, normals and a carry alike. -/
def roundMag (num den : Nat) : Nat :=
  let k := spacing (num / den)
  min (k * 2 ^ 23 + nearestEven num (den * 2 ^ k)) 0x7F800000

/-- A pattern from a sign and magnitude bits. -/
def pack (neg : Bool) (m : Nat) : F32 := BitVec.ofNat 32 (if neg then 2 ^ 31 + m else m)

/-- Bit 31 inverted, whatever the pattern. -/
def flipSign (p : F32) : F32 := p ^^^ NEG_ZERO

/-! ## The four operations, `fneg`, `fabs` (R112 to R116) -/

/-- Addition (R112, R115); a zero sum is `-0.0` only of two negative zeros. -/
def fadd (a b : F32) : F32 :=
  if isNaN a || isNaN b then QNAN
  else if isInf a then (if isInf b && (sgn a != sgn b) then QNAN else a)
  else if isInf b then b
  else
    let u := units a + units b
    if u = 0 then (if sgn a && sgn b then NEG_ZERO else C_0)
    else pack (decide (u < 0)) (roundMag u.natAbs 1)

/-- Subtraction: the sum with the sign of the second operand inverted (R112, R115). -/
def fsub (a b : F32) : F32 := fadd a (flipSign b)

/-- Multiplication (R112, R115); signs combine by exclusive or. -/
def fmul (a b : F32) : F32 :=
  if isNaN a || isNaN b then QNAN
  else
    let s := sgn a != sgn b
    if isInf a || isInf b then (if isZero a || isZero b then QNAN else pack s 0x7F800000)
    else pack s (roundMag (mag a * mag b) (2 ^ 149))

/-- Division (R112, R115); signs combine by exclusive or. -/
def fdiv (a b : F32) : F32 :=
  if isNaN a || isNaN b then QNAN
  else
    let s := sgn a != sgn b
    if isInf a then (if isInf b then QNAN else pack s 0x7F800000)
    else if isInf b then pack s 0
    else if isZero b then (if isZero a then QNAN else pack s 0x7F800000)
    else pack s (roundMag (mag a * 2 ^ 149) (mag b))

/-- Bit 31 inverted, `QNAN` for a NaN (R116). -/
def fneg (a : F32) : F32 := if isNaN a then QNAN else flipSign a

/-- Bit 31 cleared, `QNAN` for a NaN (R116). -/
def fabs (a : F32) : F32 := if isNaN a then QNAN else a &&& 0x7FFFFFFF#32

/-! ## Comparisons, `fmin`, `fmax`, `fclamp` (R117 to R121) -/

/-- The place of a pattern that is not a NaN in the order of the values: both zeros at 0, `-inf` lowest, `+inf`
highest (R117). -/
def orderKey (p : F32) : Int := if sgn p then -(absBits p : Int) else (absBits p : Int)

/-- "a < b", false if either operand is a NaN (R117). -/
def flt (a b : F32) : Bool := !isNaN a && !isNaN b && decide (orderKey a < orderKey b)

/-- "a ≤ b", false if either operand is a NaN (R117). -/
def fle (a b : F32) : Bool := !isNaN a && !isNaN b && decide (orderKey a ≤ orderKey b)

/-- The first operand unless the second is strictly smaller (R118). -/
def fmin (a b : F32) : F32 := if flt b a then b else a

/-- The first operand unless the second is strictly larger (R119). -/
def fmax (a b : F32) : F32 := if flt a b then b else a

/-- Upper bound first, lower bound last, so the lower bound wins (R121). -/
def fclamp (v lo hi : F32) : F32 :=
  let t := if flt hi v then hi else v
  if flt t lo then lo else t

/-- The binary32 value nearest to a natural number, ties to even (R122). -/
def u2f (n : Nat) : F32 := pack false (roundMag (n * 2 ^ 149) 1)

/-! ## Integer arithmetic (R130) -/

/-- `(index + 1) mod N` for a cursor (R130, R153). -/
def nextIndex (n : Nat) (index : U32) : U32 := BitVec.ofNat 32 ((index.toNat + 1) % n)

end Sys2Proof.Machine
end

