-- ==== Sys2Proof/Laws/Order.lean ====
section
/-! SUPPORT. The comparisons, `fmin`, `fmax` and `fclamp` (40_numerics.md R117 to R121), said through the order of the
patterns. -/

namespace Sys2Proof.Machine

theorem fle_iff {a b : F32} :
    fle a b = true ↔ isNaN a = false ∧ isNaN b = false ∧ orderKey a ≤ orderKey b := by
  simp [fle, and_assoc]

theorem flt_iff {a b : F32} :
    flt a b = true ↔ isNaN a = false ∧ isNaN b = false ∧ orderKey a < orderKey b := by
  simp [flt, and_assoc]

theorem fle_refl {a : F32} (h : isNaN a = false) : fle a a = true := fle_iff.2 ⟨h, h, le_refl _⟩

theorem fle_trans {a b c : F32} (h : fle a b = true) (h' : fle b c = true) : fle a c = true := by
  rw [fle_iff] at *
  exact ⟨h.1, h'.2.1, le_trans h.2.2 h'.2.2⟩

theorem fle_of_flt {a b : F32} (h : flt a b = true) : fle a b = true := by
  rw [flt_iff] at h
  exact fle_iff.2 ⟨h.1, h.2.1, le_of_lt h.2.2⟩

theorem not_flt_iff {a b : F32} (ha : isNaN a = false) (hb : isNaN b = false) :
    flt a b = false ↔ fle b a = true := by
  rw [← Bool.not_eq_true, flt_iff, fle_iff]
  simp [ha, hb]

theorem not_fle_iff {a b : F32} (ha : isNaN a = false) (hb : isNaN b = false) :
    fle a b = false ↔ flt b a = true := by
  rw [← Bool.not_eq_true, flt_iff, fle_iff]
  simp [ha, hb]

theorem flt_nan_left {a b : F32} (h : isNaN a = true) : flt a b = false := by simp [flt, h]

theorem flt_nan_right {a b : F32} (h : isNaN b = true) : flt a b = false := by simp [flt, h]

theorem fle_nan_left {a b : F32} (h : isNaN a = true) : fle a b = false := by simp [fle, h]

theorem fle_nan_right {a b : F32} (h : isNaN b = true) : fle a b = false := by simp [fle, h]

/-- `fmin` answers one of its operands (R118). -/
theorem fmin_cases (a b : F32) : (fmin a b = b ∧ flt b a = true) ∨ (fmin a b = a ∧ flt b a = false) := by
  unfold fmin
  cases h : flt b a <;> simp

/-- `fmin` of two numbers is below both (R118). -/
theorem fmin_le {a b : F32} (ha : isNaN a = false) (hb : isNaN b = false) :
    fle (fmin a b) a = true ∧ fle (fmin a b) b = true := by
  obtain ⟨h, h'⟩ | ⟨h, h'⟩ := fmin_cases a b <;> rw [h]
  · exact ⟨fle_of_flt h', fle_refl hb⟩
  · exact ⟨fle_refl ha, (not_flt_iff hb ha).1 h'⟩

/-- `fmin` of two numbers is above what both are above (R118). -/
theorem le_fmin {a b c : F32} (ha : fle c a = true) (hb : fle c b = true) : fle c (fmin a b) = true := by
  obtain ⟨h, -⟩ | ⟨h, -⟩ := fmin_cases a b <;> rw [h] <;> assumption

/-- A NaN passes a clamp (R121). -/
theorem fclamp_nan {v : F32} (h : isNaN v = true) (lo hi : F32) : fclamp v lo hi = v := by
  simp [fclamp, flt_nan_right h, flt_nan_left h]

/-- A clamp of a number by bounds that are numbers is a number (R121). -/
theorem fclamp_not_nan {v lo hi : F32} (hv : isNaN v = false) (hl : isNaN lo = false) : isNaN (fclamp v lo hi) = false := by
  unfold fclamp
  cases h : flt hi v
  · simp only [Bool.false_eq_true, if_false]
    split <;> assumption
  · simp only [if_true]
    split
    · exact hl
    · exact (flt_iff.1 h).1

/-- The lower bound of a clamp holds of every number (R121). -/
theorem le_fclamp {v lo : F32} (hv : isNaN v = false) (hl : isNaN lo = false) (hi : F32) :
    fle lo (fclamp v lo hi) = true := by
  unfold fclamp
  cases h : flt hi v
  · simp only [Bool.false_eq_true, if_false]
    split
    · exact fle_refl hl
    · exact (not_flt_iff hv hl).1 (by simp_all)
  · simp only [if_true]
    split
    · exact fle_refl hl
    · exact (not_flt_iff (flt_iff.1 h).1 hl).1 (by simp_all)

/-- The upper bound of a clamp holds of every number, unless the interval is empty (R121). -/
theorem fclamp_le {v lo hi : F32} (hv : isNaN v = false) (h : fle lo hi = true) : fle (fclamp v lo hi) hi = true := by
  obtain ⟨-, hh, -⟩ := fle_iff.1 h
  unfold fclamp
  cases hc : flt hi v
  · simp only [Bool.false_eq_true, if_false]
    split
    · exact h
    · exact (not_flt_iff hh hv).1 hc
  · simp only [if_true]
    split
    · exact h
    · exact fle_refl hh

end Sys2Proof.Machine
end

