-- ==== Sys2Proof/Machine/NumLaws.lean ====
section
/-! DEFINITION. The parameter record `NUM` and its named properties (40_numerics.md R125 to R129), over the real functions.
The machine's `NUM` is any record that has them (Config.lean, log 7). -/

namespace Sys2Proof

/-- The parameter record `NUM`: three total functions of the operand's bits alone (40_numerics.md R125). -/
structure NumRec where
  exp : F32 → F32
  sin : F32 → F32
  pow025 : F32 → F32

end Sys2Proof

namespace Sys2Proof.Machine

/-- `p` is a member of `F32 ∪ {+inf}` whose value is not above the real `r`. -/
def notAbove (r : ℝ) (p : F32) : Prop := isFinite p = true ∧ ((value p : ℚ) : ℝ) ≤ r

/-- `p` is a member of `F32 ∪ {+inf}` whose value is not below the real `r`. -/
def notBelow (r : ℝ) (p : F32) : Prop := (isFinite p = true ∧ r ≤ ((value p : ℚ) : ℝ)) ∨ p = POS_INF

/-- Faithful rounding of the real `r` in the sense of (E4): "the largest member of `F32 ∪ {+inf}` not above `r` or the
smallest not below `r`"; a positive real that rounds to zero gives `+0.0` ("it is `+0.0` or `0x00000001` when
`r < 2^-149`") (R126; DEDUCED for `sin` and the fourth root, log 8). -/
def Faithful (r : ℝ) (p : F32) : Prop :=
  ((notAbove r p ∧ ∀ q, notAbove r q → fle q p = true) ∨ (notBelow r p ∧ ∀ q, notBelow r q → fle p q = true)) ∧
  (0 < r → p ≠ NEG_ZERO)

/-- Round to nearest of the real `r`, ties to even: an infinity from the midpoint of the largest finite value and `2^128`
on, below it the nearest finite value (R112, R129). -/
def Nearest (r : ℝ) (p : F32) : Prop :=
  (2 ^ 128 - 2 ^ 103 ≤ r → p = POS_INF) ∧
  (r ≤ -(2 ^ 128 - 2 ^ 103) → p = NEG_INF) ∧
  (|r| < 2 ^ 128 - 2 ^ 103 →
    isFinite p = true ∧
    (∀ q, isFinite q = true → |((value p : ℚ) : ℝ) - r| ≤ |((value q : ℚ) : ℝ) - r|) ∧
    (∀ q, isFinite q = true → value q ≠ value p →
      |((value p : ℚ) : ℝ) - r| = |((value q : ℚ) : ℝ) - r| → p.getLsbD 0 = false))

/-- `PI/2`, the end of the interval of (S5) (R127). -/
def HALF_PI : F32 := 0x3FC90FDB#32

/-- Every property "a model ... may assume" of `NUM` (R126, R127, R128). -/
structure NumLawful (n : NumRec) : Prop where
  exp_nan : ∀ x, isNaN x = true → n.exp x = QNAN
  exp_posInf : n.exp POS_INF = POS_INF
  exp_negInf : n.exp NEG_INF = C_0
  exp_zero : ∀ x, isZero x = true → n.exp x = C_1
  exp_faithful : ∀ x, isFinite x = true → Faithful (Real.exp (((value x : ℚ) : ℝ))) (n.exp x)
  exp_mono : ∀ x y, fle x y = true → fle (n.exp x) (n.exp y) = true
  exp_nonneg : ∀ x, isNaN x = false → sgn (n.exp x) = false
  sin_special : ∀ x, (isNaN x || isInf x) = true → n.sin x = QNAN
  sin_zero : ∀ x, isZero x = true → n.sin x = x
  sin_faithful : ∀ x, isFinite x = true → isZero x = false → Faithful (Real.sin (((value x : ℚ) : ℝ))) (n.sin x)
  sin_mono : ∀ x y, fle C_0 x = true → fle x y = true → fle y HALF_PI = true → fle (n.sin x) (n.sin y) = true
  pow025_nan : ∀ x, isNaN x = true → n.pow025 x = QNAN
  pow025_zero : ∀ x, isZero x = true → n.pow025 x = C_0
  pow025_posInf : n.pow025 POS_INF = POS_INF
  pow025_neg : ∀ x, flt x C_0 = true → n.pow025 x = QNAN
  pow025_faithful : ∀ x, isFinite x = true → flt C_0 x = true →
    Faithful (Real.sqrt (Real.sqrt (((value x : ℚ) : ℝ)))) (n.pow025 x)
  pow025_mono : ∀ x y, fle C_0 x = true → fle x y = true → fle (n.pow025 x) (n.pow025 y) = true

/-- A record with the proof that it has the properties of R126 to R128. -/
structure LawfulNum where
  num : NumRec
  lawful : NumLawful num

/-- The reference instance `NUM_CR` (R129), as a property: lawful, and correctly rounded wherever the real result is
defined and finite. -/
structure NumCorrectlyRounded (n : NumRec) : Prop where
  lawful : NumLawful n
  exp_nearest : ∀ x, isFinite x = true → Nearest (Real.exp (((value x : ℚ) : ℝ))) (n.exp x)
  sin_nearest : ∀ x, isFinite x = true → Nearest (Real.sin (((value x : ℚ) : ℝ))) (n.sin x)
  pow025_nearest : ∀ x, isFinite x = true → fle C_0 x = true →
    Nearest (Real.sqrt (Real.sqrt (((value x : ℚ) : ℝ)))) (n.pow025 x)

end Sys2Proof.Machine
end

