-- ==== Sys2Proof/Laws/Float.lean ====
section
/-! SUPPORT. The value of a pattern (40_numerics.md R111) as a strictly rising function of its low 31 bits, and what rounding
does (R112). -/

namespace Sys2Proof.Machine

/-! ## Magnitudes -/

/-- The magnitude, in units of `2^-149`, of the pattern with low bits `n` (R111). -/
def magNat (n : Nat) : Nat := if n < 2 ^ 23 then n else (2 ^ 23 + n % 2 ^ 23) * 2 ^ (n / 2 ^ 23 - 1)

theorem absBits_eq (p : F32) : absBits p = p.toNat % 2 ^ 31 := by
  simp [absBits, BitVec.extractLsb'_toNat]

theorem expo_eq (p : F32) : expo p = absBits p / 2 ^ 23 := by
  rw [absBits_eq, expo, BitVec.extractLsb'_toNat, Nat.shiftRight_eq_div_pow]
  omega

theorem frac_eq (p : F32) : frac p = absBits p % 2 ^ 23 := by
  rw [absBits_eq, frac, BitVec.extractLsb'_toNat, Nat.shiftRight_zero]
  omega

theorem mag_eq (p : F32) : mag p = magNat (absBits p) := by
  unfold mag magNat
  rw [expo_eq, frac_eq]
  by_cases h : absBits p < 2 ^ 23
  · rw [if_pos h, if_pos (by omega)]
    omega
  · rw [if_neg h, if_neg (by omega)]

/-- A significand `c` of at most 24 bits, scaled by `2^k`, has the bits `k·2^23 + c`, a carry included. -/
theorem magNat_scaled {k c : Nat} (hc : c ≤ 2 ^ 24) (hk : k = 0 ∨ 2 ^ 23 ≤ c) : magNat (k * 2 ^ 23 + c) = c * 2 ^ k := by
  unfold magNat
  by_cases h : k * 2 ^ 23 + c < 2 ^ 23
  · obtain rfl : k = 0 := by omega
    rw [if_pos h]
    omega
  rw [if_neg h]
  by_cases h24 : c = 2 ^ 24
  · have h1 : (k * 2 ^ 23 + c) % 2 ^ 23 = 0 := by omega
    have h2 : (k * 2 ^ 23 + c) / 2 ^ 23 - 1 = k + 1 := by omega
    rw [h1, h2, pow_succ' 2 k]
    generalize 2 ^ k = x
    subst h24
    omega
  · have h1 : 2 ^ 23 + (k * 2 ^ 23 + c) % 2 ^ 23 = c := by omega
    have h2 : (k * 2 ^ 23 + c) / 2 ^ 23 - 1 = k := by omega
    rw [h1, h2]

/-- Every pattern has such a significand and scale. -/
theorem exists_scaled (n : Nat) : ∃ k c, n = k * 2 ^ 23 + c ∧ c < 2 ^ 24 ∧ (k = 0 ∨ 2 ^ 23 ≤ c) := by
  by_cases h : n < 2 ^ 24
  · exact ⟨0, n, by omega, h, .inl rfl⟩
  · exact ⟨n / 2 ^ 23 - 1, n % 2 ^ 23 + 2 ^ 23, by omega, by omega, .inr (by omega)⟩

theorem magNat_strictMono : StrictMono magNat := by
  apply strictMono_nat_of_lt_succ
  intro n
  obtain ⟨k, c, rfl, hc, hk⟩ := exists_scaled n
  rw [magNat_scaled hc.le hk, Nat.add_assoc, magNat_scaled (by omega) (by omega)]
  exact Nat.mul_lt_mul_of_pos_right (by omega) (by positivity)

theorem magNat_zero : magNat 0 = 0 := rfl

/-- Every finite magnitude is below `2^277` units, which is `2^128`. -/
theorem magNat_inf : magNat 0x7F800000 = 2 ^ 24 * 2 ^ 253 :=
  magNat_scaled (k := 253) (c := 2 ^ 24) (le_refl _) (.inr (by norm_num))

/-- The largest finite magnitude (R111). -/
theorem magNat_max : magNat 0x7F7FFFFF = (2 ^ 24 - 1) * 2 ^ 253 :=
  magNat_scaled (k := 253) (c := 2 ^ 24 - 1) (by norm_num) (.inr (by norm_num))

/-! ## Patterns -/

theorem pack_toNat {s : Bool} {m : Nat} (h : m < 2 ^ 31) : (pack s m).toNat = if s then 2 ^ 31 + m else m := by
  unfold pack
  rw [BitVec.toNat_ofNat]
  cases s
  · simp only [Bool.false_eq_true, if_false]
    omega
  · simp only [if_true]
    omega

theorem sgn_eq (p : F32) : sgn p = decide (2 ^ 31 ≤ p.toNat) := by
  have := p.isLt
  rw [sgn, BitVec.getLsbD, Nat.testBit_eq_decide_div_mod_eq]
  congr 1
  apply propext
  omega

@[simp] theorem sgn_pack {s : Bool} {m : Nat} (h : m < 2 ^ 31) : sgn (pack s m) = s := by
  rw [sgn_eq, pack_toNat h]
  cases s
  · simp only [Bool.false_eq_true, if_false, decide_eq_false_iff_not]
    omega
  · simp

@[simp] theorem absBits_pack {s : Bool} {m : Nat} (h : m < 2 ^ 31) : absBits (pack s m) = m := by
  rw [absBits_eq, pack_toNat h]
  cases s
  · simp only [Bool.false_eq_true, if_false]
    omega
  · simp only [if_true]
    omega

theorem absBits_lt (p : F32) : absBits p < 2 ^ 31 := by
  rw [absBits_eq]
  exact Nat.mod_lt _ (by norm_num)

/-- A pattern is its sign and its low 31 bits. -/
theorem pack_sgn_absBits (p : F32) : pack (sgn p) (absBits p) = p := by
  apply BitVec.eq_of_toNat_eq
  rw [pack_toNat (absBits_lt p), absBits_eq, sgn_eq]
  have := p.isLt
  by_cases h : 2 ^ 31 ≤ p.toNat
  · simp only [h, decide_true, if_true]
    omega
  · simp only [h, decide_false, Bool.false_eq_true, if_false]
    omega

theorem eq_of_sgn_absBits {p q : F32} (hs : sgn p = sgn q) (ha : absBits p = absBits q) : p = q := by
  rw [← pack_sgn_absBits p, hs, ha, pack_sgn_absBits]

@[simp] theorem sgn_flipSign (p : F32) : sgn (flipSign p) = !sgn p := by
  simp [sgn, flipSign, NEG_ZERO]

@[simp] theorem absBits_flipSign (p : F32) : absBits (flipSign p) = absBits p := by
  have h : (flipSign p).extractLsb' 0 31 = p.extractLsb' 0 31 := by
    apply BitVec.eq_of_getLsbD_eq
    intro i hi
    have h31 : ∀ i < 31, NEG_ZERO.getLsbD i = false := by decide
    simp [flipSign, h31 i hi]
  rw [absBits, h, absBits]

@[simp] theorem flipSign_flipSign (p : F32) : flipSign (flipSign p) = p :=
  eq_of_sgn_absBits (by simp) (by simp)

/-! ## The order of the values -/

theorem magNat_pos {n : Nat} (h : 0 < n) : 0 < magNat n := magNat_strictMono h

theorem units_eq (p : F32) : units p = if sgn p then -(magNat (absBits p) : Int) else (magNat (absBits p) : Int) := by
  rw [units, mag_eq]

theorem units_lt_iff (a b : F32) : units a < units b ↔ orderKey a < orderKey b := by
  have h1 : magNat (absBits a) < magNat (absBits b) ↔ absBits a < absBits b := magNat_strictMono.lt_iff_lt
  have h2 : magNat (absBits b) < magNat (absBits a) ↔ absBits b < absBits a := magNat_strictMono.lt_iff_lt
  have h3 : 0 < magNat (absBits a) ↔ 0 < absBits a := magNat_strictMono.lt_iff_lt (a := 0)
  have h4 : 0 < magNat (absBits b) ↔ 0 < absBits b := magNat_strictMono.lt_iff_lt (a := 0)
  rw [units_eq, units_eq, orderKey, orderKey]
  cases sgn a <;> cases sgn b <;> simp only [Bool.false_eq_true, if_false, if_true] <;> omega

theorem units_le_iff (a b : F32) : units a ≤ units b ↔ orderKey a ≤ orderKey b := by
  rw [← not_lt, units_lt_iff, not_lt]

/-- The order of the values is the order of the patterns (R117). -/
theorem value_lt_iff (a b : F32) : value a < value b ↔ orderKey a < orderKey b := by
  rw [value, value, div_lt_div_iff_of_pos_right (by positivity), Int.cast_lt, units_lt_iff]

theorem value_le_iff (a b : F32) : value a ≤ value b ↔ orderKey a ≤ orderKey b := by
  rw [← not_lt, value_lt_iff, not_lt]

theorem value_eq_iff (a b : F32) : value a = value b ↔ orderKey a = orderKey b := by
  rw [le_antisymm_iff, value_le_iff, value_le_iff, ← le_antisymm_iff]

/-- The classes of R111 exclude each other. -/
theorem isNaN_of_isFinite {p : F32} (h : isFinite p = true) : isNaN p = false := by
  simp only [isFinite, isNaN, decide_eq_true_eq, decide_eq_false_iff_not] at *
  omega

theorem isInf_of_isFinite {p : F32} (h : isFinite p = true) : isInf p = false := by
  simp only [isFinite, isInf, decide_eq_true_eq, decide_eq_false_iff_not] at *
  omega

theorem isFinite_or (p : F32) (h : isNaN p = false) : isFinite p = true ∨ isInf p = true := by
  simp only [isFinite, isInf, isNaN, decide_eq_true_eq, decide_eq_false_iff_not] at *
  omega

/-- `fle` between finite patterns is the order of the values (R117). -/
theorem fle_iff_value {a b : F32} (ha : isFinite a = true) (hb : isFinite b = true) :
    fle a b = true ↔ value a ≤ value b := by
  rw [fle_iff, value_le_iff]
  simp [isNaN_of_isFinite ha, isNaN_of_isFinite hb]

theorem flt_iff_value {a b : F32} (ha : isFinite a = true) (hb : isFinite b = true) :
    flt a b = true ↔ value a < value b := by
  rw [flt_iff, value_lt_iff]
  simp [isNaN_of_isFinite ha, isNaN_of_isFinite hb]

theorem value_flipSign (p : F32) : value (flipSign p) = -value p := by
  rw [value, value, units_eq, units_eq, sgn_flipSign, absBits_flipSign]
  cases sgn p <;> simp [neg_div]

theorem value_pack {s : Bool} {m : Nat} (h : m < 2 ^ 31) :
    value (pack s m) = (if s then -(magNat m : ℚ) else (magNat m : ℚ)) / 2 ^ 149 := by
  rw [value, units_eq, sgn_pack h, absBits_pack h]
  cases s <;> simp

/-! ## Rounding -/

/-- The two neighbours `nearestEven` chooses from, and how. -/
theorem nearestEven_cases (n d : Nat) :
    (nearestEven n d = n / d ∧ 2 * (n % d) ≤ d ∧ (2 * (n % d) = d → nearestEven n d % 2 = 0)) ∨
    (nearestEven n d = n / d + 1 ∧ d ≤ 2 * (n % d) ∧ (2 * (n % d) = d → nearestEven n d % 2 = 0)) := by
  unfold nearestEven
  simp only
  split <;> omega

/-- The bits of a rounded magnitude before overflow is looked at. -/
def roundRaw (num den : Nat) : Nat :=
  spacing (num / den) * 2 ^ 23 + nearestEven num (den * 2 ^ spacing (num / den))

theorem roundMag_eq (num den : Nat) : roundMag num den = min (roundRaw num den) 0x7F800000 := rfl

/-- With the spacing of a quotient, its significand has 24 bits, or the spacing is 1. -/
theorem spacing_spec (q : Nat) :
    q / 2 ^ spacing q < 2 ^ 24 ∧ (spacing q = 0 ∨ 2 ^ 23 ≤ q / 2 ^ spacing q) := by
  unfold spacing
  split
  · rename_i h
    simpa using h
  · rename_i h
    have hq : q ≠ 0 := by omega
    have hlo := Nat.log2_self_le hq
    have hhi := @Nat.lt_log2_self q
    have h24 : 24 ≤ q.log2 := (Nat.le_log2 hq).2 (by omega)
    obtain ⟨k, hk⟩ : ∃ k, q.log2 = k + 23 := ⟨q.log2 - 23, by omega⟩
    rw [hk] at hlo hhi
    rw [hk, Nat.add_sub_cancel]
    have e1 : 2 ^ (k + 23) = 2 ^ 23 * 2 ^ k := by rw [Nat.add_comm, pow_add]
    have e2 : 2 ^ (k + 23 + 1) = 2 ^ 24 * 2 ^ k := by rw [Nat.add_assoc, Nat.add_comm, pow_add]
    rw [e1] at hlo
    rw [e2] at hhi
    exact ⟨(Nat.div_lt_iff_lt_mul (by positivity)).2 hhi, .inr ((Nat.le_div_iff_mul_le (by positivity)).2 hlo)⟩

/-- The rounded magnitude is the nearest of all, a tie goes to even bits (R112). -/
theorem roundRaw_nearest (num : Nat) {den : Nat} (hden : 0 < den) (m : Nat) :
    |(magNat (roundRaw num den) * den : ℤ) - num| ≤ |(magNat m * den : ℤ) - num| ∧
    (magNat m ≠ magNat (roundRaw num den) →
      |(magNat (roundRaw num den) * den : ℤ) - num| = |(magNat m * den : ℤ) - num| →
      roundRaw num den % 2 = 0) := by
  unfold roundRaw
  obtain ⟨h24, hk⟩ := spacing_spec (num / den)
  generalize spacing (num / den) = k at *
  rw [Nat.div_div_eq_div_mul] at h24 hk
  have hD : 0 < den * 2 ^ k := by positivity
  have hdiv := Nat.div_add_mod num (den * 2 ^ k)
  have hmod := Nat.mod_lt num hD
  have hcases := nearestEven_cases num (den * 2 ^ k)
  generalize nearestEven num (den * 2 ^ k) = c at *
  generalize num / (den * 2 ^ k) = f at *
  generalize num % (den * 2 ^ k) = r at *
  have hlow : magNat (k * 2 ^ 23 + f) = f * 2 ^ k := magNat_scaled h24.le hk
  have hhigh : magNat (k * 2 ^ 23 + (f + 1)) = (f + 1) * 2 ^ k := magNat_scaled (by omega) (by omega)
  have hm : magNat m * den ≤ f * (den * 2 ^ k) ∨ (f + 1) * (den * 2 ^ k) ≤ magNat m * den := by
    by_cases h : m ≤ k * 2 ^ 23 + f
    · left
      have := magNat_strictMono.monotone h
      rw [hlow] at this
      calc magNat m * den ≤ f * 2 ^ k * den := Nat.mul_le_mul_right _ this
        _ = f * (den * 2 ^ k) := by ring
    · right
      have := magNat_strictMono.monotone (show k * 2 ^ 23 + (f + 1) ≤ m by omega)
      rw [hhigh] at this
      calc (f + 1) * (den * 2 ^ k) = (f + 1) * 2 ^ k * den := by ring
        _ ≤ magNat m * den := Nat.mul_le_mul_right _ this
  have hc : (c = f ∧ magNat (k * 2 ^ 23 + c) * den = f * (den * 2 ^ k)) ∨
      (c = f + 1 ∧ magNat (k * 2 ^ 23 + c) * den = f * (den * 2 ^ k) + den * 2 ^ k) := by
    obtain ⟨rfl, -⟩ | ⟨rfl, -⟩ := hcases
    · exact .inl ⟨rfl, by rw [hlow]; ring⟩
    · exact .inr ⟨rfl, by rw [hhigh]; ring⟩
  have hne : magNat m ≠ magNat (k * 2 ^ 23 + c) → magNat m * den ≠ magNat (k * 2 ^ 23 + c) * den :=
    fun h e => h (Nat.eq_of_mul_eq_mul_right hden e)
  have e1 : (f + 1) * (den * 2 ^ k) = f * (den * 2 ^ k) + den * 2 ^ k := by ring
  rw [e1] at hm
  rw [Nat.mul_comm (den * 2 ^ k) f] at hdiv
  rw [← Nat.cast_mul, ← Nat.cast_mul]
  generalize magNat (k * 2 ^ 23 + c) * den = X at *
  generalize hY : magNat m * den = Y at *
  generalize f * (den * 2 ^ k) = F at *
  generalize den * 2 ^ k = D at *
  constructor
  · obtain ⟨ha, _⟩ | ⟨ha, _⟩ := abs_cases ((X : ℤ) - num) <;>
    obtain ⟨hb, _⟩ | ⟨hb, _⟩ := abs_cases ((Y : ℤ) - num) <;> omega
  · intro h1 h2
    have h3 := hne h1
    obtain ⟨ha, _⟩ | ⟨ha, _⟩ := abs_cases ((X : ℤ) - num) <;>
    obtain ⟨hb, _⟩ | ⟨hb, _⟩ := abs_cases ((Y : ℤ) - num) <;> omega

/-- Where the magnitude overflows: from the midpoint of the largest finite value and `2^128` on (R112). -/
theorem roundRaw_lt_iff (num : Nat) {den : Nat} (hden : 0 < den) :
    roundRaw num den < 0x7F800000 ↔ num < (2 ^ 25 - 1) * (2 ^ 252 * den) := by
  have hB := (roundRaw_nearest num hden 0x7F800000).1
  have hM := roundRaw_nearest num hden 0x7F7FFFFF
  have hinf : magNat 0x7F800000 * den = 2 ^ 25 * (2 ^ 252 * den) := by
    rw [magNat_inf, pow_succ 2 252, pow_succ 2 24]
    ring
  have hmax : magNat 0x7F7FFFFF * den = (2 ^ 25 - 2) * (2 ^ 252 * den) := by
    rw [magNat_max, pow_succ 2 252]
    generalize 2 ^ 252 = x
    rw [show (2 ^ 25 - 2 : Nat) = (2 ^ 24 - 1) * 2 by norm_num]
    ring
  have hu : 0 < 2 ^ 252 * den := Nat.mul_pos (by positivity) hden
  rw [← Nat.cast_mul, ← Nat.cast_mul, hinf] at hB
  rw [← Nat.cast_mul, ← Nat.cast_mul, hmax] at hM
  obtain ⟨hM1, hM2⟩ := hM
  generalize 2 ^ 252 * den = u at *
  have hlow : roundRaw num den < 0x7F800000 → magNat (roundRaw num den) * den ≤ (2 ^ 25 - 2) * u := fun h => by
    rw [← hmax]
    exact Nat.mul_le_mul_right _ (magNat_strictMono.monotone (by omega))
  have hhigh : 0x7F800000 ≤ roundRaw num den → 2 ^ 25 * u ≤ magNat (roundRaw num den) * den := fun h => by
    rw [← hinf]
    exact Nat.mul_le_mul_right _ (magNat_strictMono.monotone h)
  have hodd : magNat (roundRaw num den) * den = (2 ^ 25 - 2) * u → roundRaw num den = 0x7F7FFFFF := fun h => by
    rw [← hmax] at h
    exact magNat_strictMono.injective (Nat.eq_of_mul_eq_mul_right hden h)
  have hne : roundRaw num den < 0x7F800000 → |((magNat (roundRaw num den) * den : ℕ) : ℤ) - num| =
      |((2 ^ 25 * u : ℕ) : ℤ) - num| → roundRaw num den % 2 = 0 := fun h e => by
    apply (roundRaw_nearest num hden 0x7F800000).2
    · exact ne_of_gt (magNat_strictMono h)
    · rw [← Nat.cast_mul, ← Nat.cast_mul, hinf]
      exact e
  generalize magNat (roundRaw num den) * den = X at *
  constructor
  · intro h
    have h1 := hlow h
    have h2 := hne h
    by_contra hc
    obtain ⟨ha, _⟩ | ⟨ha, _⟩ := abs_cases ((X : ℤ) - num) <;>
      obtain ⟨hb, _⟩ | ⟨hb, _⟩ := abs_cases (((2 ^ 25 * u : ℕ) : ℤ) - num) <;> omega
  · intro h
    by_contra hc
    have h1 := hhigh (by omega)
    obtain ⟨ha, _⟩ | ⟨ha, _⟩ := abs_cases ((X : ℤ) - num) <;>
      obtain ⟨hb, _⟩ | ⟨hb, _⟩ := abs_cases ((((2 ^ 25 - 2) * u : ℕ) : ℤ) - num) <;> omega

/-! ## Round to nearest over the reals -/

theorem flipSign_pack {s : Bool} {m : Nat} (h : m < 2 ^ 31) : flipSign (pack s m) = pack (!s) m :=
  eq_of_sgn_absBits (by rw [sgn_flipSign, sgn_pack h, sgn_pack h]) (by rw [absBits_flipSign, absBits_pack h, absBits_pack h])

theorem isFinite_flipSign (p : F32) : isFinite (flipSign p) = isFinite p := by simp [isFinite]

/-- Rounding to nearest commutes with the sign. -/
theorem nearest_neg {r : ℝ} {p : F32} (h : Nearest r p) : Nearest (-r) (flipSign p) := by
  obtain ⟨h1, h2, h3⟩ := h
  refine ⟨fun hr => ?_, fun hr => ?_, fun hr => ?_⟩
  · rw [h2 (by linarith)]
    decide
  · rw [h1 (by linarith)]
    decide
  · rw [abs_neg] at hr
    obtain ⟨hf, hn, ht⟩ := h3 hr
    have key : ∀ q, |((value (flipSign q) : ℚ) : ℝ) - -r| = |((value q : ℚ) : ℝ) - r| := fun q => by
      rw [value_flipSign, ← abs_neg]
      congr 1
      push_cast
      ring
    have key' : ∀ q, |((value q : ℚ) : ℝ) - -r| = |((value (flipSign q) : ℚ) : ℝ) - r| := fun q => by
      rw [← key (flipSign q), flipSign_flipSign]
    refine ⟨by rw [isFinite_flipSign, hf], fun q hq => ?_, fun q hq hne he => ?_⟩
    · rw [key, key' q]
      exact hn _ (by rw [isFinite_flipSign, hq])
    · have := ht (flipSign q) (by rw [isFinite_flipSign, hq])
        (fun e => hne (by rw [value_flipSign, ← e, value_flipSign, neg_neg])) (by rw [← key', ← key, he])
      rw [← this]
      simp [flipSign, NEG_ZERO]

theorem isFinite_pack {s : Bool} {m : Nat} (h : m < 0x7F800000) : isFinite (pack s m) = true := by
  simp only [isFinite, decide_eq_true_eq]
  rw [absBits_pack (by omega)]
  exact h

theorem value_nonneg_of_sgn {q : F32} (h : sgn q = false) : value q = (magNat (absBits q) : ℚ) / 2 ^ 149 := by
  rw [value, units_eq, h]
  simp

theorem value_nonpos_of_sgn {q : F32} (h : sgn q = true) : value q ≤ 0 := by
  rw [value, units_eq, h]
  simp only [if_true, Int.cast_neg, Int.cast_natCast]
  apply div_nonpos_of_nonpos_of_nonneg <;> [skip; positivity]
  exact neg_nonpos.2 (Nat.cast_nonneg _)

/-- Rounding the magnitude `num/den` and attaching a sign is rounding to nearest (R112). -/
theorem nearest_pack (s : Bool) (num : Nat) {den : Nat} (hden : 0 < den) :
    Nearest ((if s then -1 else 1) * ((num : ℝ) / den / 2 ^ 149)) (pack s (roundMag num den)) := by
  have hlt : roundMag num den < 2 ^ 31 := by
    rw [roundMag_eq]
    omega
  suffices h : Nearest ((num : ℝ) / den / 2 ^ 149) (pack false (roundMag num den)) by
    cases s
    · simpa using h
    · have := nearest_neg h
      rw [flipSign_pack hlt] at this
      simpa using this
  have hd : (0 : ℝ) < den := by exact_mod_cast hden
  have hiff := roundRaw_lt_iff num hden
  have hreal : (num : ℝ) / den / 2 ^ 149 < 2 ^ 128 - 2 ^ 103 ↔ num < (2 ^ 25 - 1) * (2 ^ 252 * den) := by
    rw [div_div, div_lt_iff₀ (by positivity), ← Nat.cast_lt (α := ℝ)]
    push_cast
    have : ((2 : ℝ) ^ 128 - 2 ^ 103) * (den * 2 ^ 149) = (2 ^ 25 - 1) * (2 ^ 252 * den) := by
      rw [show (2 : ℝ) ^ 252 = 2 ^ 103 * 2 ^ 149 by norm_num, show (2 : ℝ) ^ 128 = 2 ^ 25 * 2 ^ 103 by norm_num]
      ring
    rw [this]
    norm_num
  have hx : 0 ≤ (num : ℝ) / den / 2 ^ 149 := by positivity
  refine ⟨fun hr => ?_, fun hr => ?_, fun hr => ?_⟩
  · have : ¬ roundRaw num den < 0x7F800000 := by rw [hiff, ← hreal]; exact not_lt.2 hr
    rw [roundMag_eq, min_eq_right (by omega)]
    rfl
  · exfalso
    have : (0 : ℝ) < 2 ^ 128 - 2 ^ 103 := by norm_num
    linarith
  · rw [abs_of_nonneg hx, hreal, ← hiff] at hr
    rw [roundMag_eq, min_eq_left hr.le] at *
    have hdist : ∀ m : Nat, |(((magNat m : ℚ) / 2 ^ 149 : ℚ) : ℝ) - (num : ℝ) / den / 2 ^ 149| =
        ((|(magNat m : ℤ) * den - num| : ℤ) : ℝ) / ((den : ℝ) * 2 ^ 149) := fun m => by
      have e : (((magNat m : ℚ) / 2 ^ 149 : ℚ) : ℝ) - (num : ℝ) / den / 2 ^ 149 =
          (((magNat m : ℤ) * den - num : ℤ) : ℝ) / ((den : ℝ) * 2 ^ 149) := by
        push_cast
        field_simp
      rw [e, abs_div, abs_of_pos (show (0 : ℝ) < den * 2 ^ 149 by positivity), Int.cast_abs]
    have hval : value (pack false (roundRaw num den)) = (magNat (roundRaw num den) : ℚ) / 2 ^ 149 := by
      rw [value_pack hlt]
      simp
    have hpos : (0 : ℝ) < den * 2 ^ 149 := by positivity
    have hle : ∀ m : Nat, |((value (pack false (roundRaw num den)) : ℚ) : ℝ) - (num : ℝ) / den / 2 ^ 149| ≤
        |(((magNat m : ℚ) / 2 ^ 149 : ℚ) : ℝ) - (num : ℝ) / den / 2 ^ 149| := fun m => by
      rw [hval, hdist, hdist, div_le_div_iff_of_pos_right hpos]
      exact_mod_cast (roundRaw_nearest num hden m).1
    have htie : ∀ m : Nat, (magNat m : ℚ) / 2 ^ 149 ≠ value (pack false (roundRaw num den)) →
        |((value (pack false (roundRaw num den)) : ℚ) : ℝ) - (num : ℝ) / den / 2 ^ 149| =
          |(((magNat m : ℚ) / 2 ^ 149 : ℚ) : ℝ) - (num : ℝ) / den / 2 ^ 149| →
        (pack false (roundRaw num den)).getLsbD 0 = false := fun m hne he => by
      rw [hval] at hne he
      rw [hdist, hdist, div_left_inj' hpos.ne'] at he
      have h2 := (roundRaw_nearest num hden m).2 (fun e => hne (by rw [e])) (by exact_mod_cast he)
      rw [BitVec.getLsbD, pack_toNat hlt, Nat.testBit_zero]
      simp [h2]
    have h0 := hle 0
    refine ⟨isFinite_pack hr, fun q _ => ?_, fun q _ hne he => ?_⟩
    · cases hs : sgn q
      · rw [value_nonneg_of_sgn hs]
        exact hle _
      · refine h0.trans ?_
        have hq : ((value q : ℚ) : ℝ) ≤ 0 := by exact_mod_cast value_nonpos_of_sgn hs
        rw [magNat_zero]
        simp only [Nat.cast_zero, zero_div, Rat.cast_zero, zero_sub, abs_neg]
        rw [abs_of_nonneg hx, abs_of_nonpos (by linarith)]
        linarith
    · cases hs : sgn q
      · rw [value_nonneg_of_sgn hs] at hne he
        exact htie _ hne he
      · have hq : ((value q : ℚ) : ℝ) ≤ 0 := by exact_mod_cast value_nonpos_of_sgn hs
        rw [magNat_zero] at h0
        simp only [Nat.cast_zero, zero_div, Rat.cast_zero, zero_sub, abs_neg] at h0
        rw [abs_of_nonneg hx] at h0
        rw [he, abs_of_nonpos (by linarith)] at h0
        have hq0 : ((value q : ℚ) : ℝ) = 0 := by linarith
        have hq0' : value q = 0 := by exact_mod_cast hq0
        refine htie 0 ?_ ?_
        · rw [magNat_zero]
          simpa [hq0'] using hne
        · rw [he, hq0, magNat_zero]
          simp

/-- A rounded real is a number. -/
theorem nearest_not_nan {r : ℝ} {p : F32} (h : Nearest r p) : isNaN p = false := by
  obtain ⟨h1, h2, h3⟩ := h
  by_cases ha : (2 : ℝ) ^ 128 - 2 ^ 103 ≤ r
  · rw [h1 ha]
    rfl
  by_cases hb : r ≤ -(2 ^ 128 - 2 ^ 103)
  · rw [h2 hb]
    rfl
  exact isNaN_of_isFinite (h3 (abs_lt.2 ⟨not_le.1 hb, not_le.1 ha⟩)).1

/-- The bounds of the finite values. -/
theorem value_lt_top {q : F32} (h : isFinite q = true) : ((value q : ℚ) : ℝ) < 2 ^ 128 - 2 ^ 103 := by
  simp only [isFinite, decide_eq_true_eq] at h
  have hm : magNat (absBits q) ≤ (2 ^ 24 - 1) * 2 ^ 253 := by
    rw [← magNat_max]
    exact magNat_strictMono.monotone (by omega)
  have hu : (units q : ℝ) ≤ (2 ^ 24 - 1) * 2 ^ 253 := by
    have h1 : units q ≤ (magNat (absBits q) : ℤ) := by
      rw [units_eq]
      split <;> omega
    calc (units q : ℝ) ≤ ((magNat (absBits q) : ℤ) : ℝ) := by exact_mod_cast h1
      _ ≤ (((2 ^ 24 - 1) * 2 ^ 253 : ℕ) : ℝ) := by exact_mod_cast hm
      _ = (2 ^ 24 - 1) * 2 ^ 253 := by push_cast; norm_num
  rw [value]
  push_cast
  rw [div_lt_iff₀ (by positivity)]
  refine lt_of_le_of_lt hu ?_
  norm_num

theorem neg_top_lt_value {q : F32} (h : isFinite q = true) : -(2 ^ 128 - 2 ^ 103) < ((value q : ℚ) : ℝ) := by
  have := value_lt_top (q := flipSign q) (by rw [isFinite_flipSign, h])
  rw [value_flipSign] at this
  push_cast at this
  linarith

/-- Rounding keeps a finite upper bound that is a binary32 value. -/
theorem nearest_le {r : ℝ} {p q : F32} (h : Nearest r p) (hq : isFinite q = true) (hr : r ≤ ((value q : ℚ) : ℝ)) :
    fle p q = true := by
  have hnan := nearest_not_nan h
  obtain ⟨-, h2, h3⟩ := h
  have htop := value_lt_top hq
  by_cases hb : r ≤ -(2 ^ 128 - 2 ^ 103)
  · rw [h2 hb]
    refine fle_iff.2 ⟨by decide, isNaN_of_isFinite hq, ?_⟩
    simp only [isFinite, decide_eq_true_eq] at hq
    have : orderKey NEG_INF = -0x7F800000 := by decide
    rw [this, orderKey]
    split <;> omega
  · obtain ⟨hf, hn, -⟩ := h3 (abs_lt.2 ⟨not_le.1 hb, lt_of_le_of_lt hr htop⟩)
    rw [fle_iff_value hf hq]
    by_contra hc
    have hlt : ((value q : ℚ) : ℝ) < ((value p : ℚ) : ℝ) := by exact_mod_cast not_le.1 hc
    have := hn q hq
    rw [abs_of_nonneg (by linarith), abs_of_nonneg (by linarith)] at this
    linarith

theorem flipSign_fle {a b : F32} : fle (flipSign a) (flipSign b) = fle b a := by
  have hk : ∀ p, orderKey (flipSign p) = -orderKey p := fun p => by
    rw [orderKey, orderKey, sgn_flipSign, absBits_flipSign]
    cases sgn p <;> simp
  have hn : ∀ p, isNaN (flipSign p) = isNaN p := fun p => by simp [isNaN]
  simp only [fle, hn, hk, neg_le_neg_iff]
  rw [Bool.and_comm (!isNaN a)]

/-- Rounding keeps a finite lower bound that is a binary32 value. -/
theorem le_nearest {r : ℝ} {p q : F32} (h : Nearest r p) (hq : isFinite q = true) (hr : ((value q : ℚ) : ℝ) ≤ r) :
    fle q p = true := by
  rw [← flipSign_fle]
  refine nearest_le (nearest_neg h) (by rw [isFinite_flipSign, hq]) ?_
  rw [value_flipSign]
  push_cast
  linarith

end Sys2Proof.Machine
end

