-- ==== Sys2Proof/Laws/Values.lean ====
section
/-! SUPPORT. Values and places in the order of the special patterns: zeros, infinities, `1.0`, `PI/2`. -/

namespace Sys2Proof.Machine

theorem value_C_1 : value C_1 = 1 := by
  rw [value, show units C_1 = 2 ^ 149 by decide]
  push_cast
  norm_num

theorem value_of_isZero {p : F32} (h : isZero p = true) : value p = 0 := by
  simp only [isZero, decide_eq_true_eq] at h
  rw [value, units_eq, h, magNat_zero]
  simp

theorem fle_of_key {a b : F32} (ha : isNaN a = false) (hb : isNaN b = false) (h : orderKey a ≤ orderKey b) :
    fle a b = true := fle_iff.2 ⟨ha, hb, h⟩

theorem orderKey_of_isZero {p : F32} (h : isZero p = true) : orderKey p = 0 := by
  simp only [isZero, decide_eq_true_eq] at h
  rw [orderKey, h]
  simp

theorem isZero_of_orderKey {p : F32} (h : orderKey p = 0) : isZero p = true := by
  rw [orderKey] at h
  simp only [isZero, decide_eq_true_eq]
  split at h <;> omega

/-- A number that is not below `+0.0` and is not `-0.0` has sign bit 0. -/
theorem sgn_of_zero_fle {p : F32} (h : fle C_0 p = true) (hz : p ≠ NEG_ZERO) : sgn p = false := by
  have hk := (fle_iff.1 h).2.2
  rw [show orderKey C_0 = 0 by decide, orderKey] at hk
  cases hs : sgn p
  · rfl
  · rw [hs, if_pos rfl] at hk
    exact absurd (eq_of_sgn_absBits (by rw [hs]; decide) (by rw [show absBits NEG_ZERO = 0 by decide]; omega)) hz

/-- The infinities, by their sign. -/
theorem eq_inf {p : F32} (h : isInf p = true) : p = if sgn p then NEG_INF else POS_INF := by
  simp only [isInf, decide_eq_true_eq] at h
  cases hs : sgn p
  · exact eq_of_sgn_absBits (by rw [hs]; decide) (by rw [h]; decide)
  · exact eq_of_sgn_absBits (by rw [hs]; decide) (by rw [h]; decide)

theorem eq_of_orderKey {a b : F32} (h : orderKey a = orderKey b) (hb : orderKey b ≠ 0) : a = b := by
  rw [orderKey, orderKey] at h
  rw [orderKey] at hb
  apply eq_of_sgn_absBits
  · cases ha : sgn a <;> cases hb' : sgn b <;> simp only [ha, hb', if_true, Bool.false_eq_true, if_false] at * <;> omega
  · cases ha : sgn a <;> cases hb' : sgn b <;> simp only [ha, hb', if_true, Bool.false_eq_true, if_false] at * <;> omega

/-- Where a pattern that is no NaN lies: below every number, above every number, or finite. -/
theorem number_cases {x : F32} (h : isNaN x = false) : isFinite x = true ∨ x = NEG_INF ∨ x = POS_INF := by
  obtain hf | hi := isFinite_or x h
  · exact .inl hf
  · refine .inr ?_
    have := eq_inf hi
    cases hs : sgn x <;> rw [hs] at this
    · exact .inr this
    · exact .inl this

theorem neg_inf_fle {x : F32} (h : isNaN x = false) : fle NEG_INF x = true := by
  refine fle_of_key (by decide) h ?_
  rw [show orderKey NEG_INF = -0x7F800000 by decide, orderKey]
  simp only [isNaN, decide_eq_false_iff_not] at h
  split <;> omega

theorem fle_pos_inf {x : F32} (h : isNaN x = false) : fle x POS_INF = true := by
  refine fle_of_key h (by decide) ?_
  rw [show orderKey POS_INF = 0x7F800000 by decide, orderKey]
  simp only [isNaN, decide_eq_false_iff_not] at h
  split <;> omega

theorem not_fle_neg_inf {x : F32} (h : isFinite x = true) : fle x NEG_INF = false := by
  rw [← Bool.not_eq_true, fle_iff, show orderKey NEG_INF = -0x7F800000 by decide, orderKey]
  simp only [isFinite, decide_eq_true_eq] at h
  rintro ⟨-, -, hk⟩
  split at hk <;> omega

theorem not_pos_inf_fle {x : F32} (h : isFinite x = true) : fle POS_INF x = false := by
  rw [← Bool.not_eq_true, fle_iff, show orderKey POS_INF = 0x7F800000 by decide, orderKey]
  simp only [isFinite, decide_eq_true_eq] at h
  rintro ⟨-, -, hk⟩
  split at hk <;> omega

/-- `HALF_PI` lies within `10^-7` above `π/2`. -/
theorem half_pi_near : Real.pi / 2 ≤ ((value HALF_PI : ℚ) : ℝ) ∧ ((value HALF_PI : ℚ) : ℝ) ≤ Real.pi / 2 + 1 / 10 ^ 7 := by
  have hv : ((value HALF_PI : ℚ) : ℝ) = 13176795 / 2 ^ 23 := by
    rw [value, show units HALF_PI = 13176795 * 2 ^ 126 by decide]
    push_cast
    norm_num
  rw [hv]
  have h1 := Real.pi_gt_d6
  have h2 := Real.pi_lt_d6
  have h3 := Real.pi_gt_d20
  have h4 := Real.pi_lt_d20
  constructor <;> norm_num at * <;> linarith

end Sys2Proof.Machine
end

