-- ==== Sys2Proof/Laws/Irrational.lean ====
section
/-! SUPPORT. The exponential and the sine of a positive dyadic rational are irrational (the argument of Hermite and
Lindemann), so a finite enclosure always decides how they round (40_numerics.md R129). -/

namespace Sys2Proof.Machine

open Polynomial in
/-- The integers near the exponentials of the roots of an integer polynomial, with the error below any bound. -/
theorem exp_roots_approx (f : ℤ[X]) (hf : f.eval 0 ≠ 0) (ε : ℝ) (hε : 0 < ε) (b : ℕ) :
    ∃ p : ℕ, b < p ∧ p.Prime ∧ ∃ n : ℤ, ¬ (p : ℤ) ∣ n ∧ ∃ g : ℤ[X], ∀ r : ℂ, aeval r f = 0 →
      ‖(n : ℂ) * Complex.exp r - p * aeval r g‖ < ε := by
  obtain ⟨c, hc⟩ := LindemannWeierstrass.exp_polynomial_approx f hf
  have ht : Filter.Tendsto (fun n : ℕ => |c| * (|c| ^ n / (n.factorial : ℝ))) Filter.atTop (nhds (|c| * 0)) :=
    (FloorSemiring.tendsto_pow_div_factorial_atTop |c|).const_mul _
  rw [mul_zero] at ht
  obtain ⟨N, hN⟩ := (ht.eventually (gt_mem_nhds hε)).exists_forall_of_atTop
  obtain ⟨p, hp, hpp⟩ := Nat.exists_infinite_primes (max (N + 1) (max b (f.eval 0).natAbs) + 1)
  have h0 : f ≠ 0 := by
    rintro rfl
    simp at hf
  obtain ⟨n, hn, g, -, hg⟩ := hc p (by omega) hpp
  refine ⟨p, by omega, hpp, n, hn, g, fun r hr => ?_⟩
  have h1 := hg (r := r) (by
    rw [mem_aroots]
    exact ⟨h0, hr⟩)
  simp only [nsmul_eq_mul, zsmul_eq_mul] at h1
  refine h1.trans_lt (lt_of_le_of_lt ?_ (hN (p - 1) (by omega)))
  obtain ⟨m, rfl⟩ : ∃ m, p = m + 1 := ⟨p - 1, by omega⟩
  rw [Nat.add_sub_cancel, ← mul_div_assoc, ← pow_succ']
  exact div_le_div_of_nonneg_right ((le_abs_self _).trans (abs_pow c _).le) (Nat.cast_nonneg _)

/-- An integer combination that is an integer over a denominator and small is zero. -/
theorem int_eq_zero_of_small {q : ℚ} {n w : ℤ} {x : ℝ} (hx : x = n * (q : ℝ) - w) (h : |x| < 1 / q.den) : n * q.num = w * q.den := by
  have hd : (0 : ℝ) < q.den := by exact_mod_cast q.den_pos
  have hq : (q : ℝ) * q.den = q.num := by exact_mod_cast Rat.mul_den_eq_num q
  have h1 : |((n * q.num - w * q.den : ℤ) : ℝ)| < 1 := by
    have e : ((n * q.num - w * q.den : ℤ) : ℝ) = x * q.den := by
      push_cast
      rw [hx, ← hq]
      ring
    rw [e, abs_mul, abs_of_pos hd]
    calc |x| * q.den < 1 / q.den * q.den := by gcongr
      _ = 1 := by field_simp
  have h2 : |n * q.num - w * q.den| < 1 := by exact_mod_cast h1
  have := Int.abs_lt_one_iff.1 h2
  omega

/-- A prime above a numerator that divides `n` times it, and does not divide `n`, makes it zero. -/
theorem num_eq_zero_of_prime {p : ℕ} (hp : p.Prime) {n k w : ℤ} (hn : ¬ (p : ℤ) ∣ n) (hk : k.natAbs < p)
    (h : n * k = p * w) : k = 0 := by
  have hd : (p : ℤ) ∣ n * k := ⟨w, h⟩
  obtain h1 | h1 := (Nat.prime_iff_prime_int.1 hp).dvd_mul.1 hd
  · exact absurd h1 hn
  · exact Int.eq_zero_of_abs_lt_dvd h1 (by rw [Int.abs_eq_natAbs]; exact_mod_cast hk)

open Polynomial in
/-- The exponential of a positive integer is irrational. -/
theorem irrational_exp_nat {a : ℕ} (ha : 0 < a) : Irrational (Real.exp a) := by
  rintro ⟨q, hq⟩
  have hd : (0 : ℝ) < q.den := by exact_mod_cast q.den_pos
  obtain ⟨p, hp, hpp, n, hn, g, hg⟩ := exp_roots_approx (X - C (a : ℤ)) (by simpa using ha.ne') (1 / q.den) (by positivity)
    q.num.natAbs
  have h1 := hg (a : ℂ) (by simp)
  have hga : aeval (a : ℂ) g = ((g.eval (a : ℤ) : ℤ) : ℂ) := by
    simpa using aeval_algebraMap_apply ℂ (a : ℤ) g
  have h2 : (n : ℂ) * Complex.exp a - p * aeval (a : ℂ) g = ((n * (q : ℝ) - (p * g.eval (a : ℤ) : ℤ) : ℝ) : ℂ) := by
    rw [hga, hq]
    push_cast
    rfl
  rw [h2, Complex.norm_real, Real.norm_eq_abs] at h1
  have h3 := int_eq_zero_of_small rfl h1
  have h4 := num_eq_zero_of_prime hpp hn hp (h3.trans (mul_assoc _ _ _))
  have h5 : q = 0 := Rat.num_eq_zero.1 h4
  rw [h5, Rat.cast_zero] at hq
  exact (Real.exp_pos _).ne hq

open Polynomial in
/-- The values of an integer polynomial at `im` and `-im` sum to an integer. -/
theorem aeval_conj_sum (m : ℤ) (g : ℤ[X]) :
    ∃ z : ℤ, aeval (m * Complex.I) g + aeval (-(m * Complex.I)) g = (z : ℂ) := by
  induction g using Polynomial.induction_on' with
  | add f g hf hg =>
    obtain ⟨x, hx⟩ := hf
    obtain ⟨y, hy⟩ := hg
    refine ⟨x + y, ?_⟩
    rw [map_add, map_add]
    push_cast
    rw [← hx, ← hy]
    ring
  | monomial k c =>
    simp only [aeval_monomial, eq_intCast]
    obtain ⟨j, rfl | rfl⟩ := Nat.even_or_odd' k
    · refine ⟨2 * c * (-(m ^ 2)) ^ j, ?_⟩
      have : ((m : ℂ) * Complex.I) ^ 2 = -(m ^ 2 : ℂ) := by
        rw [mul_pow, Complex.I_sq]
        ring
      rw [pow_mul, pow_mul, neg_sq, this]
      push_cast
      ring
    · refine ⟨0, ?_⟩
      rw [Odd.neg_pow ⟨j, rfl⟩]
      simp

open Polynomial in
/-- The cosine of a positive integer is irrational. -/
theorem irrational_cos_nat {a : ℕ} (ha : 0 < a) : Irrational (Real.cos a) := by
  rintro ⟨q, hq⟩
  have hd : (0 : ℝ) < q.den := by exact_mod_cast q.den_pos
  obtain ⟨p, hp, hpp, n, hn, g, hg⟩ := exp_roots_approx (X ^ 2 + C ((a : ℤ) ^ 2))
    (by simpa using ha.ne') (1 / q.den / 2) (by positivity) (max 2 q.num.natAbs)
  have hroot : ((a : ℤ) * Complex.I : ℂ) ^ 2 = -(a : ℂ) ^ 2 := by
    rw [mul_pow, Complex.I_sq]
    push_cast
    ring
  have h1 := hg ((a : ℤ) * Complex.I) (by simp [mul_pow])
  have h2 := hg (-((a : ℤ) * Complex.I)) (by simp [mul_pow])
  obtain ⟨z, hz⟩ := aeval_conj_sum a g
  have hcos : Complex.exp ((a : ℤ) * Complex.I) + Complex.exp (-((a : ℤ) * Complex.I)) = ((2 * q : ℝ) : ℂ) := by
    rw [hq, Complex.ofReal_mul, Complex.ofReal_cos, Complex.cos]
    push_cast
    rw [neg_mul]
    ring
  have h3 : |((2 * n : ℤ) : ℝ) * (q : ℝ) - ((p * z : ℤ) : ℝ)| < 1 / q.den := by
    have e : (((2 * n : ℤ) : ℝ) * (q : ℝ) - ((p * z : ℤ) : ℝ) : ℂ) =
        ((n : ℂ) * Complex.exp ((a : ℤ) * Complex.I) - p * aeval ((a : ℤ) * Complex.I) g) +
        ((n : ℂ) * Complex.exp (-((a : ℤ) * Complex.I)) - p * aeval (-((a : ℤ) * Complex.I)) g) := by
      have : (n : ℂ) * (Complex.exp ((a : ℤ) * Complex.I) + Complex.exp (-((a : ℤ) * Complex.I))) = n * ((2 * q : ℝ) : ℂ) := by
        rw [hcos]
      push_cast at this hz ⊢
      linear_combination p * hz - this
    rw [← Real.norm_eq_abs, ← Complex.norm_real]
    push_cast at e ⊢
    rw [e]
    refine (norm_add_le _ _).trans_lt ?_
    push_cast at h1 h2
    linarith
  have h4 := int_eq_zero_of_small rfl h3
  have h5 : ¬ (p : ℤ) ∣ 2 * n := fun h => by
    obtain h6 | h6 := (Nat.prime_iff_prime_int.1 hpp).dvd_mul.1 h
    · have := Int.le_of_dvd (by norm_num) h6
      omega
    · exact hn h6
  have h6 := num_eq_zero_of_prime hpp h5 (by omega) (h4.trans (mul_assoc _ _ _))
  have h7 : q = 0 := Rat.num_eq_zero.1 h6
  rw [h7, Rat.cast_zero] at hq
  obtain ⟨k, hk⟩ := Real.cos_eq_zero_iff.1 hq.symm
  refine irrational_pi ⟨2 * a / (2 * k + 1), ?_⟩
  have h0 : (2 * (k : ℝ) + 1) ≠ 0 := fun h0 => by
    have : (2 * k + 1 : ℤ) = 0 := by exact_mod_cast h0
    omega
  push_cast
  rw [hk]
  field_simp

/-- The exponential of a positive dyadic rational is irrational. -/
theorem irrational_exp_dyadic {u : ℕ} (hu : 0 < u) (k : ℕ) : Irrational (Real.exp (u / 2 ^ k)) := by
  rintro ⟨q, hq⟩
  refine irrational_exp_nat hu ⟨q ^ 2 ^ k, ?_⟩
  push_cast
  rw [hq, ← Real.exp_nat_mul]
  congr 1
  push_cast
  field_simp

theorem irrational_exp_neg_dyadic {u : ℕ} (hu : 0 < u) (k : ℕ) : Irrational (Real.exp (-(u / 2 ^ k))) := by
  rw [Real.exp_neg]
  exact (irrational_exp_dyadic hu k).inv

/-- The cosine of a positive dyadic rational is irrational. -/
theorem irrational_cos_dyadic {u : ℕ} (hu : 0 < u) (k : ℕ) : Irrational (Real.cos (u / 2 ^ k)) := by
  induction k with
  | zero => simpa using irrational_cos_nat hu
  | succ k ih =>
    rintro ⟨q, hq⟩
    refine ih ⟨2 * q ^ 2 - 1, ?_⟩
    push_cast
    rw [hq, ← Real.cos_two_mul]
    congr 1
    rw [pow_succ]
    field_simp

/-- The sine of a positive dyadic rational is irrational. -/
theorem irrational_sin_dyadic {u : ℕ} (hu : 0 < u) (k : ℕ) : Irrational (Real.sin (u / 2 ^ k)) := by
  rintro ⟨q, hq⟩
  refine irrational_cos_dyadic (u := 2 * u) (by omega) k ⟨1 - 2 * q ^ 2, ?_⟩
  push_cast
  rw [hq, mul_div_assoc, Real.cos_two_mul, Real.cos_sq']
  ring

end Sys2Proof.Machine
end

