-- ==== Sys2Proof/Machine/Series.lean ====
section
/-! DEFINITION. Exact evaluation for the reference instance `NUM_CR` (40_numerics.md R129): partial sums of the series of
`exp` and `sin` with their error bound, as integers over one denominator; the integer fourth root; and the rounding of a
real number from its floor in half units of `2^-149`. -/

namespace Sys2Proof.Machine

/-! ## Series -/

/-- The coefficients of `e^x` or `e^-x` at `x^m / m!`. -/
def expCoef (neg : Bool) (m : Nat) : Int := if neg && m % 2 == 1 then -1 else 1

/-- The coefficients of `sin x` at `x^m / m!`. -/
def sinCoef (m : Nat) : Int := if m % 2 == 0 then 0 else if m % 4 == 1 then 1 else -1

/-- The common denominator of `n` terms: `(2^149)^n · n!`. -/
def seriesDen : Nat → Nat
  | 0 => 1
  | n + 1 => seriesDen n * (2 ^ 149 * (n + 1))

/-- The numerator of the sum of `n` terms at `x = u · 2^-149`. -/
def seriesNum (coef : Nat → Int) (u : Nat) : Nat → Int
  | 0 => 0
  | n + 1 => (seriesNum coef u n + coef n * (u ^ n : Nat)) * (2 ^ 149 * (n + 1) : Nat)

/-- The floor, in half units of `2^-149`, of the sum of `n` terms with the error bound `2 x^n / n!` added (`side = 1`) or
taken off (`side = -1`). -/
def seriesFloor (coef : Nat → Int) (u n : Nat) (side : Int) : Int :=
  (seriesNum coef u n + side * (2 * u ^ n : Nat)) * 2 ^ 150 / (seriesDen n : Int)

/-- `n` terms decide the floor: the error bound holds, and both ends of the enclosure have the same floor. -/
def seriesDecides (coef : Nat → Int) (u n : Nat) : Bool :=
  decide (2 * u ≤ 2 ^ 149 * (n + 1)) && decide (seriesFloor coef u n (-1) = seriesFloor coef u n 1)

/-- A number that passes a test, a few likely ones tried first. -/
def firstDecided (ok : Nat → Bool) (h : ∃ n, ok n = true) : Nat :=
  match [30, 60, 120, 240, 480].find? ok with
  | some n => n
  | none => Nat.find h

/-! ## Fourth root -/

/-- The floor of the fourth root of `n`, bit by bit below bit `b`, from the bits `k` already known. -/
def root4 (n : Nat) : Nat → Nat → Nat
  | 0, k => k
  | b + 1, k => root4 n b (if (k + 2 ^ b) ^ 4 ≤ n then k + 2 ^ b else k)

/-! ## Rounding from the floor -/

/-- The binary32 value nearest to every real strictly between `c` and `c + 1` half units of `2^-149`: no midpoint of two
binary32 values lies there. -/
def roundHalf (c : Int) : F32 := pack (decide (c < 0)) (roundMag (2 * c + 1).natAbs 4)

end Sys2Proof.Machine
end

