-- ==== Sys2Proof/Laws/Series.lean ====
section
/-! SUPPORT. What the partial sums of Machine/Series.lean say of the real functions: how close they are, that some number of
terms decides the floor, and that the floor they decide is the real one. -/

namespace Sys2Proof.Machine

open Finset

theorem firstDecided_ok (ok : Nat → Bool) (h : ∃ n, ok n = true) : ok (firstDecided ok h) = true := by
  unfold firstDecided
  split
  · exact List.find?_some (by assumption)
  · exact Nat.find_spec h

theorem seriesDen_eq (n : Nat) : seriesDen n = (2 ^ 149) ^ n * n.factorial := by
  induction n with
  | zero => rfl
  | succ n ih => rw [seriesDen, ih, pow_succ, Nat.factorial_succ]; ring

theorem seriesDen_pos (n : Nat) : 0 < seriesDen n := by
  rw [seriesDen_eq]
  positivity

theorem seriesDen_cast (n : Nat) : (seriesDen n : ℝ) = (2 ^ 149) ^ n * n.factorial := by
  rw [seriesDen_eq, Nat.cast_mul, Nat.cast_pow, Nat.cast_pow, Nat.cast_ofNat]

/-- The partial sum of the series. -/
theorem seriesNum_eq (coef : Nat → Int) (u n : Nat) :
    (seriesNum coef u n : ℝ) / seriesDen n = ∑ m ∈ range n, coef m * ((u : ℝ) / 2 ^ 149) ^ m / m.factorial := by
  induction n with
  | zero => simp [seriesNum]
  | succ n ih =>
    have hd : (seriesDen n : ℝ) ≠ 0 := by exact_mod_cast (seriesDen_pos n).ne'
    rw [sum_range_succ, ← ih, seriesNum, seriesDen]
    push_cast
    rw [mul_div_mul_right _ _ (by positivity), add_div]
    congr 1
    rw [seriesDen_cast, div_pow]
    have hD : (2 ^ 149 : ℝ) ≠ 0 := by positivity
    generalize (2 ^ 149 : ℝ) = D at *
    field_simp

/-- The error bound the two sides of the enclosure use. -/
theorem seriesErr_eq (u n : Nat) :
    ((2 * u ^ n : Nat) : ℝ) / seriesDen n = ((u : ℝ) / 2 ^ 149) ^ n / n.factorial * 2 := by
  rw [seriesDen_cast, div_pow]
  push_cast
  have hD : (2 ^ 149 : ℝ) ≠ 0 := by positivity
  generalize (2 ^ 149 : ℝ) = D at *
  field_simp

/-- A series with the exponential's error bound. -/
def Encloses (coef : Nat → Int) (x r : ℝ) : Prop :=
  ∀ n : ℕ, 2 * x ≤ n + 1 → |r - ∑ m ∈ range n, coef m * x ^ m / m.factorial| ≤ x ^ n / n.factorial * 2

theorem encloses_exp {x : ℝ} (hx : 0 ≤ x) : Encloses (expCoef false) x (Real.exp x) := fun n hn => by
  have h := Complex.exp_bound' (x := (x : ℂ)) (n := n) (by
    rw [Complex.norm_real, Real.norm_of_nonneg hx, div_le_iff₀ (by positivity)]
    push_cast
    linarith)
  rw [Complex.norm_real, Real.norm_of_nonneg hx] at h
  refine le_trans (le_of_eq ?_) h
  rw [← Real.norm_eq_abs, ← Complex.norm_real]
  push_cast
  simp [expCoef]

theorem encloses_exp_neg {x : ℝ} (hx : 0 ≤ x) : Encloses (expCoef true) x (Real.exp (-x)) := fun n hn => by
  have h := Complex.exp_bound' (x := (-x : ℂ)) (n := n) (by
    rw [norm_neg, Complex.norm_real, Real.norm_of_nonneg hx, div_le_iff₀ (by positivity)]
    push_cast
    linarith)
  rw [norm_neg, Complex.norm_real, Real.norm_of_nonneg hx] at h
  refine le_trans (le_of_eq ?_) h
  rw [← Real.norm_eq_abs, ← Complex.norm_real]
  push_cast
  congr 2
  refine sum_congr rfl fun m _ => ?_
  congr 1
  rw [neg_pow]
  congr 1
  obtain ⟨j, rfl | rfl⟩ := Nat.even_or_odd' m
  · simp [expCoef]
  · have : (2 * j + 1) % 2 = 1 := by omega
    simp [expCoef, this, pow_succ]

theorem sinCoef_eq (m : ℕ) : (Complex.I ^ m).im = ((sinCoef m : ℤ) : ℝ) := by
  have h4 : ∀ i : ℕ, Complex.I ^ (4 * (m / 4) + i) = Complex.I ^ i := fun i => by
    rw [pow_add, pow_mul, Complex.I_pow_four, one_pow, one_mul]
  obtain h | h | h | h : m % 4 = 0 ∨ m % 4 = 1 ∨ m % 4 = 2 ∨ m % 4 = 3 := by omega
  all_goals
    have e := h4 (m % 4)
    rw [Nat.div_add_mod, h] at e
    rw [e]
    have h2 : m % 2 = m % 4 % 2 := by omega
    simp [sinCoef, h2, h, pow_succ]

theorem encloses_sin {x : ℝ} (hx : 0 ≤ x) : Encloses sinCoef x (Real.sin x) := fun n hn => by
  have hnorm : ‖(x : ℂ) * Complex.I‖ = x := by
    rw [norm_mul, Complex.norm_I, Complex.norm_real, Real.norm_of_nonneg hx, mul_one]
  have h := Complex.exp_bound' (x := (x : ℂ) * Complex.I) (n := n) (by
    rw [hnorm, div_le_iff₀ (by positivity)]
    push_cast
    linarith)
  rw [hnorm] at h
  refine le_trans (le_of_eq_of_le ?_ (Complex.abs_im_le_norm _)) h
  rw [Complex.sub_im, Complex.exp_ofReal_mul_I_im, Complex.im_sum]
  congr 2
  refine sum_congr rfl fun m _ => ?_
  rw [mul_pow, ← Complex.ofReal_pow, ← sinCoef_eq, ← Complex.ofReal_natCast, Complex.div_ofReal_im, Complex.im_ofReal_mul]
  ring

/-- An integer quotient is the floor of the real one. -/
theorem int_div_bracket (a : ℤ) {b : ℕ} (hb : 0 < b) :
    ((a / (b : ℤ) : ℤ) : ℝ) ≤ (a : ℝ) / b ∧ (a : ℝ) / b < ((a / (b : ℤ) : ℤ) : ℝ) + 1 := by
  have hb' : (0 : ℝ) < b := by exact_mod_cast hb
  have hz : (0 : ℤ) < b := by exact_mod_cast hb
  rw [le_div_iff₀ hb', div_lt_iff₀ hb']
  exact ⟨by exact_mod_cast Int.ediv_mul_le a hz.ne', by exact_mod_cast Int.lt_ediv_add_one_mul_self a hz⟩

/-- The floor of one side of the enclosure. -/
theorem seriesFloor_bracket (coef : Nat → Int) (u n : Nat) (side : Int) :
    let e := (∑ m ∈ range n, coef m * ((u : ℝ) / 2 ^ 149) ^ m / m.factorial +
      side * (((u : ℝ) / 2 ^ 149) ^ n / n.factorial * 2)) * 2 ^ 150
    (seriesFloor coef u n side : ℝ) ≤ e ∧ e < seriesFloor coef u n side + 1 := by
  intro e
  have h := int_div_bracket ((seriesNum coef u n + side * (2 * u ^ n : Nat)) * 2 ^ 150) (seriesDen_pos n)
  have he : (((seriesNum coef u n + side * (2 * u ^ n : Nat)) * 2 ^ 150 : ℤ) : ℝ) / seriesDen n = e := by
    simp only [e]
    rw [← seriesNum_eq, ← seriesErr_eq]
    push_cast
    ring
  rwa [he] at h

/-- The argument is small enough for the error bound. -/
theorem arg_le_of_nat {u n : Nat} (h : 2 * u ≤ 2 ^ 149 * (n + 1)) : 2 * ((u : ℝ) / 2 ^ 149) ≤ n + 1 := by
  have : ((2 * u : ℕ) : ℝ) ≤ ((2 ^ 149 * (n + 1) : ℕ) : ℝ) := by exact_mod_cast h
  rw [Nat.cast_mul, Nat.cast_mul, Nat.cast_pow] at this
  push_cast at this
  rw [← mul_div_assoc, div_le_iff₀ (by positivity)]
  norm_num at this ⊢
  linarith

/-- Where a number of terms decides, the floor is that of the real number. -/
theorem seriesFloor_spec {coef : Nat → Int} {u : Nat} {r : ℝ} (he : Encloses coef (u / 2 ^ 149) r) (hi : Irrational r) {n : Nat}
    (h : seriesDecides coef u n = true) :
    (seriesFloor coef u n (-1) : ℝ) < r * 2 ^ 150 ∧ r * 2 ^ 150 < seriesFloor coef u n (-1) + 1 := by
  simp only [seriesDecides, Bool.and_eq_true, decide_eq_true_eq] at h
  obtain ⟨hu, heq⟩ := h
  have hb := abs_le.1 (he n (arg_le_of_nat hu))
  have hlo := (seriesFloor_bracket coef u n (-1)).1
  have hhi := (seriesFloor_bracket coef u n 1).2
  rw [← heq] at hhi
  push_cast at hlo hhi
  have hp : (0 : ℝ) < 2 ^ 150 := by positivity
  refine ⟨lt_of_le_of_ne (hlo.trans (mul_le_mul_of_nonneg_right (by linarith) hp.le)) fun e => ?_,
    lt_of_le_of_lt (mul_le_mul_of_nonneg_right (by linarith) hp.le) hhi⟩
  refine hi ⟨seriesFloor coef u n (-1) / 2 ^ 150, ?_⟩
  push_cast
  rw [e]
  field_simp

/-- Some number of terms decides. -/
theorem exists_seriesDecides {coef : Nat → Int} {u : Nat} {r : ℝ} (he : Encloses coef (u / 2 ^ 149) r) (hi : Irrational r) :
    ∃ n, seriesDecides coef u n = true := by
  have hp : (0 : ℝ) < 2 ^ 150 := by positivity
  have hne : ∀ z : ℤ, (z : ℝ) ≠ r * 2 ^ 150 := fun z e => hi ⟨z / 2 ^ 150, by
    push_cast
    rw [e]
    field_simp⟩
  obtain ⟨ε, hε, h1, h2⟩ : ∃ ε > 0, (⌊r * 2 ^ 150⌋ : ℝ) + ε ≤ r * 2 ^ 150 ∧ r * 2 ^ 150 + ε < ⌊r * 2 ^ 150⌋ + 1 := by
    have ha := lt_of_le_of_ne (Int.floor_le (r * 2 ^ 150)) (hne _)
    have hb := Int.lt_floor_add_one (r * 2 ^ 150)
    generalize r * 2 ^ 150 = y at *
    generalize (⌊y⌋ : ℝ) = f at *
    refine ⟨min (y - f) ((f + 1 - y) / 2), lt_min (by linarith) (by linarith), ?_, ?_⟩
    · linarith [min_le_left (y - f) ((f + 1 - y) / 2)]
    · linarith [min_le_right (y - f) ((f + 1 - y) / 2)]
  have ht : Filter.Tendsto (fun n : ℕ => 4 * 2 ^ 150 * (((u : ℝ) / 2 ^ 149) ^ n / n.factorial)) Filter.atTop
      (nhds (4 * 2 ^ 150 * 0)) := (FloorSemiring.tendsto_pow_div_factorial_atTop _).const_mul _
  rw [mul_zero] at ht
  obtain ⟨N, hN⟩ := (ht.eventually (gt_mem_nhds hε)).exists_forall_of_atTop
  refine ⟨max N (2 * u), ?_⟩
  have hu : 2 * u ≤ 2 ^ 149 * (max N (2 * u) + 1) := by
    have h3 : 2 * u ≤ max N (2 * u) := le_max_right _ _
    have h4 : 1 * (max N (2 * u) + 1) ≤ 2 ^ 149 * (max N (2 * u) + 1) := Nat.mul_le_mul_right _ (by norm_num)
    omega
  have herr := hN _ (le_max_left N (2 * u))
  generalize max N (2 * u) = n at *
  simp only [seriesDecides, Bool.and_eq_true, decide_eq_true_eq]
  refine ⟨hu, ?_⟩
  have hb := abs_le.1 (he n (arg_le_of_nat hu))
  have hx : (0 : ℝ) ≤ ((u : ℝ) / 2 ^ 149) ^ n / n.factorial := by positivity
  have hm := seriesFloor_bracket coef u n (-1)
  have hq := seriesFloor_bracket coef u n 1
  simp only [Int.cast_neg, Int.cast_one, neg_mul, one_mul] at hm hq
  generalize ∑ m ∈ range n, (coef m : ℝ) * ((u : ℝ) / 2 ^ 149) ^ m / m.factorial = T at *
  generalize ((u : ℝ) / 2 ^ 149) ^ n / n.factorial = E at *
  have key : ∀ z : ℤ, ∀ e : ℝ, (z : ℝ) ≤ e → e < z + 1 → |e - r * 2 ^ 150| ≤ 4 * 2 ^ 150 * E → z = ⌊r * 2 ^ 150⌋ :=
    fun z e hz hz' hd => by
      have hd := abs_le.1 hd
      have h5 : ((⌊r * 2 ^ 150⌋ : ℤ) : ℝ) < ((z + 1 : ℤ) : ℝ) := by push_cast; linarith
      have h6 : ((z : ℤ) : ℝ) < ((⌊r * 2 ^ 150⌋ + 1 : ℤ) : ℝ) := by push_cast; linarith
      have h5 := Int.cast_lt.1 h5
      have h6 := Int.cast_lt.1 h6
      omega
  rw [key _ _ hm.1 hm.2 ?_, key _ _ hq.1 hq.2 ?_] <;>
  · rw [← sub_mul, abs_mul, abs_of_pos hp, mul_right_comm]
    refine mul_le_mul_of_nonneg_right (abs_le.2 ⟨by linarith, by linarith⟩) hp.le

end Sys2Proof.Machine
end

