-- ==== Sys2Proof/Machine/Num.lean ====
section
/-! DEFINITION. The reference instance `NUM_CR` (40_numerics.md R129): `exp`, `sin` and `x^0.25` correctly rounded, as
functions that can be evaluated. The series are summed until the rounding is decided; that this happens is
Laws/Series.lean, and that the results are correctly rounded is Laws/Num.lean. -/

namespace Sys2Proof.Machine

theorem mag_pos_of_not_isZero {x : F32} (h : ¬ isZero x = true) : 0 < mag x := by
  rw [mag_eq]
  refine magNat_pos (Nat.pos_of_ne_zero fun h0 => h ?_)
  simpa [isZero] using h0

theorem exp_decides (s : Bool) {u : Nat} (hu : 0 < u) : ∃ n, seriesDecides (expCoef s) u n = true := by
  cases s
  · exact exists_seriesDecides (encloses_exp (by positivity)) (irrational_exp_dyadic hu 149)
  · exact exists_seriesDecides (encloses_exp_neg (by positivity)) (irrational_exp_neg_dyadic hu 149)

theorem sin_decides {u : Nat} (hu : 0 < u) : ∃ n, seriesDecides sinCoef u n = true :=
  exists_seriesDecides (encloses_sin (by positivity)) (irrational_sin_dyadic hu 149)

/-- The value nearest to the sum of a series at `u · 2^-149`. -/
def seriesRound (coef : Nat → Int) (u : Nat) (h : ∃ n, seriesDecides coef u n = true) : F32 :=
  roundHalf (seriesFloor coef u (firstDecided (seriesDecides coef u) h) (-1))

/-- `NUM_CR.exp`; from a magnitude of 128 on the result is `+inf` or `+0.0`. -/
def crExp (x : F32) : F32 :=
  if isNaN x then QNAN
  else if h : isZero x = true then C_1
  else if 0x43000000 ≤ absBits x then (if sgn x then C_0 else POS_INF)
  else seriesRound (expCoef (sgn x)) (mag x) (exp_decides (sgn x) (mag_pos_of_not_isZero h))

/-- `NUM_CR.sin`, of the magnitude, the sign put back. -/
def crSin (x : F32) : F32 :=
  if isNaN x || isInf x then QNAN
  else if h : isZero x = true then x
  else
    let p := seriesRound sinCoef (mag x) (sin_decides (mag_pos_of_not_isZero h))
    if sgn x then flipSign p else p

/-- `NUM_CR.pow025`: twice the root, in units of `2^-149`, is the fourth root of `u · 2^451`. -/
def crPow025 (x : F32) : F32 :=
  if isNaN x then QNAN
  else if isZero x then C_0
  else if sgn x then QNAN
  else if isInf x then POS_INF
  else
    let n := mag x * 2 ^ 451
    let k := root4 n 184 0
    if k ^ 4 = n then pack false (roundMag k 2) else roundHalf k

/-- `NUM_CR` (R129). -/
def numCR : NumRec := { exp := crExp, sin := crSin, pow025 := crPow025 }

end Sys2Proof.Machine
end

