-- ==== Sys2Proof/Laws/Num.lean ====
section
/-! SUPPORT. The reference instance `NUM_CR` is correctly rounded, and a correctly rounded record has every property of
40_numerics.md R126 to R128; so `NUM` has an inhabitant that can be evaluated. -/

namespace Sys2Proof.Machine

/-! ## Rounding from the floor -/

/-- Which of two points is nearer, by their midpoint. -/
theorem abs_sub_le_iff_mid (x y r : ℝ) : |x - r| ≤ |y - r| ↔ (x - y) * (x + y - 2 * r) ≤ 0 := by
  rw [← sq_le_sq, ← sub_nonpos]
  constructor <;> intro h <;> nlinarith

/-- A finite value is an integer number of half units. -/
theorem value_half_units (q : F32) : ((value q : ℚ) : ℝ) = ((2 * units q : ℤ) : ℝ) / 2 ^ 150 := by
  rw [value]
  push_cast
  rw [pow_succ (2 : ℝ) 149]
  field_simp

/-- Two reals between the same two neighbouring half units are nearest to the same value: every midpoint of two values is a
half unit. -/
theorem nearest_of_floor {r r' : ℝ} {c : ℤ} {p : F32} (h1 : (c : ℝ) < r * 2 ^ 150) (h2 : r * 2 ^ 150 < c + 1)
    (h1' : (c : ℝ) < r' * 2 ^ 150) (h2' : r' * 2 ^ 150 < c + 1) (h : Nearest r' p) : Nearest r p := by
  have hP : (0 : ℝ) < 2 ^ 150 := by positivity
  have key : ∀ {s s' : ℝ}, (c : ℝ) < s * 2 ^ 150 → s' * 2 ^ 150 < c + 1 → ∀ z : ℤ, (z : ℝ) / 2 ^ 150 ≤ s' → (z : ℝ) / 2 ^ 150 < s :=
    fun hs hs' z hz => by
      rw [div_le_iff₀ hP] at hz
      rw [div_lt_iff₀ hP]
      have : (z : ℝ) < ((c + 1 : ℤ) : ℝ) := by push_cast; linarith
      have : z ≤ c := by have := Int.cast_lt.1 this; omega
      have : (z : ℝ) ≤ c := by exact_mod_cast this
      linarith
  have key' : ∀ {s s' : ℝ}, (c : ℝ) < s' * 2 ^ 150 → s * 2 ^ 150 < c + 1 → ∀ z : ℤ, s' ≤ (z : ℝ) / 2 ^ 150 → s < (z : ℝ) / 2 ^ 150 :=
    fun hs hs' z hz => by
      rw [le_div_iff₀ hP] at hz
      rw [lt_div_iff₀ hP]
      have : ((c : ℤ) : ℝ) < z := by linarith
      have : c + 1 ≤ z := by have := Int.cast_lt.1 this; omega
      have : (c : ℝ) + 1 ≤ z := by exact_mod_cast this
      linarith
  have hT : (2 ^ 128 - 2 ^ 103 : ℝ) = (((2 ^ 128 - 2 ^ 103) * 2 ^ 150 : ℤ) : ℝ) / 2 ^ 150 := by
    norm_num
  have hT' : -(2 ^ 128 - 2 ^ 103 : ℝ) = ((-((2 ^ 128 - 2 ^ 103) * 2 ^ 150) : ℤ) : ℝ) / 2 ^ 150 := by
    rw [Int.cast_neg, neg_div, ← hT]
  obtain ⟨g1, g2, g3⟩ := h
  refine ⟨fun hr => g1 ?_, fun hr => g2 ?_, fun hr => ?_⟩
  · rw [hT] at hr ⊢
    exact (key h1' h2 _ hr).le
  · rw [hT'] at hr ⊢
    exact (key' h1 h2' _ hr).le
  · have hr' : |r'| < 2 ^ 128 - 2 ^ 103 := by
      rw [abs_lt] at hr ⊢
      rw [hT', hT] at hr ⊢
      exact ⟨key h1' h2 _ hr.1.le, key' h1 h2' _ hr.2.le⟩
    obtain ⟨hf, hn, -⟩ := g3 hr'
    have strict : ∀ q, isFinite q = true → value q ≠ value p →
        |((value p : ℚ) : ℝ) - r| < |((value q : ℚ) : ℝ) - r| := fun q hq hne => by
      have hmid := (abs_sub_le_iff_mid _ _ _).1 (hn q hq)
      rw [← not_le, abs_sub_le_iff_mid, not_le]
      have hsum : ((value p : ℚ) : ℝ) + ((value q : ℚ) : ℝ) = 2 * (((units p + units q : ℤ) : ℝ) / 2 ^ 150) := by
        rw [value_half_units, value_half_units]
        push_cast
        ring
      generalize units p + units q = z at hsum
      have hne' : ((value q : ℚ) : ℝ) ≠ ((value p : ℚ) : ℝ) := by exact_mod_cast hne
      obtain hlt | hlt := lt_or_gt_of_ne hne'
      · have h3 : (z : ℝ) / 2 ^ 150 ≤ r' := by
          by_contra hc
          nlinarith
        have h4 := key h1 h2' z h3
        nlinarith
      · have h3 : r' ≤ (z : ℝ) / 2 ^ 150 := by
          by_contra hc
          nlinarith
        have h4 := key' h1' h2 z h3
        nlinarith
    refine ⟨hf, fun q hq => ?_, fun q hq hne he => absurd he (strict q hq hne).ne⟩
    by_cases hv : value q = value p
    · rw [hv]
    · exact (strict q hq hv).le

theorem roundMag_lt (num den : Nat) : roundMag num den < 2 ^ 31 := by
  rw [roundMag_eq]
  omega

theorem sgn_roundHalf (c : ℤ) : sgn (roundHalf c) = decide (c < 0) := sgn_pack (roundMag_lt _ _)

/-- `roundHalf` is the nearest value of every real above `c` and below `c + 1` half units. -/
theorem nearest_roundHalf {r : ℝ} {c : ℤ} (h1 : (c : ℝ) < r * 2 ^ 150) (h2 : r * 2 ^ 150 < c + 1) : Nearest r (roundHalf c) := by
  have hn := nearest_pack (decide (c < 0)) (2 * c + 1).natAbs (den := 4) (by norm_num)
  have he : (if decide (c < 0) = true then (-1 : ℝ) else 1) * (((2 * c + 1).natAbs : ℝ) / (4 : ℕ) / 2 ^ 149) =
      (2 * c + 1) / 2 ^ 151 := by
    have ha : (if decide (c < 0) = true then (-1 : ℝ) else 1) * ((2 * c + 1).natAbs : ℝ) = 2 * c + 1 := by
      by_cases hc : c < 0
      · have : (((2 * c + 1).natAbs : ℤ) : ℝ) = ((-(2 * c + 1) : ℤ) : ℝ) := by
          congr 1
          omega
        push_cast at this
        simp only [hc, decide_true, if_true]
        rw [Nat.cast_natAbs]
        push_cast
        rw [this]
        ring
      · have : (((2 * c + 1).natAbs : ℤ) : ℝ) = ((2 * c + 1 : ℤ) : ℝ) := by
          congr 1
          omega
        push_cast at this
        simp only [hc, decide_false, Bool.false_eq_true, if_false, one_mul]
        rw [Nat.cast_natAbs]
        push_cast
        exact this
    rw [← mul_div_assoc, ← mul_div_assoc, ha]
    norm_num
    ring
  rw [he] at hn
  have e : (2 * (c : ℝ) + 1) / 2 ^ 151 * 2 ^ 150 = c + 1 / 2 := by
    rw [pow_succ (2 : ℝ) 150]
    field_simp
  exact nearest_of_floor h1 h2 (by rw [e]; linarith) (by rw [e]; linarith) hn

/-- Of a positive real the floor is not negative, so the sign bit is 0; of a negative one it is 1. -/
theorem sgn_roundHalf_real {r : ℝ} {c : ℤ} (h1 : (c : ℝ) < r * 2 ^ 150) (h2 : r * 2 ^ 150 < c + 1) :
    (0 < r → sgn (roundHalf c) = false) ∧ (r < 0 → sgn (roundHalf c) = true) := by
  have hP : (0 : ℝ) < 2 ^ 150 := by positivity
  rw [sgn_roundHalf]
  constructor <;> intro hr
  · have h3 : (0 : ℝ) < r * 2 ^ 150 := mul_pos hr hP
    have : ((-1 : ℤ) : ℝ) < c := by push_cast; linarith
    have := Int.cast_lt.1 this
    simpa using (by omega : ¬ c < 0)
  · have h3 : r * 2 ^ 150 < 0 := mul_neg_of_neg_of_pos hr hP
    have : (c : ℝ) < ((0 : ℤ) : ℝ) := by push_cast; linarith
    simpa using Int.cast_lt.1 this

/-- A value is nearest to itself. -/
theorem nearest_value {p : F32} (h : isFinite p = true) : Nearest ((value p : ℚ) : ℝ) p := by
  have h1 := value_lt_top h
  have h2 := neg_top_lt_value h
  refine ⟨fun hr => absurd h1 (not_lt.2 hr), fun hr => absurd h2 (not_lt.2 hr), fun _ => ⟨h, fun q _ => ?_, fun q _ hne he => ?_⟩⟩
  · rw [sub_self, abs_zero]
    exact abs_nonneg _
  · rw [sub_self, abs_zero, eq_comm, abs_eq_zero, sub_eq_zero] at he
    exact absurd (by exact_mod_cast he) hne

/-- Rounding to nearest never turns two reals round. -/
theorem nearest_mono {r r' : ℝ} {p p' : F32} (hr : r < r') (h : Nearest r p) (h' : Nearest r' p') : fle p p' = true := by
  have hn := nearest_not_nan h
  have hn' := nearest_not_nan h'
  by_cases ha : r ≤ -(2 ^ 128 - 2 ^ 103)
  · rw [h.2.1 ha]
    exact neg_inf_fle hn'
  by_cases hb : 2 ^ 128 - 2 ^ 103 ≤ r'
  · rw [h'.1 hb]
    exact fle_pos_inf hn
  push Not at ha hb
  obtain ⟨hf, hd, -⟩ := h.2.2 (abs_lt.2 ⟨ha, hr.trans hb⟩)
  obtain ⟨hf', hd', -⟩ := h'.2.2 (abs_lt.2 ⟨ha.trans hr, hb⟩)
  rw [fle_iff_value hf hf']
  by_contra hc
  have hlt : ((value p' : ℚ) : ℝ) < ((value p : ℚ) : ℝ) := by exact_mod_cast not_le.1 hc
  have h1 := (abs_sub_le_iff_mid _ _ _).1 (hd p' hf')
  have h2 := (abs_sub_le_iff_mid _ _ _).1 (hd' p hf)
  nlinarith

/-- A correctly rounded value is faithfully rounded (E4). -/
theorem faithful_of_nearest {r : ℝ} {p : F32} (h : Nearest r p) (hr : -1 ≤ r) (hs : 0 < r → sgn p = false) :
    Faithful r p := by
  refine ⟨?_, fun h0 e => by
    have := hs h0
    rw [e] at this
    exact absurd this (by decide)⟩
  have hlow : -(2 ^ 128 - 2 ^ 103) < r := lt_of_lt_of_le (by norm_num) hr
  by_cases hb : 2 ^ 128 - 2 ^ 103 ≤ r
  · refine .inr ?_
    rw [h.1 hb]
    refine ⟨.inr rfl, fun q hq => ?_⟩
    obtain ⟨hf, hq⟩ | rfl := hq
    · have := value_lt_top hf
      linarith
    · decide
  push Not at hb
  obtain ⟨hf, hd, -⟩ := h.2.2 (abs_lt.2 ⟨hlow, hb⟩)
  by_cases hc : ((value p : ℚ) : ℝ) ≤ r
  · refine .inl ⟨⟨hf, hc⟩, fun q ⟨hqf, hq⟩ => ?_⟩
    rw [fle_iff_value hqf hf]
    by_contra hlt
    have hlt : ((value p : ℚ) : ℝ) < ((value q : ℚ) : ℝ) := by exact_mod_cast not_le.1 hlt
    have := (abs_sub_le_iff_mid _ _ _).1 (hd q hqf)
    nlinarith
  · push Not at hc
    refine .inr ⟨.inl ⟨hf, hc.le⟩, fun q hq => ?_⟩
    obtain ⟨hqf, hq⟩ | rfl := hq
    · rw [fle_iff_value hf hqf]
      by_contra hlt
      have hlt : ((value q : ℚ) : ℝ) < ((value p : ℚ) : ℝ) := by exact_mod_cast not_le.1 hlt
      have := (abs_sub_le_iff_mid _ _ _).1 (hd q hqf)
      nlinarith
    · exact fle_pos_inf (isNaN_of_isFinite hf)

/-! ## The series -/

theorem value_eq_mag (x : F32) : ((value x : ℚ) : ℝ) = if sgn x then -((mag x : ℝ) / 2 ^ 149) else (mag x : ℝ) / 2 ^ 149 := by
  rw [value, units]
  split <;> push_cast <;> ring

/-- The rounded sum of an enclosing series is the value nearest to the real number, with its sign. -/
theorem seriesRound_spec {coef : Nat → Int} {u : Nat} {r : ℝ} (he : Encloses coef (u / 2 ^ 149) r) (hi : Irrational r)
    (h : ∃ n, seriesDecides coef u n = true) :
    Nearest r (seriesRound coef u h) ∧ (0 < r → sgn (seriesRound coef u h) = false) ∧
      (r < 0 → sgn (seriesRound coef u h) = true) := by
  obtain ⟨h1, h2⟩ := seriesFloor_spec he hi (firstDecided_ok _ h)
  exact ⟨nearest_roundHalf h1 h2, sgn_roundHalf_real h1 h2⟩

theorem mag_ge_of_absBits {x : F32} (h : 0x43000000 ≤ absBits x) : (128 : ℝ) ≤ (mag x : ℝ) / 2 ^ 149 := by
  rw [mag_eq, le_div_iff₀ (by positivity)]
  have h1 := magNat_strictMono.monotone h
  have h2 : magNat 0x43000000 = 128 * 2 ^ 149 := by
    have := magNat_scaled (k := 133) (c := 2 ^ 23) (by norm_num) (by norm_num)
    rw [show 133 * 2 ^ 23 + 2 ^ 23 = 0x43000000 by norm_num] at this
    rw [this]
    norm_num
  rw [h2] at h1
  have h3 : ((128 * 2 ^ 149 : ℕ) : ℝ) ≤ (magNat (absBits x) : ℝ) := by exact_mod_cast h1
  refine le_trans (le_of_eq ?_) h3
  norm_num

theorem two_pow_le_exp {x : ℝ} (h : 128 ≤ x) : (2 : ℝ) ^ 151 ≤ Real.exp x := by
  have h1 : Real.exp 128 ≤ Real.exp x := Real.exp_le_exp.2 h
  have h2 : Real.exp 128 = Real.exp 1 ^ 128 := by
    rw [← Real.exp_nat_mul]
    norm_num
  have h3 : (2.7 : ℝ) ^ 128 ≤ Real.exp 1 ^ 128 := by
    have := Real.exp_one_gt_d9
    gcongr
    linarith
  have h4 : (2 : ℝ) ^ 151 ≤ 2.7 ^ 128 := by norm_num
  linarith

/-- `NUM_CR.exp` is correctly rounded, and not negative. -/
theorem crExp_spec {x : F32} (hf : isFinite x = true) :
    Nearest (Real.exp ((value x : ℚ) : ℝ)) (crExp x) ∧ sgn (crExp x) = false := by
  unfold crExp
  rw [isNaN_of_isFinite hf, if_neg (by simp)]
  split
  · rename_i hz
    refine ⟨?_, by decide⟩
    have := nearest_value (p := C_1) (by decide)
    rw [value_C_1] at this
    rw [value_of_isZero hz]
    simpa using this
  rename_i hz
  have hx := value_eq_mag x
  have hm : 0 < mag x := mag_pos_of_not_isZero hz
  split
  · rename_i hbig
    have h128 := two_pow_le_exp (mag_ge_of_absBits hbig)
    cases hs : sgn x <;> rw [hs] at hx <;> simp only [if_true, Bool.false_eq_true, if_false] at hx ⊢ <;> rw [hx]
    · have htop : (2 ^ 128 - 2 ^ 103 : ℝ) ≤ Real.exp ((mag x : ℝ) / 2 ^ 149) := le_trans (by norm_num) h128
      have hpos : (0 : ℝ) < 2 ^ 128 - 2 ^ 103 := by norm_num
      refine ⟨⟨fun _ => rfl, fun h => ?_, fun h => ?_⟩, by decide⟩
      · linarith
      · exact absurd (abs_lt.1 h).2 (not_lt.2 htop)
    · rw [Real.exp_neg]
      generalize Real.exp ((mag x : ℝ) / 2 ^ 149) = e at h128
      have hepos : (0 : ℝ) < e := lt_of_lt_of_le (by positivity) h128
      have h0 : (0 : ℝ) < e⁻¹ * 2 ^ 150 := by positivity
      have h1 : e⁻¹ * 2 ^ 150 < 1 := by
        rw [inv_mul_lt_iff₀ hepos, mul_one]
        exact lt_of_lt_of_le (by norm_num) h128
      have := nearest_roundHalf (r := e⁻¹) (c := 0) (by rw [Int.cast_zero]; exact h0) (by rw [Int.cast_zero, zero_add]; exact h1)
      rw [show roundHalf 0 = C_0 by decide] at this
      exact ⟨this, by decide⟩
  · have hnn : (0 : ℝ) ≤ (mag x : ℝ) / 2 ^ 149 := by positivity
    have key : ∀ s : Bool, ((value x : ℚ) : ℝ) = (if s then -((mag x : ℝ) / 2 ^ 149) else (mag x : ℝ) / 2 ^ 149) →
        Nearest (Real.exp ((value x : ℚ) : ℝ)) (seriesRound (expCoef s) (mag x) (exp_decides s hm)) ∧
        sgn (seriesRound (expCoef s) (mag x) (exp_decides s hm)) = false := fun s hv => by
      rw [hv]
      cases s
      · obtain ⟨h1, h2, -⟩ := seriesRound_spec (encloses_exp hnn) (irrational_exp_dyadic hm 149) (exp_decides false hm)
        exact ⟨h1, h2 (Real.exp_pos _)⟩
      · obtain ⟨h1, h2, -⟩ := seriesRound_spec (encloses_exp_neg hnn) (irrational_exp_neg_dyadic hm 149) (exp_decides true hm)
        exact ⟨h1, h2 (Real.exp_pos _)⟩
    exact key _ hx

/-- `NUM_CR.sin` is correctly rounded, and positive where the sine is. -/
theorem crSin_spec {x : F32} (hf : isFinite x = true) :
    Nearest (Real.sin ((value x : ℚ) : ℝ)) (crSin x) ∧
      (0 < Real.sin ((value x : ℚ) : ℝ) → sgn (crSin x) = false) := by
  unfold crSin
  rw [isNaN_of_isFinite hf, isInf_of_isFinite hf, if_neg (by simp)]
  split
  · rename_i hz
    have h0 := value_of_isZero hz
    have := nearest_value hf
    rw [h0] at this ⊢
    simpa using this
  rename_i hz
  have hx := value_eq_mag x
  have hm : 0 < mag x := mag_pos_of_not_isZero hz
  have hnn : (0 : ℝ) ≤ (mag x : ℝ) / 2 ^ 149 := by positivity
  obtain ⟨h1, h2, h3⟩ := seriesRound_spec (encloses_sin hnn) (irrational_sin_dyadic hm 149) (sin_decides hm)
  cases hs : sgn x <;> rw [hs] at hx <;> simp only [if_true, Bool.false_eq_true, if_false] at hx ⊢ <;> rw [hx]
  · exact ⟨h1, h2⟩
  · rw [Real.sin_neg]
    refine ⟨nearest_neg h1, fun h => ?_⟩
    rw [sgn_flipSign, h3 (by linarith)]
    rfl

/-! ## The fourth root -/

theorem root4_spec (n b k : Nat) (h1 : k ^ 4 ≤ n) (h2 : n < (k + 2 ^ b) ^ 4) :
    root4 n b k ^ 4 ≤ n ∧ n < (root4 n b k + 1) ^ 4 := by
  induction b generalizing k with
  | zero => exact ⟨h1, h2⟩
  | succ b ih =>
    rw [root4]
    split
    · rename_i h
      refine ih _ h ?_
      rw [pow_succ] at h2
      rwa [add_assoc, ← mul_two]
    · rename_i h
      exact ih _ h1 (not_le.1 h)

/-- `NUM_CR.pow025` is correctly rounded, and not negative. -/
theorem crPow025_spec {x : F32} (hf : isFinite x = true) (h0 : fle C_0 x = true) :
    Nearest (Real.sqrt (Real.sqrt ((value x : ℚ) : ℝ))) (crPow025 x) ∧ sgn (crPow025 x) = false := by
  unfold crPow025
  rw [isNaN_of_isFinite hf, isInf_of_isFinite hf, if_neg (by simp)]
  split
  · rename_i hz
    rw [value_of_isZero hz, Rat.cast_zero, Real.sqrt_zero, Real.sqrt_zero]
    have := nearest_value (p := C_0) (by decide)
    rw [value_of_isZero (by decide)] at this
    exact ⟨by simpa using this, by decide⟩
  rename_i hz
  have hs : sgn x = false := sgn_of_zero_fle h0 fun e => hz (by rw [e]; decide)
  have hx := value_eq_mag x
  rw [hs] at hx ⊢
  simp only [Bool.false_eq_true, if_false] at hx ⊢
  rw [hx]
  have hlt : mag x < 2 ^ (24 + 253) := by
    rw [mag_eq]
    simp only [isFinite, decide_eq_true_eq] at hf
    have := magNat_strictMono hf
    rw [magNat_inf] at this
    rwa [pow_add]
  obtain ⟨k1, k2⟩ := root4_spec (mag x * 2 ^ 451) 184 0 (Nat.zero_le _) (by
    rw [zero_add, ← pow_mul]
    refine lt_of_lt_of_le ((Nat.mul_lt_mul_right (Nat.two_pow_pos 451)).2 hlt) ?_
    rw [← pow_add]
    exact Nat.pow_le_pow_right Nat.two_pos (by norm_num))
  generalize root4 (mag x * 2 ^ 451) 184 0 = k at *
  set r := Real.sqrt (Real.sqrt ((mag x : ℝ) / 2 ^ 149)) with hr
  have hr0 : 0 ≤ r := Real.sqrt_nonneg _
  have hr4 : (r * 2 ^ 150) ^ 4 = ((mag x * 2 ^ 451 : ℕ) : ℝ) := by
    have e4 : r ^ 4 = (mag x : ℝ) / 2 ^ 149 := by
      rw [hr, show 4 = 2 * 2 by norm_num, pow_mul, Real.sq_sqrt (Real.sqrt_nonneg _), Real.sq_sqrt (by positivity)]
    rw [mul_pow, e4, Nat.cast_mul, Nat.cast_pow, Nat.cast_ofNat, ← pow_mul, show (150 * 4 : ℕ) = 451 + 149 by norm_num, pow_add]
    have hD : (2 ^ 149 : ℝ) ≠ 0 := by positivity
    generalize (2 ^ 149 : ℝ) = D at *
    field_simp
  have hy0 : 0 ≤ r * 2 ^ 150 := by positivity
  have hhi : r * 2 ^ 150 < k + 1 := by
    refine lt_of_pow_lt_pow_left₀ 4 (by positivity) ?_
    rw [hr4]
    exact_mod_cast k2
  split
  · rename_i he
    have heq : r * 2 ^ 150 = k := by
      refine (pow_left_inj₀ hy0 (Nat.cast_nonneg _) (by norm_num : (4 : ℕ) ≠ 0)).1 ?_
      rw [hr4]
      exact_mod_cast he.symm
    refine ⟨?_, sgn_pack (roundMag_lt _ _)⟩
    have := nearest_pack false k (den := 2) (by norm_num)
    have e2 : (if false = true then (-1 : ℝ) else 1) * ((k : ℝ) / (2 : ℕ) / 2 ^ 149) = r := by
      rw [if_neg (by simp), one_mul, ← heq, pow_succ (2 : ℝ) 149]
      push_cast
      field_simp
    rwa [e2] at this
  · rename_i he
    have hlo : (k : ℝ) < r * 2 ^ 150 := by
      refine lt_of_pow_lt_pow_left₀ 4 hy0 ?_
      rw [hr4]
      exact_mod_cast lt_of_le_of_ne k1 he
    refine ⟨nearest_roundHalf (c := (k : ℤ)) (by exact_mod_cast hlo) (by exact_mod_cast hhi), ?_⟩
    rw [sgn_roundHalf]
    simp

/-! ## The record -/

theorem crExp_inf : crExp POS_INF = POS_INF ∧ crExp NEG_INF = C_0 := by
  constructor <;> rfl

/-- `HALF_PI` is where the sine rounds to 1. -/
theorem one_fle_crSin_half_pi : fle C_1 (crSin HALF_PI) = true := by decide +kernel

/-- The sine rises strictly between a value and a larger one up to `π/2`, so `NUM_CR.sin` does not fall; at `HALF_PI`, which
lies above `π/2`, it is 1 (S5). -/
theorem crSin_mono {x y : F32} (hx : isFinite x = true) (hy : isFinite y = true) (h0 : 0 ≤ value x) (hlt : value x < value y)
    (hyH : value y ≤ value HALF_PI) : fle (crSin x) (crSin y) = true := by
  obtain ⟨nx, -⟩ := crSin_spec hx
  obtain ⟨ny, -⟩ := crSin_spec hy
  obtain ⟨hH1, hH2⟩ := half_pi_near
  have h0' : (0 : ℝ) ≤ ((value x : ℚ) : ℝ) := by exact_mod_cast h0
  have hlt' : ((value x : ℚ) : ℝ) < ((value y : ℚ) : ℝ) := by exact_mod_cast hlt
  have hpi := Real.pi_gt_three
  obtain he | hne := eq_or_lt_of_le hyH
  · have hk := (value_eq_iff _ _).1 he
    rw [eq_of_orderKey hk (by decide)]
    refine fle_trans (nearest_le nx (by decide) ?_) one_fle_crSin_half_pi
    rw [value_C_1]
    exact_mod_cast Real.sin_le_one _
  · by_cases hle : ((value y : ℚ) : ℝ) ≤ Real.pi / 2
    · exact nearest_mono (Real.sin_lt_sin_of_lt_of_le_pi_div_two (by linarith) hle hlt') nx ny
    · exfalso
      have hk := (value_lt_iff _ _).1 hne
      rw [show orderKey HALF_PI = 0x3FC90FDB by decide] at hk
      have hp : value y ≤ value 0x3FC90FDA#32 := by
        rw [value_le_iff, show orderKey 0x3FC90FDA#32 = 0x3FC90FDA by decide]
        omega
      have hv : ((value 0x3FC90FDA#32 : ℚ) : ℝ) = 13176794 / 2 ^ 23 := by
        rw [value, show units 0x3FC90FDA#32 = 13176794 * 2 ^ 126 by decide]
        push_cast
        norm_num
      have hp' : ((value y : ℚ) : ℝ) ≤ 13176794 / 2 ^ 23 := by
        rw [← hv]
        exact_mod_cast hp
      have := Real.pi_gt_d20
      norm_num at hp' hle this
      linarith

/-- Two numbers in order are equal, both zero, or have values in strict order. -/
theorem fle_cases {x y : F32} (hx : isFinite x = true) (hy : isFinite y = true) (h : fle x y = true) :
    x = y ∨ (isZero x = true ∧ isZero y = true) ∨ value x < value y := by
  obtain hlt | heq := lt_or_eq_of_le ((fle_iff_value hx hy).1 h)
  · exact .inr (.inr hlt)
  · have hk := (value_eq_iff _ _).1 heq
    by_cases h0 : orderKey y = 0
    · exact .inr (.inl ⟨isZero_of_orderKey (hk.trans h0), isZero_of_orderKey h0⟩)
    · exact .inl (eq_of_orderKey hk h0)

theorem isFinite_of_isZero {x : F32} (h : isZero x = true) : isFinite x = true := by
  simp only [isZero, isFinite, decide_eq_true_eq] at *
  omega

theorem crExp_of_isZero {x : F32} (h : isZero x = true) : crExp x = C_1 := by
  simp [crExp, isNaN_of_isFinite (isFinite_of_isZero h), h]

theorem crSin_of_isZero {x : F32} (h : isZero x = true) : crSin x = x := by
  have hf := isFinite_of_isZero h
  simp [crSin, isNaN_of_isFinite hf, isInf_of_isFinite hf, h]

theorem crPow025_of_isZero {x : F32} (h : isZero x = true) : crPow025 x = C_0 := by
  simp [crPow025, isNaN_of_isFinite (isFinite_of_isZero h), h]

/-- (E5). -/
theorem crExp_mono {x y : F32} (h : fle x y = true) : fle (crExp x) (crExp y) = true := by
  obtain ⟨hx, hy, -⟩ := fle_iff.1 h
  have nn : ∀ {z}, isFinite z = true → isNaN (crExp z) = false := fun hz => nearest_not_nan (crExp_spec hz).1
  obtain hyf | rfl | rfl := number_cases hy
  · obtain hxf | rfl | rfl := number_cases hx
    · obtain rfl | ⟨h1, h2⟩ | hlt := fle_cases hxf hyf h
      · exact fle_refl (nn hxf)
      · rw [crExp_of_isZero h1, crExp_of_isZero h2]
        decide
      · exact nearest_mono (Real.exp_lt_exp.2 (by exact_mod_cast hlt)) (crExp_spec hxf).1 (crExp_spec hyf).1
    · rw [crExp_inf.2]
      exact le_nearest (crExp_spec hyf).1 (by decide) (by
        rw [value_of_isZero (by decide), Rat.cast_zero]
        exact (Real.exp_pos _).le)
    · rw [not_pos_inf_fle hyf] at h
      cases h
  · obtain hxf | rfl | rfl := number_cases hx
    · rw [not_fle_neg_inf hxf] at h
      cases h
    · rw [crExp_inf.2]
      decide
    · exact absurd h (by decide)
  · rw [crExp_inf.1]
    obtain hxf | rfl | rfl := number_cases hx
    · exact fle_pos_inf (nn hxf)
    · rw [crExp_inf.2]
      decide
    · rw [crExp_inf.1]
      decide

theorem crPow025_posInf : crPow025 POS_INF = POS_INF := rfl

/-- (P5). -/
theorem crPow025_mono {x y : F32} (h0 : fle C_0 x = true) (h : fle x y = true) : fle (crPow025 x) (crPow025 y) = true := by
  have h0y := fle_trans h0 h
  obtain ⟨hx, hy, -⟩ := fle_iff.1 h
  have nn : ∀ {z}, isFinite z = true → fle C_0 z = true → isNaN (crPow025 z) = false :=
    fun hz hz0 => nearest_not_nan (crPow025_spec hz hz0).1
  have fin : ∀ {z}, fle C_0 z = true → isNaN z = false → isFinite z = true ∨ z = POS_INF := fun hz hn => by
    obtain hf | rfl | rfl := number_cases hn
    · exact .inl hf
    · exact absurd hz (by decide)
    · exact .inr rfl
  obtain hyf | rfl := fin h0y hy
  · obtain hxf | rfl := fin h0 hx
    · obtain rfl | ⟨h1, h2⟩ | hlt := fle_cases hxf hyf h
      · exact fle_refl (nn hxf h0)
      · rw [crPow025_of_isZero h1, crPow025_of_isZero h2]
        decide
      · have hx0 : (0 : ℝ) ≤ ((value x : ℚ) : ℝ) := by
          have := (fle_iff_value (by decide) hxf).1 h0
          rw [value_of_isZero (by decide)] at this
          exact_mod_cast this
        exact nearest_mono (Real.sqrt_lt_sqrt (Real.sqrt_nonneg _) (Real.sqrt_lt_sqrt hx0 (by exact_mod_cast hlt)))
          (crPow025_spec hxf h0).1 (crPow025_spec hyf h0y).1
    · rw [not_pos_inf_fle hyf] at h
      cases h
  · rw [crPow025_posInf]
    obtain hxf | rfl := fin h0 hx
    · exact fle_pos_inf (nn hxf h0)
    · decide

/-- The reference instance has every property of R126 to R128. -/
theorem numCR_lawful : NumLawful numCR where
  exp_nan x h := by simp [numCR, crExp, h]
  exp_posInf := crExp_inf.1
  exp_negInf := crExp_inf.2
  exp_zero _ h := crExp_of_isZero h
  exp_faithful x h := faithful_of_nearest (crExp_spec h).1 (by linarith [Real.exp_pos ((value x : ℚ) : ℝ)]) fun _ => (crExp_spec h).2
  exp_mono _ _ h := crExp_mono h
  exp_nonneg x h := by
    obtain hf | rfl | rfl := number_cases h
    · exact (crExp_spec hf).2
    · exact (congrArg sgn crExp_inf.2).trans (by decide)
    · exact (congrArg sgn crExp_inf.1).trans (by decide)
  sin_special x h := by simp only [numCR, crSin, h, if_true]
  sin_zero _ h := crSin_of_isZero h
  sin_faithful x h _ := faithful_of_nearest (crSin_spec h).1 (Real.neg_one_le_sin _) (crSin_spec h).2
  sin_mono x y h0 h hH := by
    have fin : ∀ {z}, fle C_0 z = true → fle z HALF_PI = true → isFinite z = true := fun h1 h2 => by
      obtain hf | rfl | rfl := number_cases (fle_iff.1 h1).2.1
      · exact hf
      · exact absurd h1 (by decide)
      · exact absurd h2 (by decide)
    have hxf := fin h0 (fle_trans h hH)
    have hyf := fin (fle_trans h0 h) hH
    obtain rfl | ⟨h1, h2⟩ | hlt := fle_cases hxf hyf h
    · exact fle_refl (nearest_not_nan (crSin_spec hxf).1)
    · show fle (crSin x) (crSin y) = true
      rw [crSin_of_isZero h1, crSin_of_isZero h2]
      exact h
    · have hx0 := (fle_iff_value (by decide) hxf).1 h0
      rw [value_of_isZero (by decide)] at hx0
      exact crSin_mono hxf hyf hx0 hlt ((fle_iff_value hyf (by decide)).1 hH)
  pow025_nan x h := by simp [numCR, crPow025, h]
  pow025_zero _ h := crPow025_of_isZero h
  pow025_posInf := crPow025_posInf
  pow025_neg x h := by
    obtain ⟨hn, -, hk⟩ := flt_iff.1 h
    rw [show orderKey C_0 = 0 by decide] at hk
    have hz : isZero x = false := by
      rw [← Bool.not_eq_true]
      intro hz
      rw [orderKey_of_isZero hz] at hk
      omega
    have hs : sgn x = true := by
      rw [orderKey] at hk
      cases hs : sgn x
      · rw [hs] at hk
        simp only [Bool.false_eq_true, if_false] at hk
        omega
      · rfl
    simp [numCR, crPow025, hn, hz, hs]
  pow025_faithful x h hlt := faithful_of_nearest (crPow025_spec h (fle_of_flt hlt)).1
    (by linarith [Real.sqrt_nonneg (Real.sqrt ((value x : ℚ) : ℝ))]) fun _ => (crPow025_spec h (fle_of_flt hlt)).2
  pow025_mono _ _ h0 h := crPow025_mono h0 h

/-- The reference instance is correctly rounded (R129). -/
theorem numCR_correctlyRounded : NumCorrectlyRounded numCR where
  lawful := numCR_lawful
  exp_nearest _ h := (crExp_spec h).1
  sin_nearest _ h := (crSin_spec h).1
  pow025_nearest _ h h0 := (crPow025_spec h h0).1

end Sys2Proof.Machine
end

