-- ==== Sys2Proof/Config.lean ====
section
/-! DEFINITION. The implementation parameters of 00_scope.md R8: the types of the records, and the opaque constants that
stand for what the spec leaves open (log 5, 6, 7, 10). Machine/Params.lean puts them together. -/

namespace Sys2Proof

/-- The parameter record `OSC_SHAPE`: eight total waveform functions (45_oscillator.md R240). -/
structure OscShape where
  sine : F32 → F32
  tri : F32 → F32
  saw : F32 → F32
  ramp : F32 → F32
  square : F32 → F32
  pbSaw : F32 → F32 → F32
  pbSquare : F32 → F32 → F32
  pbTriSquare : F32 → F32 → F32

/-- "The model takes the following parameters as arguments" (R8). `len b` is `N_DL`, `N_AP` or `N_SP` with its
constraint `1 ≤ N < 2^32`; `bufInit` is `BUF_INIT`; `num` is `NUM` with its constraint, the named properties of R126 to
R128. -/
structure Params where
  len : Buf → Nat
  len_pos : ∀ b, 1 ≤ len b
  len_lt : ∀ b, len b < 2 ^ 32
  bufInit : Buf → Nat → F32
  num : NumRec
  num_lawful : Machine.NumLawful num
  shape : OscShape

/-- FREE: behind `N_DL`, `N_AP`, `N_SP` (R8, D14; log 5). -/
opaque Config.rawLen : Buf → Nat

/-- FREE: `BUF_INIT`, "a launch parameter under no law" (R66; log 6). -/
opaque Config.bufInit : Buf → Nat → F32

/-- FREE: `NUM`, any record with the properties of R126 to R128 (R8; log 7). The instance argument says that there is one
(Machine/Params.lean gives the reference instance `NUM_CR`); it does not say which record this is. -/
opaque Config.num [Inhabited Machine.LawfulNum] : Machine.LawfulNum

/-- FREE: the `OSC_SHAPE` a platform puts in the place of the default instance, if it replaces it: "a replaceable
default" (R240, D22; log 10). -/
opaque Config.shapeOverride : Option OscShape

/-- A buffer length from any number: every `N` with `1 ≤ N < 2^32` is reached (R8; log 5). -/
def Config.len (b : Buf) : Nat := 1 + Config.rawLen b % (2 ^ 32 - 1)

theorem Config.len_pos (b : Buf) : 1 ≤ Config.len b := Nat.le_add_right 1 _

theorem Config.len_lt (b : Buf) : Config.len b < 2 ^ 32 := by
  have := Nat.mod_lt (Config.rawLen b) (show 0 < 2 ^ 32 - 1 by norm_num)
  unfold Config.len
  omega

end Sys2Proof
end

