-- ==== Sys2Proof/Machine/Wave.lean ====
section
/-! DEFINITION. The default instance of the parameter `OSC_SHAPE` (45_oscillator.md R241 to R253), over any `NUM`. The spec
supplies these shapes from general knowledge as a replaceable default (R240, D22; log 10). -/

namespace Sys2Proof.Machine

/-- The normalised phase `t(phase)`, and the same formula for the increment, `dt(inc)` (R241). -/
def cycles (phase : F32) : F32 := fdiv phase TWO_PI

/-- `u mod 1` for `u` in `[0, 2)` (R242). -/
def wrap1 (u : F32) : F32 := if fle C_1 u then fsub u C_1 else u

/-- The correction `poly_blep(dt, t)` (R243). -/
def polyBlep (dt t : F32) : F32 :=
  if flt t dt then
    let q := fdiv t dt
    fsub (fsub (fadd q q) (fmul q q)) C_1
  else if flt (fsub C_1 dt) t then
    let q := fdiv (fsub t C_1) dt
    fadd (fadd (fadd (fmul q q) q) q) C_1
  else C_0

/-- The naive square `sq(phase)` (R244). -/
def naiveSquare (phase : F32) : F32 := if flt phase PI then C_1 else C_NEG1

/-- The corrected square `blsq(phase, inc)` (R245). -/
def blSquare (phase inc : F32) : F32 :=
  let t := cycles phase
  let dt := cycles inc
  fsub (fadd (naiveSquare phase) (polyBlep dt t)) (polyBlep dt (wrap1 (fadd t C_0_5)))

/-- `tri` (R247). -/
def defaultTri (phase : F32) : F32 :=
  let u := fadd C_NEG1 (fmul C_2 (cycles phase))
  fmul C_2 (fsub (fabs u) C_0_5)

/-- `ramp` (R249). -/
def defaultRamp (phase : F32) : F32 := fsub (fmul C_2 (cycles phase)) C_1

/-- `saw` (R248). -/
def defaultSaw (phase : F32) : F32 := fneg (fsub (fmul C_2 (cycles phase)) C_1)

/-- `pb_saw` (R252). -/
def defaultPbSaw (phase inc : F32) : F32 :=
  let t := cycles phase
  fneg (fsub (fsub (fmul C_2 t) C_1) (polyBlep (cycles inc) t))

/-- The default instance (R246 to R253). -/
def defaultShape (n : NumRec) : OscShape :=
  { sine := n.sin
    tri := defaultTri
    saw := defaultSaw
    ramp := defaultRamp
    square := naiveSquare
    pbSaw := defaultPbSaw
    pbSquare := blSquare
    pbTriSquare := blSquare }

end Sys2Proof.Machine
end

