-- ==== Sys2Proof/Machine/Params.lean ====
section
/-! DEFINITION. The parameters the machine runs with (00_scope.md R8): every meaning is written for any `Params`, and `exec`
runs it with `params`, whose open parts are the opaque constants of Config.lean (log 5, 6, 7, 10). -/

namespace Sys2Proof.Machine

/-- `NUM` (R8, R125): any record with the properties of R126 to R128, free (log 7). `NUM_CR` (R129) stands here only to say
that there is such a record. -/
def theLawfulNum : LawfulNum := @Config.num ⟨⟨numCR, numCR_lawful⟩⟩

/-- The functions of the machine's `NUM`. -/
def theNum : NumRec := theLawfulNum.num

/-- `OSC_SHAPE` (R240): the default instance, unless the platform replaces it (log 10). -/
def theShape : OscShape := Config.shapeOverride.getD (defaultShape theNum)

/-- The parameters of R8. -/
def params : Params :=
  { len := Config.len
    len_pos := Config.len_pos
    len_lt := Config.len_lt
    bufInit := Config.bufInit
    num := theNum
    num_lawful := theLawfulNum.lawful
    shape := theShape }

end Sys2Proof.Machine
end

