-- ==== Sys2Proof/Machine/Ops.lean ====
section
/-! DEFINITION. The named operations: memory access (20_memory.md R62, R63), the delay-line primitives (41_delay_line.md R150
to R154), completing a command (30_encoding.md R84, R90), refusing one (60_exceptions.md R271: this block's only
exception, from which there is no return, R279, R280), and reset (70_reset_and_hazards.md R290). -/

namespace Sys2Proof.Machine

/-! ## Memory -/

/-- The sample listed for an address, if one is. -/
def Memory.lookup : Memory → Nat → Option F32
  | [], _ => none
  | (b, w) :: m, a => if a = b then some w else Memory.lookup m a

/-- The list with an address taken out. -/
def Memory.erase : Memory → Nat → Memory
  | [], _ => []
  | (b, w) :: m, a => if a = b then Memory.erase m a else (b, w) :: Memory.erase m a

/-- The list with an address set, in rising order. -/
def Memory.insert : Memory → Nat → F32 → Memory
  | [], a, v => [(a, v)]
  | (b, w) :: m, a, v =>
    if a < b then (a, v) :: (b, w) :: m
    else if a = b then (a, v) :: m
    else (b, w) :: Memory.insert m a v

/-- The sample at an address of memory `b`: the latest written, or `BUF_INIT` (R62). -/
def Memory.sample (P : Params) (b : Buf) (m : Memory) (a : Nat) : F32 :=
  (Memory.lookup m a).getD (P.bufInit b a)

/-- The memory with `v` at `a`, bit-exactly (R63), in canonical form. -/
def Memory.store (P : Params) (b : Buf) (m : Memory) (a : Nat) (v : F32) : Memory :=
  if v = P.bufInit b a then Memory.erase m a else Memory.insert m a v

/-- Strictly rising from a lower bound. -/
def Memory.risingFrom : Nat → Memory → Bool
  | _, [] => true
  | lo, (a, _) :: m => decide (lo ≤ a) && Memory.risingFrom (a + 1) m

/-- The canonical form: addresses strictly rising and below `N`, no sample equal to what an unlisted address reads as. -/
def Memory.wf (P : Params) (b : Buf) (m : Memory) : Bool :=
  Memory.risingFrom 0 m && m.all fun c => decide (c.1 < P.len b) && decide (c.2 ≠ P.bufInit b c.1)

/-- `MemRead(M, a)`, defined for `0 ≤ a < N_M` (R62). -/
def memRead (P : Params) (b : Buf) (m : Memory) (a : Nat) : Except Fault F32 :=
  if a < P.len b then .ok (Memory.sample P b m a) else .error (.noSample b a)

/-- `MemWrite(M, a, v)`, defined for `0 ≤ a < N_M` (R63). -/
def memWrite (P : Params) (b : Buf) (m : Memory) (a : Nat) (v : F32) : Except Fault Memory :=
  if a < P.len b then .ok (Memory.store P b m a v) else .error (.noSample b a)

/-! ## The delay-line primitives -/

/-- `dl_len(d) = d.N` (R151). -/
def lineLen (P : Params) (b : Buf) : Nat := P.len b

/-- `dl_read(d) = MemRead(d.mem, d.index)` (R152). -/
def lineRead (P : Params) (b : Buf) (d : DelayLine) : Except Fault F32 :=
  memRead P b d.mem d.index.toNat

/-- `dl_write(d, x)`: store at the old cursor, then advance (R153). -/
def lineWrite (P : Params) (b : Buf) (d : DelayLine) (x : F32) : Except Fault DelayLine :=
  match memWrite P b d.mem d.index.toNat x with
  | .error f => .error f
  | .ok m => .ok { index := nextIndex (P.len b) d.index, mem := m }

/-- `dl_get(d, i) = MemRead(d.mem, i mod d.N)` (R154). -/
def lineGet (P : Params) (b : Buf) (d : DelayLine) (i : Nat) : Except Fault F32 :=
  memRead P b d.mem (i % P.len b)

/-- A new instance's delay line: the cursor at 0, the memory as it was (R155, R211, R215). -/
def lineRestart (d : DelayLine) : DelayLine := { d with index := 0#32 }

/-- One sample of the all-pass recurrence shared by `AP` and `SP`: read, compute `out = k·z + x`, write `out`, answer
`z − k·out` (R213, R218). -/
def allpassTick (P : Params) (b : Buf) (d : DelayLine) (k x : F32) : Except Fault (DelayLine × F32) :=
  match lineRead P b d with
  | .error f => .error f
  | .ok z =>
    let out := fadd (fmul k z) x
    match lineWrite P b d out with
    | .error f => .error f
    | .ok d' => .ok (d', fsub z (fmul k out))

/-! ## Completing and refusing a command -/

/-- The code of a status in `rsp[39:32]` (R84, R270). -/
def Status.code : Status → BitVec 8
  | .ok => 0x00#8
  | .illegal => 0x01#8
  | .notLive => 0x02#8
  | .unset => 0x03#8

/-- The response word `status ++ data` (R84). -/
def rspWord (st : Status) (data : BitVec 32) : RspWord := st.code ++ data

/-- The command completes with `OK` and this data: its response is presented (R13 `respond`, R81). -/
def State.respond (s : State) (data : BitVec 32) : State :=
  { s with port := { s.port with rsp := some (rspWord .ok data) } }

/-- What a refusal does: the response is `status ++ 0x00000000` and nothing else changes (R271). -/
def State.refuse (s : State) (st : Status) : State :=
  { s with port := { s.port with rsp := some (rspWord st 0#32) } }

/-- `requires c else refuse S` (R13). -/
def requires (c : Bool) (st : Status) (s : State) (k : Result) : Result :=
  if c then k else .next (s.refuse st)

/-- Run on with a value of the delay line, or stop where its sample does not exist. -/
def withSample {α : Type} (r : Except Fault α) (k : α → Result) : Result :=
  match r with
  | .error f => .fault f
  | .ok a => k a

/-! ## Reset -/

/-- The registers and flags at their reset values, the memories not written, no response presented; the host's remaining
events stay (R290; log 3). -/
def State.afterReset (s : State) : State :=
  { port := { s.port with rsp := none }
    dl := Dl.afterReset s.dl.line.mem
    lp := Lp.afterReset
    svf := Svf.afterReset
    ap := Ap.afterReset s.ap.line.mem
    sp := Sp.afterReset s.sp.line.mem
    osc := Osc.afterReset }

end Sys2Proof.Machine
end

