-- ==== Sys2Proof/Machine/AllPass.lean ====
section
/-! DEFINITION. Families AP and SP, the all-pass diffuser sections (44_allpass.md R211 to R218). -/

namespace Sys2Proof.Machine

/-! ## Unit AP -/

/-- `AP.NEW fs` (R211); `APMEM` is not cleared. -/
def apNew (fs : F32) (s : State) : Result :=
  .next ({ s with ap := { live := true, fs := fs, k1 := none, line := lineRestart s.ap.line } }.respond 0#32)

/-- The coefficient of `AP.SET_FREQ f`: `w = (π·f)/fs`, computed once (R212). -/
def apCoefficient (f fs : F32) : F32 :=
  let w := fdiv (fmul PI f) fs
  fdiv (fsub C_1 w) (fadd C_1 w)

/-- `AP.SET_FREQ f` (R212). -/
def apSetFreq (f : F32) (s : State) : Result :=
  requires s.ap.live .notLive s <|
    .next ({ s with ap := { s.ap with k1 := some (apCoefficient f s.ap.fs) } }.respond 0#32)

/-- `AP.PROCESS x` (R213). -/
def apProcess (P : Params) (x : F32) (s : State) : Result :=
  requires s.ap.live .notLive s <|
    match s.ap.k1 with
    | none => .next (s.refuse .unset)
    | some k1 =>
      withSample (allpassTick P .ap s.ap.line k1 x) fun r =>
        .next ({ s with ap := { s.ap with line := r.1 } }.respond r.2)

/-! ## Unit SP -/

/-- `max_loop_time`, fixed by `SP.NEW fs` (R215). -/
def maxLoopTimeOf (P : Params) (fs : F32) : F32 :=
  fsub (fdiv (u2f (lineLen P .sp)) fs) C_0_01

/-- `SP.NEW fs` (R215); `SPMEM` is not cleared. -/
def spNew (P : Params) (fs : F32) (s : State) : Result :=
  .next ({ s with
    sp := { live := true, fs := fs, maxLoopTime := maxLoopTimeOf P fs
            loopTime := none, reverbTime := none, coef := none
            line := lineRestart s.sp.line } }.respond 0#32)

/-- `SP.SET_FREQ t` (R216); `coef` is not recomputed, and there is no `rollover` (R220). -/
def spSetFreq (t : F32) (s : State) : Result :=
  requires s.sp.live .notLive s <|
    .next ({ s with sp := { s.sp with loopTime := some (fclamp t C_1EM4 s.sp.maxLoopTime) } }.respond 0#32)

/-- `coef` of `SP.SET_RT rt`, the exponent `(−6.9078·loop_time)/rt` from left to right (R217). -/
def spCoefficient (P : Params) (loopTime rt : F32) : F32 :=
  P.num.exp (fdiv (fmul C_NEG_6_9078 loopTime) rt)

/-- `SP.SET_RT rt` (R217): `coef` is unset while the loop time is. -/
def spSetRt (P : Params) (rt : F32) (s : State) : Result :=
  requires s.sp.live .notLive s <|
    .next ({ s with
      sp := { s.sp with
        reverbTime := some rt
        coef := s.sp.loopTime.map fun lt => spCoefficient P lt rt } }.respond 0#32)

/-- `SP.PROCESS x` (R218). -/
def spProcess (P : Params) (x : F32) (s : State) : Result :=
  requires s.sp.live .notLive s <|
    match s.sp.coef with
    | none => .next (s.refuse .unset)
    | some coef =>
      withSample (allpassTick P .sp s.sp.line coef x) fun r =>
        .next ({ s with sp := { s.sp with line := r.1 } }.respond r.2)

/-- `AP.NEW`. -/
def execApNew (fs : F32) (s : State) : Result := apNew fs s
/-- `AP.PROCESS`. -/
def execApProcess (x : F32) (s : State) : Result := apProcess params x s
/-- `AP.SET_FREQ`. -/
def execApSetFreq (f : F32) (s : State) : Result := apSetFreq f s
/-- `SP.NEW`. -/
def execSpNew (fs : F32) (s : State) : Result := spNew params fs s
/-- `SP.PROCESS`. -/
def execSpProcess (x : F32) (s : State) : Result := spProcess params x s
/-- `SP.SET_FREQ`. -/
def execSpSetFreq (t : F32) (s : State) : Result := spSetFreq t s
/-- `SP.SET_RT`. -/
def execSpSetRt (rt : F32) (s : State) : Result := spSetRt params rt s

end Sys2Proof.Machine
end

