-- ==== Sys2Proof/Machine/Operands.lean ====
section
/-! DEFINITION. The operand forms (30_encoding.md R83). A format `F` operand is the 32 bits as they stand, an `F32`; a format
`U` operand is the 32 bits as an unsigned integer; a format `W` operand is a wave code; a format `Z` operand must be
zero. -/

namespace Sys2Proof.Machine

/-- Format `U`: the operand as a natural number in `[0, 2^32)` (R83). -/
def operandNat (i : U32) : Nat := i.toNat

/-- The 3-bit code of a wave type (R236). -/
def waveCode : Wave → BitVec 3
  | .sine => 0#3
  | .tri => 1#3
  | .saw => 2#3
  | .ramp => 3#3
  | .square => 4#3
  | .pbTri => 5#3
  | .pbSaw => 6#3
  | .pbSquare => 7#3

/-- Format `W`: the wave type of a code in `[0, 7]`; a larger operand names none (R83, R236). -/
def waveOfOperand (w : U32) : Option Wave :=
  match w.toNat with
  | 0 => some .sine
  | 1 => some .tri
  | 2 => some .saw
  | 3 => some .ramp
  | 4 => some .square
  | 5 => some .pbTri
  | 6 => some .pbSaw
  | 7 => some .pbSquare
  | _ => none

end Sys2Proof.Machine
end

