-- ==== Sys2Proof/Machine/DelayLine.lean ====
section
/-! DEFINITION. Family DL, the circular delay buffer (41_delay_line.md R155 to R159). Each `exec…` is the meaning of its
command with the machine's parameters; the definition it calls is the command's rule for any parameters. -/

namespace Sys2Proof.Machine

/-- `DL.NEW` (R155): the cursor to 0, the unit live; the memory is kept. -/
def dlNew (s : State) : Result :=
  .next ({ s with dl := { live := true, line := lineRestart s.dl.line } }.respond 0#32)

/-- `DL.WRITE x` (R156). -/
def dlWrite (P : Params) (x : F32) (s : State) : Result :=
  requires s.dl.live .notLive s <|
    withSample (lineWrite P .dl s.dl.line x) fun d =>
      .next ({ s with dl := { s.dl with line := d } }.respond 0#32)

/-- `DL.READ` (R157). -/
def dlRead (P : Params) (s : State) : Result :=
  requires s.dl.live .notLive s <|
    withSample (lineRead P .dl s.dl.line) fun v => .next (s.respond v)

/-- `DL.GET i` (R158). -/
def dlGet (P : Params) (i : U32) (s : State) : Result :=
  requires s.dl.live .notLive s <|
    withSample (lineGet P .dl s.dl.line (operandNat i)) fun v => .next (s.respond v)

/-- `DL.LEN` (R159): `N_DL` as a `U32`. -/
def dlLen (P : Params) (s : State) : Result :=
  requires s.dl.live .notLive s <|
    .next (s.respond (BitVec.ofNat 32 (lineLen P .dl)))

/-- `DL.NEW`. -/
def execDlNew (s : State) : Result := dlNew s
/-- `DL.WRITE`. -/
def execDlWrite (x : F32) (s : State) : Result := dlWrite params x s
/-- `DL.READ`. -/
def execDlRead (s : State) : Result := dlRead params s
/-- `DL.GET`. -/
def execDlGet (i : U32) (s : State) : Result := dlGet params i s
/-- `DL.LEN`. -/
def execDlLen (s : State) : Result := dlLen params s

end Sys2Proof.Machine
end

