-- ==== Sys2Proof/Machine/OnePole.lean ====
section
/-! DEFINITION. Family LP, the one-pole low-pass filter (42_one_pole.md R171 to R173). -/

namespace Sys2Proof.Machine

/-- `LP.NEW fs` (R171). -/
def lpNew (fs : F32) (s : State) : Result :=
  .next ({ s with lp := { live := true, fs := fs, z1 := C_0, a0 := none, b1 := none } }.respond 0#32)

/-- The coefficient `b1` of `LP.SET_FREQ f`: `f` normalised by the sample rate first (R172). -/
def lpCoefficient (P : Params) (f fs : F32) : F32 :=
  P.num.exp (fmul NEG_TWO_PI (fdiv f fs))

/-- `LP.SET_FREQ f` (R172). -/
def lpSetFreq (P : Params) (f : F32) (s : State) : Result :=
  requires s.lp.live .notLive s <|
    let b := lpCoefficient P f s.lp.fs
    .next ({ s with lp := { s.lp with b1 := some b, a0 := some (fsub C_1 b) } }.respond 0#32)

/-- The recurrence `z1 = x·a0 + z1·b1`, the products rounded separately (R173). -/
def lpOutput (x a0 z1 b1 : F32) : F32 := fadd (fmul x a0) (fmul z1 b1)

/-- `LP.PROCESS x` (R173). -/
def lpProcess (x : F32) (s : State) : Result :=
  requires s.lp.live .notLive s <|
    match s.lp.a0, s.lp.b1 with
    | some a0, some b1 =>
      let y := lpOutput x a0 s.lp.z1 b1
      .next ({ s with lp := { s.lp with z1 := y } }.respond y)
    | none, _ => .next (s.refuse .unset)
    | some _, none => .next (s.refuse .unset)

/-- `LP.NEW`. -/
def execLpNew (fs : F32) (s : State) : Result := lpNew fs s
/-- `LP.PROCESS`. -/
def execLpProcess (x : F32) (s : State) : Result := lpProcess x s
/-- `LP.SET_FREQ`. -/
def execLpSetFreq (f : F32) (s : State) : Result := lpSetFreq params f s

end Sys2Proof.Machine
end

