-- ==== Sys2Proof/Machine/Oscillator.lean ====
section
/-! DEFINITION. Family OSC, the oscillator (45_oscillator.md R231 to R240). The eight waveform functions are the parameter
`OSC_SHAPE`; its default instance is Machine/Wave.lean. -/

namespace Sys2Proof.Machine

/-- `OSC.NEW fs` (R231). -/
def oscNew (fs : F32) (s : State) : Result :=
  .next ({ s with
    osc := { live := true, fs := fs, phase := C_0, last := C_0
             phaseIncrement := none, amplitude := none, wave := none } }.respond 0#32)

/-- The increment of `OSC.SET_FREQ f`, `(2π·f)/fs` (R232). -/
def incrementOf (f fs : F32) : F32 := fdiv (fmul TWO_PI f) fs

/-- `OSC.SET_FREQ f` (R232). -/
def oscSetFreq (f : F32) (s : State) : Result :=
  requires s.osc.live .notLive s <|
    .next ({ s with osc := { s.osc with phaseIncrement := some (incrementOf f s.osc.fs) } }.respond 0#32)

/-- `OSC.SET_AMP a` (R233): stored bit-exactly. -/
def oscSetAmp (a : F32) (s : State) : Result :=
  requires s.osc.live .notLive s <|
    .next ({ s with osc := { s.osc with amplitude := some a } }.respond 0#32)

/-- The phase of `OSC.SET_PHASE p` (R234). -/
def phaseOf (p : F32) : F32 := fmul (fclamp p C_0 C_1) TWO_PI

/-- `OSC.SET_PHASE p` (R234). -/
def oscSetPhase (p : F32) (s : State) : Result :=
  requires s.osc.live .notLive s <|
    .next ({ s with osc := { s.osc with phase := phaseOf p } }.respond 0#32)

/-- `OSC.SET_WAVE w` (R235). An operand above 7 is `ILLEGAL` before `live` is looked at (R276); the decoder gives none
(log 12). -/
def oscSetWave (w : U32) (s : State) : Result :=
  match waveOfOperand w with
  | none => .next (s.refuse .illegal)
  | some wave =>
    requires s.osc.live .notLive s <|
      .next ({ s with osc := { s.osc with wave := some wave } }.respond 0#32)

/-- The leaky integrator of the band-limited triangle, `inc·q + (1 − inc)·last` (R240). -/
def leakyIntegrator (inc q last : F32) : F32 :=
  fadd (fmul inc q) (fmul (fsub C_1 inc) last)

/-- `shape(w, phase, inc, last)`: the shape value and the new `last` (R240). -/
def shape (o : OscShape) (w : Wave) (phase inc last : F32) : F32 × F32 :=
  match w with
  | .sine => (o.sine phase, last)
  | .tri => (o.tri phase, last)
  | .saw => (o.saw phase, last)
  | .ramp => (o.ramp phase, last)
  | .square => (o.square phase, last)
  | .pbTri =>
    let v := leakyIntegrator inc (o.pbTriSquare phase inc) last
    (v, v)
  | .pbSaw => (o.pbSaw phase inc, last)
  | .pbSquare => (o.pbSquare phase inc, last)

/-- The phase advance: one addition, one strict comparison, at most one subtraction (R238). -/
def advancePhase (phase inc : F32) : F32 :=
  let p := fadd phase inc
  if flt TWO_PI p then fsub p TWO_PI else p

/-- `OSC.PROCESS` (R237): the sample from the phase before the advance, times the amplitude, last (R239). -/
def oscProcess (P : Params) (s : State) : Result :=
  requires s.osc.live .notLive s <|
    match s.osc.phaseIncrement, s.osc.amplitude, s.osc.wave with
    | some inc, some amp, some w =>
      let r := shape P.shape w s.osc.phase inc s.osc.last
      .next ({ s with
        osc := { s.osc with last := r.2, phase := advancePhase s.osc.phase inc } }.respond (fmul r.1 amp))
    | none, _, _ => .next (s.refuse .unset)
    | some _, none, _ => .next (s.refuse .unset)
    | some _, some _, none => .next (s.refuse .unset)

/-- `OSC.NEW`. -/
def execOscNew (fs : F32) (s : State) : Result := oscNew fs s
/-- `OSC.PROCESS`. -/
def execOscProcess (s : State) : Result := oscProcess params s
/-- `OSC.SET_FREQ`. -/
def execOscSetFreq (f : F32) (s : State) : Result := oscSetFreq f s
/-- `OSC.SET_AMP`. -/
def execOscSetAmp (a : F32) (s : State) : Result := oscSetAmp a s
/-- `OSC.SET_PHASE`. -/
def execOscSetPhase (p : F32) (s : State) : Result := oscSetPhase p s
/-- `OSC.SET_WAVE`. -/
def execOscSetWave (w : U32) (s : State) : Result := oscSetWave w s

end Sys2Proof.Machine
end

