-- ==== Sys2Proof/Machine/StateVariable.lean ====
section
/-! DEFINITION. Family SVF, the state-variable filter (43_svf.md R181 to R193). -/

namespace Sys2Proof.Machine

/-! ## Construction -/

/-- The registers after `SVF.NEW fs` (R181). -/
def svfFresh (fs : F32) : Svf :=
  { live := true, fs := fs
    lowPass := C_0, highPass := C_0, bandPass := C_0, notch := C_0, previous := C_0
    freq := none, resonance := none, preDrive := none, drive := none, damp := none
    outLowPass := C_0, outHighPass := C_0, outBandPass := C_0, outNotch := C_0, outPeak := C_0 }

/-- `SVF.NEW fs` (R181). -/
def svfNew (fs : F32) (s : State) : Result :=
  .next ({ s with svf := svfFresh fs }.respond 0#32)

/-! ## The derived parameters -/

/-- `damp` from a set `freq` and `resonance` (R182); both bounds are kept (R194). -/
def dampOf (P : Params) (freq resonance : F32) : F32 :=
  let a := fmul C_2 (fsub C_1 (P.num.pow025 resonance))
  let q := fsub (fdiv C_2 freq) (fmul freq C_0_5)
  let b := fmin C_2 q
  fmin a b

/-- `svf_damp()`: recompute `damp`, unset if `freq` or `resonance` is (R182, R25). -/
def svfDamp (P : Params) (u : Svf) : Svf :=
  { u with damp := lift2 (dampOf P) u.freq u.resonance }

/-- `svf_drive()`: recompute `drive`, unset if `pre_drive` or `resonance` is (R183, R25). -/
def svfDrive (u : Svf) : Svf :=
  { u with drive := lift2 fmul u.preDrive u.resonance }

/-! ## The setters -/

/-- The pre-warped coefficient of `SVF.SET_FREQ f` (R184). -/
def svfFreqOf (P : Params) (f fs : F32) : F32 :=
  let fc := fclamp f C_0 (fdiv fs C_3)
  let x := fdiv fc (fmul C_2 fs)
  let m := fmin C_0_25 x
  fmul C_2 (P.num.sin (fmul PI m))

/-- `SVF.SET_FREQ f` (R184). -/
def svfSetFreq (P : Params) (f : F32) (s : State) : Result :=
  requires s.svf.live .notLive s <|
    .next ({ s with svf := svfDamp P { s.svf with freq := some (svfFreqOf P f s.svf.fs) } }.respond 0#32)

/-- `SVF.SET_RES r` (R185). -/
def svfSetRes (P : Params) (r : F32) (s : State) : Result :=
  requires s.svf.live .notLive s <|
    .next ({ s with
      svf := svfDrive (svfDamp P { s.svf with resonance := some (fclamp r C_0 C_1) }) }.respond 0#32)

/-- The stored pre-drive of `SVF.SET_DRIVE d` (R186). -/
def preDriveOf (d : F32) : F32 := fclamp (fmul d C_0_1) C_0 C_0_1

/-- `SVF.SET_DRIVE d` (R186). -/
def svfSetDrive (d : F32) (s : State) : Result :=
  requires s.svf.live .notLive s <|
    .next ({ s with svf := svfDrive { s.svf with preDrive := some (preDriveOf d) } }.respond 0#32)

/-! ## Processing -/

/-- `svf_pass(input)`: the four statements in the order written, each seeing what the earlier ones wrote (R187). -/
def svfPass (freq damp drive input : F32) (u : Svf) : Svf :=
  let notch := fsub input (fmul damp u.bandPass)
  let lowPass := fadd u.lowPass (fmul freq u.bandPass)
  let highPass := fsub notch lowPass
  let b := u.bandPass
  let b3 := fmul (fmul b b) b
  let t := fsub (fmul freq highPass) (fmul drive b3)
  { u with notch := notch, lowPass := lowPass, highPass := highPass, bandPass := fadd b t }

/-- The publishing step of `SVF.PROCESS` (R188). -/
def svfPublish (u : Svf) : Svf :=
  { u with
    outLowPass := u.lowPass
    outHighPass := u.highPass
    outBandPass := u.bandPass
    outNotch := u.notch
    outPeak := fsub u.lowPass u.highPass }

/-- The registers after one `SVF.PROCESS x` with these coefficients: the pass on the previous raw input, the pass on `x`,
publishing, `previous` (R188). -/
def svfTick (freq damp drive x : F32) (u : Svf) : Svf :=
  { svfPublish (svfPass freq damp drive x (svfPass freq damp drive u.previous u)) with previous := x }

/-- `SVF.PROCESS x` (R188); the response carries no sample. -/
def svfProcess (x : F32) (s : State) : Result :=
  requires s.svf.live .notLive s <|
    match s.svf.freq, s.svf.damp, s.svf.drive with
    | some freq, some damp, some drive =>
      .next ({ s with svf := svfTick freq damp drive x s.svf }.respond 0#32)
    | none, _, _ => .next (s.refuse .unset)
    | some _, none, _ => .next (s.refuse .unset)
    | some _, some _, none => .next (s.refuse .unset)

/-! ## The getters -/

/-- A getter: "pure reads of the last published outputs" (R33, R189 to R193). -/
def svfGet (out : F32) (s : State) : Result :=
  requires s.svf.live .notLive s <| .next (s.respond out)

/-- `SVF.NEW`. -/
def execSvfNew (fs : F32) (s : State) : Result := svfNew fs s
/-- `SVF.PROCESS`. -/
def execSvfProcess (x : F32) (s : State) : Result := svfProcess x s
/-- `SVF.SET_FREQ`. -/
def execSvfSetFreq (f : F32) (s : State) : Result := svfSetFreq params f s
/-- `SVF.SET_RES`. -/
def execSvfSetRes (r : F32) (s : State) : Result := svfSetRes params r s
/-- `SVF.SET_DRIVE`. -/
def execSvfSetDrive (d : F32) (s : State) : Result := svfSetDrive d s
/-- `SVF.GET_LOW` (R189). -/
def execSvfGetLow (s : State) : Result := svfGet s.svf.outLowPass s
/-- `SVF.GET_HIGH` (R190). -/
def execSvfGetHigh (s : State) : Result := svfGet s.svf.outHighPass s
/-- `SVF.GET_BAND` (R191). -/
def execSvfGetBand (s : State) : Result := svfGet s.svf.outBandPass s
/-- `SVF.GET_NOTCH` (R192). -/
def execSvfGetNotch (s : State) : Result := svfGet s.svf.outNotch s
/-- `SVF.GET_PEAK` (R193). -/
def execSvfGetPeak (s : State) : Result := svfGet s.svf.outPeak s

end Sys2Proof.Machine
end

