-- ==== Sys2Proof/Machine/Dispatch.lean ====
section
/-! DEFINITION. The dispatch: one arm for each of the 31 commands of 30_encoding.md R87, each one call of its meaning. -/

namespace Sys2Proof.Machine

-- The meaning of a command, in a state, as the rule of the command says (R155 to R159, R171 to R173, R181 to R193,
-- R211 to R218, R231 to R237).
def exec (i : Instr) (s : State) : Host.Outcome State Fault Refusal :=
  match i with
  | .dlNew => Sys2Proof.Machine.execDlNew s
  | .dlWrite x => Sys2Proof.Machine.execDlWrite x s
  | .dlRead => Sys2Proof.Machine.execDlRead s
  | .dlGet index => Sys2Proof.Machine.execDlGet index s
  | .dlLen => Sys2Proof.Machine.execDlLen s
  | .lpNew fs => Sys2Proof.Machine.execLpNew fs s
  | .lpProcess x => Sys2Proof.Machine.execLpProcess x s
  | .lpSetFreq f => Sys2Proof.Machine.execLpSetFreq f s
  | .svfNew fs => Sys2Proof.Machine.execSvfNew fs s
  | .svfProcess x => Sys2Proof.Machine.execSvfProcess x s
  | .svfSetFreq f => Sys2Proof.Machine.execSvfSetFreq f s
  | .svfSetRes r => Sys2Proof.Machine.execSvfSetRes r s
  | .svfSetDrive d => Sys2Proof.Machine.execSvfSetDrive d s
  | .svfGetLow => Sys2Proof.Machine.execSvfGetLow s
  | .svfGetHigh => Sys2Proof.Machine.execSvfGetHigh s
  | .svfGetBand => Sys2Proof.Machine.execSvfGetBand s
  | .svfGetNotch => Sys2Proof.Machine.execSvfGetNotch s
  | .svfGetPeak => Sys2Proof.Machine.execSvfGetPeak s
  | .apNew fs => Sys2Proof.Machine.execApNew fs s
  | .apProcess x => Sys2Proof.Machine.execApProcess x s
  | .apSetFreq f => Sys2Proof.Machine.execApSetFreq f s
  | .spNew fs => Sys2Proof.Machine.execSpNew fs s
  | .spProcess x => Sys2Proof.Machine.execSpProcess x s
  | .spSetFreq t => Sys2Proof.Machine.execSpSetFreq t s
  | .spSetRt rt => Sys2Proof.Machine.execSpSetRt rt s
  | .oscNew fs => Sys2Proof.Machine.execOscNew fs s
  | .oscProcess => Sys2Proof.Machine.execOscProcess s
  | .oscSetFreq f => Sys2Proof.Machine.execOscSetFreq f s
  | .oscSetAmp a => Sys2Proof.Machine.execOscSetAmp a s
  | .oscSetPhase p => Sys2Proof.Machine.execOscSetPhase p s
  | .oscSetWave w => Sys2Proof.Machine.execOscSetWave w s

end Sys2Proof.Machine
end

