-- ==== Sys2Proof/WellFormed.lean ====
section
/-! DEFINITION. Which terms of `Instr` are commands. The operand formats `F` and `U` accept every 32-bit pattern and format
`Z` has no operand (30_encoding.md R83), so the one check is the format `W` operand of `OSC.SET_WAVE`. -/

namespace Sys2Proof

/-- Format `W`: "a `U32` that must be in `[0, 7]`" (R83). -/
def waveOperandOk (w : U32) : Bool := decide (w.toNat ≤ 7)

/-- A term of `Instr` that is a command of R87. -/
def Instr.wf : Instr → Bool
  | .oscSetWave w => waveOperandOk w
  | .dlNew => true
  | .dlWrite _ => true
  | .dlRead => true
  | .dlGet _ => true
  | .dlLen => true
  | .lpNew _ => true
  | .lpProcess _ => true
  | .lpSetFreq _ => true
  | .svfNew _ => true
  | .svfProcess _ => true
  | .svfSetFreq _ => true
  | .svfSetRes _ => true
  | .svfSetDrive _ => true
  | .svfGetLow => true
  | .svfGetHigh => true
  | .svfGetBand => true
  | .svfGetNotch => true
  | .svfGetPeak => true
  | .apNew _ => true
  | .apProcess _ => true
  | .apSetFreq _ => true
  | .spNew _ => true
  | .spProcess _ => true
  | .spSetFreq _ => true
  | .spSetRt _ => true
  | .oscNew _ => true
  | .oscProcess => true
  | .oscSetFreq _ => true
  | .oscSetAmp _ => true
  | .oscSetPhase _ => true

end Sys2Proof
end

