-- ==== Sys2Proof/Decode.lean ====
section
/-! DEFINITION. Decoding and encoding of command words (30_encoding.md R82 to R93): the decoder, total on every 40-bit word
and rejecting by name, the encoder, the opcode table of R87 as data, and the host's `decodeTableWord`. -/

namespace Sys2Proof

/-! ## The fields of a command word (R82) -/

/-- `cmd[39:36]`. -/
def cmdUnit (w : CmdWord) : BitVec 4 := w.extractLsb' 36 4

/-- `cmd[35:32]`. -/
def cmdFn (w : CmdWord) : BitVec 4 := w.extractLsb' 32 4

/-- `cmd[39:32]`, the opcode byte (R82). -/
def cmdOpc (w : CmdWord) : BitVec 8 := w.extractLsb' 32 8

/-- `cmd[31:0]`. -/
def cmdOperand (w : CmdWord) : BitVec 32 := w.extractLsb' 0 32

/-- Why a word is `ILLEGAL`: the four steps of R85 at which decoding ends. -/
inductive DecodeError where
  | reservedUnit
  | reservedFn
  | operandNotZero
  | waveAboveSeven
  deriving DecidableEq, Repr

/-! ## The decoder (R85) -/

/-- Format `Z`: the operand must be zero (R83). -/
def decodeZ (operand : BitVec 32) (i : Instr) : Except DecodeError Instr :=
  if operand = 0#32 then .ok i else .error .operandNotZero

/-- Format `W`: the operand must be in `[0, 7]` (R83). -/
def decodeW (operand : BitVec 32) (i : U32 → Instr) : Except DecodeError Instr :=
  if waveOperandOk operand then .ok (i operand) else .error .waveAboveSeven

/-- The command of a row of R87, by unit and function code. -/
def decodeFields (unit fn : Nat) (operand : BitVec 32) : Except DecodeError Instr :=
  if 5 < unit then .error .reservedUnit
  else
    match unit, fn with
    | 0, 0 => decodeZ operand .dlNew
    | 0, 1 => .ok (.dlWrite operand)
    | 0, 2 => decodeZ operand .dlRead
    | 0, 3 => .ok (.dlGet operand)
    | 0, 4 => decodeZ operand .dlLen
    | 1, 0 => .ok (.lpNew operand)
    | 1, 1 => .ok (.lpProcess operand)
    | 1, 2 => .ok (.lpSetFreq operand)
    | 2, 0 => .ok (.svfNew operand)
    | 2, 1 => .ok (.svfProcess operand)
    | 2, 2 => .ok (.svfSetFreq operand)
    | 2, 3 => .ok (.svfSetRes operand)
    | 2, 4 => .ok (.svfSetDrive operand)
    | 2, 8 => decodeZ operand .svfGetLow
    | 2, 9 => decodeZ operand .svfGetHigh
    | 2, 10 => decodeZ operand .svfGetBand
    | 2, 11 => decodeZ operand .svfGetNotch
    | 2, 12 => decodeZ operand .svfGetPeak
    | 3, 0 => .ok (.apNew operand)
    | 3, 1 => .ok (.apProcess operand)
    | 3, 2 => .ok (.apSetFreq operand)
    | 4, 0 => .ok (.spNew operand)
    | 4, 1 => .ok (.spProcess operand)
    | 4, 2 => .ok (.spSetFreq operand)
    | 4, 3 => .ok (.spSetRt operand)
    | 5, 0 => .ok (.oscNew operand)
    | 5, 1 => decodeZ operand .oscProcess
    | 5, 2 => .ok (.oscSetFreq operand)
    | 5, 3 => .ok (.oscSetAmp operand)
    | 5, 4 => .ok (.oscSetPhase operand)
    | 5, 5 => decodeW operand .oscSetWave
    | _, _ => .error .reservedFn

/-- Decoding is total: exactly one command of R87, or `ILLEGAL` with the step of R85 that refused it. It reads no state. -/
def decode (w : CmdWord) : Except DecodeError Instr :=
  decodeFields (cmdUnit w).toNat (cmdFn w).toNat (cmdOperand w)

/-! ## The encoder (R93) -/

/-- The opcode byte of a command (R87). -/
def Instr.opc : Instr → BitVec 8
  | .dlNew => 0x00#8
  | .dlWrite _ => 0x01#8
  | .dlRead => 0x02#8
  | .dlGet _ => 0x03#8
  | .dlLen => 0x04#8
  | .lpNew _ => 0x10#8
  | .lpProcess _ => 0x11#8
  | .lpSetFreq _ => 0x12#8
  | .svfNew _ => 0x20#8
  | .svfProcess _ => 0x21#8
  | .svfSetFreq _ => 0x22#8
  | .svfSetRes _ => 0x23#8
  | .svfSetDrive _ => 0x24#8
  | .svfGetLow => 0x28#8
  | .svfGetHigh => 0x29#8
  | .svfGetBand => 0x2A#8
  | .svfGetNotch => 0x2B#8
  | .svfGetPeak => 0x2C#8
  | .apNew _ => 0x30#8
  | .apProcess _ => 0x31#8
  | .apSetFreq _ => 0x32#8
  | .spNew _ => 0x40#8
  | .spProcess _ => 0x41#8
  | .spSetFreq _ => 0x42#8
  | .spSetRt _ => 0x43#8
  | .oscNew _ => 0x50#8
  | .oscProcess => 0x51#8
  | .oscSetFreq _ => 0x52#8
  | .oscSetAmp _ => 0x53#8
  | .oscSetPhase _ => 0x54#8
  | .oscSetWave _ => 0x55#8

/-- The operand field of a command (R83). -/
def Instr.operand : Instr → BitVec 32
  | .dlNew => 0#32
  | .dlWrite x => x
  | .dlRead => 0#32
  | .dlGet i => i
  | .dlLen => 0#32
  | .lpNew fs => fs
  | .lpProcess x => x
  | .lpSetFreq f => f
  | .svfNew fs => fs
  | .svfProcess x => x
  | .svfSetFreq f => f
  | .svfSetRes r => r
  | .svfSetDrive d => d
  | .svfGetLow => 0#32
  | .svfGetHigh => 0#32
  | .svfGetBand => 0#32
  | .svfGetNotch => 0#32
  | .svfGetPeak => 0#32
  | .apNew fs => fs
  | .apProcess x => x
  | .apSetFreq f => f
  | .spNew fs => fs
  | .spProcess x => x
  | .spSetFreq t => t
  | .spSetRt rt => rt
  | .oscNew fs => fs
  | .oscProcess => 0#32
  | .oscSetFreq f => f
  | .oscSetAmp a => a
  | .oscSetPhase p => p
  | .oscSetWave w => w

/-- `cmd = (opc << 32) | operand` (R93). -/
def encode (i : Instr) : CmdWord := i.opc ++ i.operand

/-! ## The opcode table (R87) -/

/-- A row: "a word `c` decodes as a row exactly when `c & mask = match`" (R87). -/
structure Row where
  mnemonic : String
  pattern : CmdWord
  mask : CmdWord
  deriving DecidableEq, Repr

/-- Format `Z`: the operand must be zero. -/
def maskZ : CmdWord := 0xFFFFFFFFFF#40
/-- Formats `F` and `U`: every operand is legal. -/
def maskF : CmdWord := 0xFF00000000#40
/-- Format `W`: operand bits 31 to 3 must be zero. -/
def maskW : CmdWord := 0xFFFFFFFFF8#40

/-- The row of a command. -/
def Instr.row : Instr → Row
  | .dlNew => ⟨"DL.NEW", 0x0000000000#40, maskZ⟩
  | .dlWrite _ => ⟨"DL.WRITE", 0x0100000000#40, maskF⟩
  | .dlRead => ⟨"DL.READ", 0x0200000000#40, maskZ⟩
  | .dlGet _ => ⟨"DL.GET", 0x0300000000#40, maskF⟩
  | .dlLen => ⟨"DL.LEN", 0x0400000000#40, maskZ⟩
  | .lpNew _ => ⟨"LP.NEW", 0x1000000000#40, maskF⟩
  | .lpProcess _ => ⟨"LP.PROCESS", 0x1100000000#40, maskF⟩
  | .lpSetFreq _ => ⟨"LP.SET_FREQ", 0x1200000000#40, maskF⟩
  | .svfNew _ => ⟨"SVF.NEW", 0x2000000000#40, maskF⟩
  | .svfProcess _ => ⟨"SVF.PROCESS", 0x2100000000#40, maskF⟩
  | .svfSetFreq _ => ⟨"SVF.SET_FREQ", 0x2200000000#40, maskF⟩
  | .svfSetRes _ => ⟨"SVF.SET_RES", 0x2300000000#40, maskF⟩
  | .svfSetDrive _ => ⟨"SVF.SET_DRIVE", 0x2400000000#40, maskF⟩
  | .svfGetLow => ⟨"SVF.GET_LOW", 0x2800000000#40, maskZ⟩
  | .svfGetHigh => ⟨"SVF.GET_HIGH", 0x2900000000#40, maskZ⟩
  | .svfGetBand => ⟨"SVF.GET_BAND", 0x2A00000000#40, maskZ⟩
  | .svfGetNotch => ⟨"SVF.GET_NOTCH", 0x2B00000000#40, maskZ⟩
  | .svfGetPeak => ⟨"SVF.GET_PEAK", 0x2C00000000#40, maskZ⟩
  | .apNew _ => ⟨"AP.NEW", 0x3000000000#40, maskF⟩
  | .apProcess _ => ⟨"AP.PROCESS", 0x3100000000#40, maskF⟩
  | .apSetFreq _ => ⟨"AP.SET_FREQ", 0x3200000000#40, maskF⟩
  | .spNew _ => ⟨"SP.NEW", 0x4000000000#40, maskF⟩
  | .spProcess _ => ⟨"SP.PROCESS", 0x4100000000#40, maskF⟩
  | .spSetFreq _ => ⟨"SP.SET_FREQ", 0x4200000000#40, maskF⟩
  | .spSetRt _ => ⟨"SP.SET_RT", 0x4300000000#40, maskF⟩
  | .oscNew _ => ⟨"OSC.NEW", 0x5000000000#40, maskF⟩
  | .oscProcess => ⟨"OSC.PROCESS", 0x5100000000#40, maskZ⟩
  | .oscSetFreq _ => ⟨"OSC.SET_FREQ", 0x5200000000#40, maskF⟩
  | .oscSetAmp _ => ⟨"OSC.SET_AMP", 0x5300000000#40, maskF⟩
  | .oscSetPhase _ => ⟨"OSC.SET_PHASE", 0x5400000000#40, maskF⟩
  | .oscSetWave _ => ⟨"OSC.SET_WAVE", 0x5500000000#40, maskW⟩

/-- The 31 rows of R87, in its order. -/
def opcodeTable : List Row :=
  [Instr.row .dlNew, Instr.row (.dlWrite 0#32), Instr.row .dlRead, Instr.row (.dlGet 0#32), Instr.row .dlLen, Instr.row (.lpNew 0#32), Instr.row (.lpProcess 0#32), Instr.row (.lpSetFreq 0#32)]
  ++ [Instr.row (.svfNew 0#32), Instr.row (.svfProcess 0#32), Instr.row (.svfSetFreq 0#32), Instr.row (.svfSetRes 0#32), Instr.row (.svfSetDrive 0#32), Instr.row .svfGetLow, Instr.row .svfGetHigh, Instr.row .svfGetBand]
  ++ [Instr.row .svfGetNotch, Instr.row .svfGetPeak, Instr.row (.apNew 0#32), Instr.row (.apProcess 0#32), Instr.row (.apSetFreq 0#32), Instr.row (.spNew 0#32), Instr.row (.spProcess 0#32), Instr.row (.spSetFreq 0#32)]
  ++ [Instr.row (.spSetRt 0#32), Instr.row (.oscNew 0#32), Instr.row .oscProcess, Instr.row (.oscSetFreq 0#32), Instr.row (.oscSetAmp 0#32), Instr.row (.oscSetPhase 0#32), Instr.row (.oscSetWave 0#32)]

/-- A word decodes as a row (R87). -/
def Row.matches (r : Row) (w : CmdWord) : Bool := decide (w &&& r.mask = r.pattern)

/-! ## The host's reading of a table word -/

/-- The instruction the decoder reads from the bits `w` of a table row: a command is one 40-bit word, so bit 0 of the table
is bit 0 of the word; bits above `nbits` are 0, and a word of more than 40 bits is none of this hardware's. -/
def decodeTableWord (nbits w : Nat) : Option Instr :=
  if w % 2 ^ nbits < 2 ^ 40 then
    match decode (BitVec.ofNat 40 (w % 2 ^ nbits)) with
    | .ok i => some i
    | .error _ => none
  else none

end Sys2Proof
end

