-- ==== Sys2Proof/Machine/Fetch.lean ====
section
/-! DEFINITION. What the block does with the host's next event (30_encoding.md R80, R81, R85; 70_reset_and_hazards.md R290;
log 1, 2, 3): the machine has no program counter and fetches nothing (10_state.md R22), so this stands in the place of an
instruction fetch. -/

namespace Sys2Proof.Machine

/-- What the next step is to do. -/
inductive Fetched where
  /-- No command runs; the state after the step. -/
  | settled (s : State)
  /-- A command was transferred and decoded: run it in this state. -/
  | command (i : Instr) (s : State)
  deriving DecidableEq, Repr

/-- The host's events after the first one. -/
def State.withInputs (s : State) (inputs : List HostInput) : State :=
  { s with port := { s.port with inputs := inputs } }

/-- The response transfer: the presented word, if there is one, is gone (R81). -/
def State.takeResponse (s : State) : State :=
  { s with port := { s.port with rsp := none } }

/-- A transferred command word: decoded before anything else is looked at, and refused with `ILLEGAL` if it is no command
(R85, R272, R276). -/
def transferCommand (w : CmdWord) (s : State) : Fetched :=
  match decode w with
  | .ok i => .command i s
  | .error _ => .settled (s.refuse .illegal)

/-- The first event that is no command word. The two ports are independent (R80): while command words wait (`waiting`, in
their order), the host may take the pending response, or raise `rst`; the words go on waiting behind it. With no such event
the block holds its state (R288). -/
def otherEvent (s : State) (waiting : List HostInput) : List HostInput → State
  | [] => s
  | .command w :: rest => otherEvent s (waiting ++ [.command w]) rest
  | .takeResponse :: rest => s.takeResponse.withInputs (waiting ++ rest)
  | .reset :: rest => s.afterReset.withInputs (waiting ++ rest)

/-- The host's next event. A command word is transferred only while `cmd_ready` is 1; while a response is pending it waits
(R81). -/
def fetch (s : State) : Fetched :=
  match s.port.inputs with
  | [] => .settled s
  | .takeResponse :: _ => .settled (otherEvent s [] s.port.inputs)
  | .reset :: _ => .settled (otherEvent s [] s.port.inputs)
  | .command w :: rest =>
    if s.cmdReady then transferCommand w (s.withInputs rest)
    else .settled (otherEvent s [] s.port.inputs)

/-- The host presents this word next, and has taken any response that was pending (log 13). -/
def State.presentWord (s : State) (w : CmdWord) : State :=
  { s with port := { inputs := .command w :: s.port.inputs, rsp := none } }

end Sys2Proof.Machine
end

