-- ==== Sys2Proof/Machine/Step.lean ====
section
/-! DEFINITION. One step of the machine: the host's next event, and the command it transfers, run to completion
(30_encoding.md R81: "one command is one step of the core"). -/

namespace Sys2Proof.Machine

/-- One step. -/
def step (s : State) : Host.Outcome State Fault Refusal :=
  match fetch s with
  | .settled t => .next t
  | .command i t => exec i t

/-- The state in which the next step transfers and runs the word whose low `nbits` bits are those of `w` (log 1, 13). -/
def State.withFetchWord (s : State) (nbits w : Nat) : State :=
  s.presentWord (BitVec.ofNat 40 (w % 2 ^ nbits))

end Sys2Proof.Machine
end

