-- ==== Sys2Proof/Safety.lean ====
section
/-! DEFINITION. The terms the claims use: the invariant of the reachable states, a safe state, runs of commands, and the
frame of a command. -/

namespace Sys2Proof.Machine

/-! ## Responses -/

/-- `s` with the response word `w` presented, nothing else changed. -/
def State.answered (s : State) (w : RspWord) : State :=
  { s with port := { s.port with rsp := some w } }

/-- A response word the block may produce: the four status codes of R270, data zero unless the status is `OK` (R84). -/
def rspWordOk (r : RspWord) : Prop :=
  (r.extractLsb' 32 8).toNat ≤ 3 ∧ (r.extractLsb' 32 8 ≠ 0#8 → r.extractLsb' 0 32 = 0#32)

/-! ## The invariant -/

/-- A delay line with its cursor in `[0, N)`, as R28 has it while the unit is live, and its memory in the model's canonical
form (log 6). -/
def LineOk (P : Params) (b : Buf) (d : DelayLine) : Prop :=
  d.index.toNat < P.len b ∧ Memory.wf P b d.mem = true

/-- A register that is a NaN or lies in `[lo, hi]` (R34: "for operands that are not NaN"). -/
def InRangeOrNaN (lo hi r : F32) : Prop :=
  isNaN r = true ∨ (fle lo r = true ∧ fle r hi = true)

/-- What R26 and R41 say of the valid flags of a unit that is not live: every `Opt` register is unset. -/
def UnsetUntilLive (s : State) : Prop :=
  (s.lp.live = false → s.lp.a0 = none ∧ s.lp.b1 = none) ∧
  (s.svf.live = false → s.svf.freq = none ∧ s.svf.resonance = none ∧ s.svf.preDrive = none ∧
    s.svf.drive = none ∧ s.svf.damp = none) ∧
  (s.ap.live = false → s.ap.k1 = none) ∧
  (s.sp.live = false → s.sp.loopTime = none ∧ s.sp.reverbTime = none ∧ s.sp.coef = none) ∧
  (s.osc.live = false → s.osc.phaseIncrement = none ∧ s.osc.amplitude = none ∧ s.osc.wave = none)

/-- The invariant of the state: R28 for the three delay lines, R26 and R30 for the coupled and derived registers, R34 and
R37 for the ranges the setters establish, R36 for `max_loop_time`, R188 for the published outputs, R270 for the response. The
canonical memories are the model's (log 6); that `dlLine`, `apLine`, `spLine` and `svfPublished` are asked also of units that
are not live, where the rules say nothing, rests on the zeros of log 3 and log 4. -/
structure StateInv (s : State) : Prop where
  dlLine : LineOk params .dl s.dl.line
  apLine : LineOk params .ap s.ap.line
  spLine : LineOk params .sp s.sp.line
  unset : UnsetUntilLive s
  lpCoupled : s.lp.a0 = s.lp.b1.map (fsub C_1)
  svfDamp : s.svf.damp = lift2 (dampOf params) s.svf.freq s.svf.resonance
  svfDrive : s.svf.drive = lift2 fmul s.svf.preDrive s.svf.resonance
  svfResonance : ∀ r, s.svf.resonance = some r → InRangeOrNaN C_0 C_1 r
  svfPreDrive : ∀ r, s.svf.preDrive = some r → InRangeOrNaN C_0 C_0_1 r
  svfPublished : s.svf.outLowPass = s.svf.lowPass ∧ s.svf.outHighPass = s.svf.highPass ∧
    s.svf.outBandPass = s.svf.bandPass ∧ s.svf.outNotch = s.svf.notch ∧
    s.svf.outPeak = fsub s.svf.lowPass s.svf.highPass
  spMax : s.sp.live = true → s.sp.maxLoopTime = maxLoopTimeOf params s.sp.fs
  spLoopTime : ∀ t, s.sp.loopTime = some t → isNaN t = true ∨ (fle C_1EM4 t = true ∧
    (fle C_1EM4 s.sp.maxLoopTime = true → fle t s.sp.maxLoopTime = true))
  spCoef : s.sp.coef.isSome = true → s.sp.loopTime.isSome = true ∧ s.sp.reverbTime.isSome = true
  rsp : ∀ r, s.port.rsp = some r → rspWordOk r

/-- A state from which the machine goes on: the next step stops with neither a fault nor a refusal. -/
def Safe (s : State) : Prop := ∃ t, step s = .next t

/-! ## Runs -/

/-- Commands executed one after the other, each on the state the one before left. -/
def execAll : List Instr → State → Result
  | [], s => .next s
  | i :: is, s =>
    match exec i s with
    | .next t => execAll is t
    | .fault f => .fault f
    | .refused r => .refused r

/-- Samples written to a delay line one after the other. -/
def lineWrites (P : Params) (b : Buf) : DelayLine → List F32 → Except Fault DelayLine
  | d, [] => .ok d
  | d, x :: xs =>
    match lineWrite P b d x with
    | .error f => .error f
    | .ok d' => lineWrites P b d' xs

/-! ## Frames -/

/-- The five PROCESS commands (R274). -/
def isProcess : Instr → Bool
  | .lpProcess _ => true
  | .svfProcess _ => true
  | .apProcess _ => true
  | .spProcess _ => true
  | .oscProcess => true
  | .dlNew => false
  | .dlWrite _ => false
  | .dlRead => false
  | .dlGet _ => false
  | .dlLen => false
  | .lpNew _ => false
  | .lpSetFreq _ => false
  | .svfNew _ => false
  | .svfSetFreq _ => false
  | .svfSetRes _ => false
  | .svfSetDrive _ => false
  | .svfGetLow => false
  | .svfGetHigh => false
  | .svfGetBand => false
  | .svfGetNotch => false
  | .svfGetPeak => false
  | .apNew _ => false
  | .apSetFreq _ => false
  | .spNew _ => false
  | .spSetFreq _ => false
  | .spSetRt _ => false
  | .oscNew _ => false
  | .oscSetFreq _ => false
  | .oscSetAmp _ => false
  | .oscSetPhase _ => false
  | .oscSetWave _ => false

/-- Two states have the same state of one unit: its registers, its flags and its memory (R3). -/
def SameUnit : UnitId → State → State → Prop
  | .dl, s, t => s.dl = t.dl
  | .lp, s, t => s.lp = t.lp
  | .svf, s, t => s.svf = t.svf
  | .ap, s, t => s.ap = t.ap
  | .sp, s, t => s.sp = t.sp
  | .osc, s, t => s.osc = t.osc

/-- The sample rate register of a unit; `DL` has none (R27). -/
def State.fs (s : State) : UnitId → Option F32
  | .dl => none
  | .lp => some s.lp.fs
  | .svf => some s.svf.fs
  | .ap => some s.ap.fs
  | .sp => some s.sp.fs
  | .osc => some s.osc.fs

/-- Every register R45 keeps from the setters: accumulators, published outputs, cursors, memories, `OSC.last`. -/
def SameAccumulators (s t : State) : Prop :=
  t.dl = s.dl ∧ t.lp.z1 = s.lp.z1 ∧
  t.svf.lowPass = s.svf.lowPass ∧ t.svf.highPass = s.svf.highPass ∧ t.svf.bandPass = s.svf.bandPass ∧
  t.svf.notch = s.svf.notch ∧ t.svf.previous = s.svf.previous ∧
  t.svf.outLowPass = s.svf.outLowPass ∧ t.svf.outHighPass = s.svf.outHighPass ∧
  t.svf.outBandPass = s.svf.outBandPass ∧ t.svf.outNotch = s.svf.outNotch ∧ t.svf.outPeak = s.svf.outPeak ∧
  t.ap.line = s.ap.line ∧ t.sp.line = s.sp.line ∧ t.osc.last = s.osc.last

end Sys2Proof.Machine
end

