-- ==== Sys2Proof/Certificates/Slice0/Obligations.lean ====
section
/-! DEFINITION. The statements for the provers. Each docstring names the rule of spec/ a statement formalises. -/

open Sys2Proof Sys2Proof.Machine

/-! ## Encoding -/

/-- R93 with R85: decoding the word of a well-formed command gives the command back, at every operand. -/
def Obligations.DecodeOfEncodeIsIdentity : Prop :=
  ∀ i : Instr, i.wf = true → decode (encode i) = .ok i

/-- R93 with R85: a word that decodes is the one word of a well-formed command. -/
def Obligations.EncodeOfDecodeIsIdentity : Prop :=
  ∀ (w : CmdWord) (i : Instr), decode w = .ok i → i.wf = true ∧ encode i = w

/-- R87: a word decodes as a row exactly when `c & mask = match`, and a word that matches no row is illegal. -/
def Obligations.DecodeFollowsOpcodeTable : Prop :=
  (∀ (w : CmdWord) (r : Row), r ∈ opcodeTable →
    (w &&& r.mask = r.pattern ↔ ∃ i, decode w = .ok i ∧ i.row = r)) ∧
  (∀ w : CmdWord, (∀ r ∈ opcodeTable, w &&& r.mask ≠ r.pattern) → ∃ e, decode w = .error e)

/-- R88: the complete list of the illegal words. -/
def Obligations.IllegalWordsAreExactlyTheListed : Prop :=
  ∀ w : CmdWord,
    (∃ e, decode w = .error e) ↔
      (6 ≤ (cmdUnit w).toNat ∨
      ((cmdUnit w).toNat = 0 ∧ 5 ≤ (cmdFn w).toNat) ∨
      (((cmdUnit w).toNat = 1 ∨ (cmdUnit w).toNat = 3) ∧ 3 ≤ (cmdFn w).toNat) ∨
      ((cmdUnit w).toNat = 2 ∧ ((5 ≤ (cmdFn w).toNat ∧ (cmdFn w).toNat ≤ 7) ∨ 13 ≤ (cmdFn w).toNat)) ∨
      ((cmdUnit w).toNat = 4 ∧ 4 ≤ (cmdFn w).toNat) ∨
      ((cmdUnit w).toNat = 5 ∧ 6 ≤ (cmdFn w).toNat) ∨
      (cmdOpc w ∈ [0x00#8, 0x02#8, 0x04#8, 0x28#8, 0x29#8, 0x2A#8, 0x2B#8, 0x2C#8, 0x51#8] ∧
        cmdOperand w ≠ 0#32) ∨
      (cmdOpc w = 0x55#8 ∧ 7 < (cmdOperand w).toNat))

/-- R85: the five steps of the decoding algorithm, in their order. -/
def Obligations.DecodingStepsInOrder : Prop :=
  ∀ w : CmdWord,
    (5 < (cmdUnit w).toNat → decode w = .error .reservedUnit) ∧
    ((cmdUnit w).toNat ≤ 5 → (∀ i : Instr, i.opc ≠ cmdOpc w) → decode w = .error .reservedFn) ∧
    (∀ i : Instr, i.opc = cmdOpc w → i.row.mask = maskZ → cmdOperand w ≠ 0#32 →
      decode w = .error .operandNotZero) ∧
    (∀ i : Instr, i.opc = cmdOpc w → i.row.mask = maskW → 7 < (cmdOperand w).toNat →
      decode w = .error .waveAboveSeven) ∧
    (∀ i : Instr, i.wf = true → i.opc = cmdOpc w → i.operand = cmdOperand w → decode w = .ok i)

/-- R93: the words the rule writes out. -/
def Obligations.SpecExampleWordsDecode : Prop :=
  decode 0x12447A0000#40 = .ok (.lpSetFreq 0x447A0000#32) ∧
  decode 0x0200000000#40 = .ok .dlRead ∧
  decode 0x5500000006#40 = .ok (.oscSetWave 6#32) ∧
  encode (.lpSetFreq 0x447A0000#32) = 0x12447A0000#40 ∧
  encode .dlRead = 0x0200000000#40 ∧
  encode (.oscSetWave 6#32) = 0x5500000006#40

/-! ## The step and the port -/

/-- A step runs the decoded command, in the state whose event it has taken (R81: "one command is one step of the core"; the
list of host events is the model's, log 1). -/
def Obligations.StepRunsTheDecodedCommand : Prop :=
  ∀ (s : State) (w : CmdWord) (rest : List HostInput) (i : Instr),
    s.port.inputs = .command w :: rest → s.port.rsp = none → decode w = .ok i →
      step s = exec i { s with port := { s.port with inputs := rest } }

/-- R272: a word that decodes to no command changes no state and is answered with `ILLEGAL` and data zero. -/
def Obligations.StepRefusesAnIllegalWord : Prop :=
  ∀ (s : State) (w : CmdWord) (rest : List HostInput) (e : DecodeError),
    s.port.inputs = .command w :: rest → s.port.rsp = none → decode w = .error e →
      step s = .next { s with port := { inputs := rest, rsp := some 0x0100000000#40 } }

/-- R81, R288 at the level of transfers (log 1, 2): with nothing presented, or with command words only behind a pending
response, the state is held; the response transfer makes room, and command words go on waiting behind it; with no response
pending there is nothing to transfer. (`rst` behind waiting words: `ResetEventClearsEveryFlag`.) -/
def Obligations.StepKeepsThePortProtocol : Prop :=
  (∀ s : State, s.port.inputs = [] → step s = .next s) ∧
  (∀ (s : State) (ws : List CmdWord) (r : RspWord),
    s.port.inputs = ws.map .command → s.port.rsp = some r → step s = .next s) ∧
  (∀ (s : State) (ws : List CmdWord) (rest : List HostInput) (r : RspWord),
    s.port.inputs = ws.map .command ++ .takeResponse :: rest → s.port.rsp = some r →
      step s = .next { s with port := { inputs := ws.map .command ++ rest, rsp := none } }) ∧
  (∀ (s : State) (rest : List HostInput), s.port.inputs = .takeResponse :: rest → s.port.rsp = none →
    step s = .next { s with port := { inputs := rest, rsp := none } })

/-- R290 as a transition between commands (log 3), with `rst` the host's next event, or behind command words that wait for a
pending response (log 2): every flag is cleared, the memories are not written, no response is presented, the words go on
waiting. -/
def Obligations.ResetEventClearsEveryFlag : Prop :=
  ∀ (s : State) (ws : List CmdWord) (rest : List HostInput), s.port.inputs = ws.map .command ++ .reset :: rest →
    (ws = [] ∨ ∃ r, s.port.rsp = some r) →
    ∃ t, step s = .next t ∧ t.port = { inputs := ws.map .command ++ rest, rsp := none } ∧ (∀ u, t.live u = false) ∧
      t.lp.a0 = none ∧ t.lp.b1 = none ∧
      t.svf.freq = none ∧ t.svf.resonance = none ∧ t.svf.preDrive = none ∧ t.svf.drive = none ∧ t.svf.damp = none ∧
      t.ap.k1 = none ∧ t.sp.loopTime = none ∧ t.sp.reverbTime = none ∧ t.sp.coef = none ∧
      t.osc.phaseIncrement = none ∧ t.osc.amplitude = none ∧ t.osc.wave = none ∧
      t.dl.line.mem = s.dl.line.mem ∧ t.ap.line.mem = s.ap.line.mem ∧ t.sp.line.mem = s.sp.line.mem

/-- R291: the launch state. -/
def Obligations.LaunchStateIsResetState : Prop :=
  (∀ u, State.reset.live u = false) ∧
  State.reset.lp.a0 = none ∧ State.reset.lp.b1 = none ∧
  State.reset.svf.freq = none ∧ State.reset.svf.resonance = none ∧ State.reset.svf.preDrive = none ∧
  State.reset.svf.drive = none ∧ State.reset.svf.damp = none ∧ State.reset.ap.k1 = none ∧
  State.reset.sp.loopTime = none ∧ State.reset.sp.reverbTime = none ∧ State.reset.sp.coef = none ∧
  State.reset.osc.phaseIncrement = none ∧ State.reset.osc.amplitude = none ∧ State.reset.osc.wave = none ∧
  (∀ a, Memory.sample params .dl State.reset.dl.line.mem a = params.bufInit .dl a) ∧
  (∀ a, Memory.sample params .ap State.reset.ap.line.mem a = params.bufInit .ap a) ∧
  (∀ a, Memory.sample params .sp State.reset.sp.line.mem a = params.bufInit .sp a)

/-- The launch state has the invariant; that its cursors are in range rests on the model's zeros (DESIGN CHOICE, log 4). -/
def Obligations.InvariantHoldsAtReset : Prop := StateInv State.reset

/-- Every step keeps the invariant: cursors in range (R28), the coupled and derived registers (R26, R30), the ranges the
setters establish (R34, R37), `max_loop_time` (R36), the published outputs (R188), the response word (R84, R270).
Three parts are the MODEL's choices and no rule's: the memories in canonical form (log 6); and, for a unit that is not live,
where the rules say nothing, that the reset event leaves the cursor in range and the published outputs equal to the
accumulators, which rests on the zeros of log 3 and log 4. -/
def Obligations.StepKeepsTheInvariant : Prop :=
  ∀ s t : State, StateInv s → step s = .next t → StateInv t

/-- "Every command in every state has a defined next state and response" (93_implementation_defined.md): where the cursors
are in range (R28), a step neither faults nor refuses. -/
def Obligations.CursorsInRangeNeverStop : Prop :=
  ∀ s : State, s.dl.line.index.toNat < params.len .dl → s.ap.line.index.toNat < params.len .ap →
    s.sp.line.index.toNat < params.len .sp → Safe s

/-! ## Statuses and refusals -/

/-- R276: a command's status is the first that applies of `ILLEGAL`, `NOT_LIVE`, `UNSET`; otherwise it is `OK`. -/
def Obligations.StatusByPriority : Prop :=
  (∀ (s t : State) (w : CmdWord) (rest : List HostInput) (e : DecodeError),
    s.port.inputs = .command w :: rest → s.port.rsp = none → decode w = .error e → step s = .next t →
      t.port.rsp = some 0x0100000000#40) ∧
  (∀ (i : Instr) (s t : State), i.wf = true → exec i s = .next t →
    ((i.isNew = false ∧ s.live i.unit = false) → t.port.rsp = some 0x0200000000#40) ∧
    ((i.isNew = true ∨ s.live i.unit = true) →
      ((isProcess i = true ∧ s.processable i.unit = false) → t.port.rsp = some 0x0300000000#40) ∧
      ((isProcess i = false ∨ s.processable i.unit = true) → ∃ d : BitVec 32, t.port.rsp = some (0x00#8 ++ d))))

/-- R271: a refused command changes no register, no flag and no buffer memory, and its data is zero. -/
def Obligations.RefusedCommandChangesNothing : Prop :=
  ∀ (i : Instr) (s t : State) (w : RspWord), exec i s = .next t → t.port.rsp = some w → w.extractLsb' 32 8 ≠ 0x00#8 →
    t = { s with port := { s.port with rsp := some w } } ∧ w.extractLsb' 0 32 = 0#32

/-- R23: only `U.NEW` sets `U.live`, no command clears it, every other command of the unit is refused with `NOT_LIVE` while
it is 0; the reset event (the model's, log 3) clears it. -/
def Obligations.LiveFlagIsSetByNewOnly : Prop :=
  (∀ (i : Instr) (s t : State) (u : UnitId), exec i s = .next t →
    (t.live u = true ↔ s.live u = true ∨ (i.isNew = true ∧ i.unit = u))) ∧
  (∀ (i : Instr) (s : State), i.wf = true → i.isNew = false → s.live i.unit = false →
    exec i s = .next (s.answered 0x0200000000#40)) ∧
  (∀ (s : State) (rest : List HostInput) (u : UnitId), s.port.inputs = .reset :: rest →
    ∃ t, step s = .next t ∧ t.live u = false)

/-! ## Whole-machine rules -/

/-- R3: a command reads and writes the state of its own unit only. -/
def Obligations.UnitsAreIndependent : Prop :=
  (∀ (i : Instr) (s t : State), exec i s = .next t →
    (∀ u, u ≠ i.unit → SameUnit u s t) ∧ t.port.inputs = s.port.inputs) ∧
  (∀ (i : Instr) (s s' : State), SameUnit i.unit s s' →
    (∀ t, exec i s = .next t → ∃ t', exec i s' = .next t' ∧ SameUnit i.unit t t' ∧ t.port.rsp = t'.port.rsp))

/-- R27: `U.fs` is written only by `U.NEW`, which stores its operand bit-exactly. -/
def Obligations.SampleRateIsWrittenByNewOnly : Prop :=
  (∀ (i : Instr) (s t : State) (u : UnitId), exec i s = .next t → (i.isNew = false ∨ i.unit ≠ u) → t.fs u = s.fs u) ∧
  (∀ (fs : F32) (s : State),
    (∃ t, exec (.lpNew fs) s = .next t ∧ t.lp.fs = fs) ∧ (∃ t, exec (.svfNew fs) s = .next t ∧ t.svf.fs = fs) ∧
    (∃ t, exec (.apNew fs) s = .next t ∧ t.ap.fs = fs) ∧ (∃ t, exec (.spNew fs) s = .next t ∧ t.sp.fs = fs) ∧
    (∃ t, exec (.oscNew fs) s = .next t ∧ t.osc.fs = fs))

/-- R45: no setter writes an accumulator, a published output, a cursor, a memory or `OSC.last`; of `OSC.phase` only
`OSC.SET_PHASE`. -/
def Obligations.SettersKeepAccumulators : Prop :=
  ∀ (i : Instr) (s t : State), i.isSetter = true → exec i s = .next t →
    SameAccumulators s t ∧ ((∀ p, i ≠ .oscSetPhase p) → t.osc.phase = s.osc.phase)

/-- R175: a setter executed twice with the same operand leaves what it left after once. -/
def Obligations.SettersAreIdempotent : Prop :=
  ∀ (i : Instr) (s t : State), i.isSetter = true → exec i s = .next t → exec i t = .next t

/-! ## Memory and the delay line -/

/-- R62, R63: a sample written is the sample read, and every other address of the memory reads as before. -/
def Obligations.ReadAfterWriteOfAMemory : Prop :=
  ∀ (P : Params) (b : Buf) (m m' : Memory) (a : Nat) (v : F32), memWrite P b m a v = .ok m' →
    memRead P b m' a = .ok v ∧ (∀ c, c ≠ a → memRead P b m' c = memRead P b m c)

/-- R160: the delay law, on any delay line, from a new instance. -/
def Obligations.DelayLaw : Prop :=
  ∀ (P : Params) (b : Buf) (d : DelayLine) (w : List F32), d.index = 0#32 →
    ∃ d', lineWrites P b d w = .ok d' ∧ d'.index.toNat = w.length % P.len b ∧
      (∀ x, P.len b ≤ w.length → w[w.length - P.len b]? = some x → lineRead P b d' = .ok x) ∧
      (w.length < P.len b → lineRead P b d' = .ok (Memory.sample P b d.mem w.length))

/-- R293: after `DL.NEW`, `N_DL` commands `DL.WRITE 0.0` leave the cursor at 0 and every cell `+0.0`. -/
def Obligations.ZeroWritesSilenceTheDelayLine : Prop :=
  ∀ s : State, ∃ t, execAll (.dlNew :: List.replicate (params.len .dl) (.dlWrite 0x00000000#32)) s = .next t ∧
    t.dl.line.index = 0#32 ∧ (∀ a, a < params.len .dl → memRead params .dl t.dl.line.mem a = .ok 0x00000000#32)

/-! ## The commands -/

/-- The six NEW commands, accepted in every state (R155, R171, R181, R211, R215, R231): the registers of R44's column
"after NEW", the buffer memory and every other unit as before, response `OK` with data zero. -/
def Obligations.NewCommandsConstruct : Prop :=
  ∀ (fs : F32) (s : State),
    (decode 0x0000000000#40 = .ok .dlNew ∧ (fs ≠ 0#32 → decode (0x00#8 ++ fs) = .error .operandNotZero) ∧
      decode (0x10#8 ++ fs) = .ok (.lpNew fs) ∧ decode (0x20#8 ++ fs) = .ok (.svfNew fs) ∧
      decode (0x30#8 ++ fs) = .ok (.apNew fs) ∧ decode (0x40#8 ++ fs) = .ok (.spNew fs) ∧
      decode (0x50#8 ++ fs) = .ok (.oscNew fs)) ∧
    exec .dlNew s = .next (({ s with
      dl := { live := true, line := { index := 0#32, mem := s.dl.line.mem } } } : State).answered 0x0000000000#40) ∧
    exec (.lpNew fs) s = .next (({ s with
      lp := { live := true, fs := fs, z1 := 0x00000000#32, a0 := none, b1 := none } } : State).answered
        0x0000000000#40) ∧
    exec (.svfNew fs) s = .next (({ s with
      svf := { live := true, fs := fs
               lowPass := 0x00000000#32, highPass := 0x00000000#32, bandPass := 0x00000000#32
               notch := 0x00000000#32, previous := 0x00000000#32
               freq := none, resonance := none, preDrive := none, drive := none, damp := none
               outLowPass := 0x00000000#32, outHighPass := 0x00000000#32, outBandPass := 0x00000000#32
               outNotch := 0x00000000#32, outPeak := 0x00000000#32 } } : State).answered 0x0000000000#40) ∧
    exec (.apNew fs) s = .next (({ s with
      ap := { live := true, fs := fs, k1 := none, line := { index := 0#32, mem := s.ap.line.mem } } } : State).answered
        0x0000000000#40) ∧
    exec (.spNew fs) s = .next (({ s with
      sp := { live := true, fs := fs, maxLoopTime := fsub (fdiv (u2f (params.len .sp)) fs) C_0_01
              loopTime := none, reverbTime := none, coef := none
              line := { index := 0#32, mem := s.sp.line.mem } } } : State).answered 0x0000000000#40) ∧
    exec (.oscNew fs) s = .next (({ s with
      osc := { live := true, fs := fs, phase := 0x00000000#32, last := 0x00000000#32
               phaseIncrement := none, amplitude := none, wave := none } } : State).answered 0x0000000000#40)

/-- R156: `DL.WRITE x`. The sample is stored bit-exactly at the old cursor, every other address of `DLMEM` reads as before,
the cursor advances modulo `N_DL`, everything else is unchanged. -/
def Obligations.DlWriteStoresThenAdvances : Prop :=
  ∀ (x : F32) (s : State),
    decode (0x01#8 ++ x) = .ok (.dlWrite x) ∧
    (s.dl.live = false → exec (.dlWrite x) s = .next (s.answered 0x0200000000#40)) ∧
    (s.dl.live = true → s.dl.line.index.toNat < params.len .dl →
      ∃ t, exec (.dlWrite x) s = .next t ∧
        t.dl.line.index.toNat = (s.dl.line.index.toNat + 1) % params.len .dl ∧
        (∀ a, Memory.sample params .dl t.dl.line.mem a =
          if a = s.dl.line.index.toNat then x else Memory.sample params .dl s.dl.line.mem a) ∧
        t = ({ s with dl := { live := true, line := t.dl.line } } : State).answered 0x0000000000#40)

/-- R157, R158, R159: `DL.READ`, `DL.GET i`, `DL.LEN` answer the sample at the cursor, the sample at `i mod N_DL` and
`N_DL`, and change nothing but the response. -/
def Obligations.DlReadsAnswerAndChangeNothing : Prop :=
  ∀ (i : U32) (s : State),
    (decode 0x0200000000#40 = .ok .dlRead ∧ decode (0x03#8 ++ i) = .ok (.dlGet i) ∧
      decode 0x0400000000#40 = .ok .dlLen ∧
      (i ≠ 0#32 → decode (0x02#8 ++ i) = .error .operandNotZero ∧ decode (0x04#8 ++ i) = .error .operandNotZero)) ∧
    (s.dl.live = false →
      exec .dlRead s = .next (s.answered 0x0200000000#40) ∧ exec (.dlGet i) s = .next (s.answered 0x0200000000#40) ∧
      exec .dlLen s = .next (s.answered 0x0200000000#40)) ∧
    (s.dl.live = true →
      (s.dl.line.index.toNat < params.len .dl →
        exec .dlRead s = .next (s.answered
          (0x00#8 ++ Memory.sample params .dl s.dl.line.mem s.dl.line.index.toNat))) ∧
      exec (.dlGet i) s = .next (s.answered
        (0x00#8 ++ Memory.sample params .dl s.dl.line.mem (i.toNat % params.len .dl))) ∧
      exec .dlLen s = .next (s.answered (0x00#8 ++ BitVec.ofNat 32 (params.len .dl))))

/-- R172: `LP.SET_FREQ f`. -/
def Obligations.LpSetFreqComputesCoefficients : Prop :=
  ∀ (f : F32) (s : State),
    decode (0x12#8 ++ f) = .ok (.lpSetFreq f) ∧
    (s.lp.live = false → exec (.lpSetFreq f) s = .next (s.answered 0x0200000000#40)) ∧
    (s.lp.live = true →
      exec (.lpSetFreq f) s = .next (({ s with
        lp := { s.lp with
          b1 := some (params.num.exp (fmul NEG_TWO_PI (fdiv f s.lp.fs)))
          a0 := some (fsub C_1 (params.num.exp (fmul NEG_TWO_PI (fdiv f s.lp.fs)))) } } : State).answered
            0x0000000000#40))

/-- R173: `LP.PROCESS x`. -/
def Obligations.LpProcessFollowsRecurrence : Prop :=
  ∀ (x : F32) (s : State),
    decode (0x11#8 ++ x) = .ok (.lpProcess x) ∧
    (s.lp.live = false → exec (.lpProcess x) s = .next (s.answered 0x0200000000#40)) ∧
    (s.lp.live = true → (s.lp.a0 = none ∨ s.lp.b1 = none) →
      exec (.lpProcess x) s = .next (s.answered 0x0300000000#40)) ∧
    (∀ a0 b1, s.lp.live = true → s.lp.a0 = some a0 → s.lp.b1 = some b1 →
      exec (.lpProcess x) s = .next (({ s with
        lp := { s.lp with z1 := fadd (fmul x a0) (fmul s.lp.z1 b1) } } : State).answered
          (0x00#8 ++ fadd (fmul x a0) (fmul s.lp.z1 b1))))

/-- R184, R185, R186 with R182, R183, R25: the three setters of the state-variable filter, and the registers they derive. -/
def Obligations.SvfSettersDeriveParameters : Prop :=
  ∀ (f r d : F32) (s : State),
    (decode (0x22#8 ++ f) = .ok (.svfSetFreq f) ∧ decode (0x23#8 ++ r) = .ok (.svfSetRes r) ∧
      decode (0x24#8 ++ d) = .ok (.svfSetDrive d)) ∧
    (s.svf.live = false →
      exec (.svfSetFreq f) s = .next (s.answered 0x0200000000#40) ∧
      exec (.svfSetRes r) s = .next (s.answered 0x0200000000#40) ∧
      exec (.svfSetDrive d) s = .next (s.answered 0x0200000000#40)) ∧
    (s.svf.live = true →
      let freq := fmul C_2 (params.num.sin (fmul PI (fmin C_0_25
        (fdiv (fclamp f C_0 (fdiv s.svf.fs C_3)) (fmul C_2 s.svf.fs)))))
      let res := fclamp r C_0 C_1
      let pre := fclamp (fmul d C_0_1) C_0 C_0_1
      let damp := fun fr re => fmin (fmul C_2 (fsub C_1 (params.num.pow025 re)))
        (fmin C_2 (fsub (fdiv C_2 fr) (fmul fr C_0_5)))
      exec (.svfSetFreq f) s = .next (({ s with
        svf := { s.svf with freq := some freq, damp := s.svf.resonance.map (damp freq) } } : State).answered
          0x0000000000#40) ∧
      exec (.svfSetRes r) s = .next (({ s with
        svf := { s.svf with
          resonance := some res
          damp := s.svf.freq.map (fun fr => damp fr res)
          drive := s.svf.preDrive.map (fun p => fmul p res) } } : State).answered 0x0000000000#40) ∧
      exec (.svfSetDrive d) s = .next (({ s with
        svf := { s.svf with
          preDrive := some pre
          drive := s.svf.resonance.map (fun re => fmul pre re) } } : State).answered 0x0000000000#40))

/-- R188 with R187: `SVF.PROCESS x`, two passes, the first on the previous input, each of four statements in order. -/
def Obligations.SvfProcessRunsTwoPasses : Prop :=
  ∀ (x : F32) (s : State),
    decode (0x21#8 ++ x) = .ok (.svfProcess x) ∧
    (s.svf.live = false → exec (.svfProcess x) s = .next (s.answered 0x0200000000#40)) ∧
    (s.svf.live = true → (s.svf.freq = none ∨ s.svf.damp = none ∨ s.svf.drive = none) →
      exec (.svfProcess x) s = .next (s.answered 0x0300000000#40)) ∧
    (∀ freq damp drive, s.svf.live = true → s.svf.freq = some freq → s.svf.damp = some damp →
      s.svf.drive = some drive →
      let cube := fun b => fmul (fmul b b) b
      let notch1 := fsub s.svf.previous (fmul damp s.svf.bandPass)
      let low1 := fadd s.svf.lowPass (fmul freq s.svf.bandPass)
      let high1 := fsub notch1 low1
      let band1 := fadd s.svf.bandPass (fsub (fmul freq high1) (fmul drive (cube s.svf.bandPass)))
      let notch2 := fsub x (fmul damp band1)
      let low2 := fadd low1 (fmul freq band1)
      let high2 := fsub notch2 low2
      let band2 := fadd band1 (fsub (fmul freq high2) (fmul drive (cube band1)))
      exec (.svfProcess x) s = .next (({ s with
        svf := { s.svf with
          lowPass := low2, highPass := high2, bandPass := band2, notch := notch2, previous := x
          outLowPass := low2, outHighPass := high2, outBandPass := band2, outNotch := notch2
          outPeak := fsub low2 high2 } } : State).answered 0x0000000000#40))

/-- R189 to R193: the getters answer the published outputs and change nothing but the response. -/
def Obligations.SvfGettersArePureReads : Prop :=
  ∀ s : State,
    (decode 0x2800000000#40 = .ok .svfGetLow ∧ decode 0x2900000000#40 = .ok .svfGetHigh ∧
      decode 0x2A00000000#40 = .ok .svfGetBand ∧ decode 0x2B00000000#40 = .ok .svfGetNotch ∧
      decode 0x2C00000000#40 = .ok .svfGetPeak ∧
      ∀ opc ∈ [0x28#8, 0x29#8, 0x2A#8, 0x2B#8, 0x2C#8], ∀ d : BitVec 32, d ≠ 0#32 →
        decode (opc ++ d) = .error .operandNotZero) ∧
    (s.svf.live = false →
      ∀ i ∈ [Instr.svfGetLow, .svfGetHigh, .svfGetBand, .svfGetNotch, .svfGetPeak],
        exec i s = .next (s.answered 0x0200000000#40)) ∧
    (s.svf.live = true →
      exec .svfGetLow s = .next (s.answered (0x00#8 ++ s.svf.outLowPass)) ∧
      exec .svfGetHigh s = .next (s.answered (0x00#8 ++ s.svf.outHighPass)) ∧
      exec .svfGetBand s = .next (s.answered (0x00#8 ++ s.svf.outBandPass)) ∧
      exec .svfGetNotch s = .next (s.answered (0x00#8 ++ s.svf.outNotch)) ∧
      exec .svfGetPeak s = .next (s.answered (0x00#8 ++ s.svf.outPeak)))

/-- R212: `AP.SET_FREQ f`. -/
def Obligations.ApSetFreqComputesCoefficient : Prop :=
  ∀ (f : F32) (s : State),
    decode (0x32#8 ++ f) = .ok (.apSetFreq f) ∧
    (s.ap.live = false → exec (.apSetFreq f) s = .next (s.answered 0x0200000000#40)) ∧
    (s.ap.live = true →
      let w := fdiv (fmul PI f) s.ap.fs
      exec (.apSetFreq f) s = .next (({ s with
        ap := { s.ap with k1 := some (fdiv (fsub C_1 w) (fadd C_1 w)) } } : State).answered 0x0000000000#40))

/-- R213: `AP.PROCESS x`. Read at the cursor, write `out = k1·z1 + x` there, advance, answer `z1 − k1·out`. -/
def Obligations.ApProcessFollowsRecurrence : Prop :=
  ∀ (x : F32) (s : State),
    decode (0x31#8 ++ x) = .ok (.apProcess x) ∧
    (s.ap.live = false → exec (.apProcess x) s = .next (s.answered 0x0200000000#40)) ∧
    (s.ap.live = true → s.ap.k1 = none → exec (.apProcess x) s = .next (s.answered 0x0300000000#40)) ∧
    (∀ k1, s.ap.live = true → s.ap.k1 = some k1 → s.ap.line.index.toNat < params.len .ap →
      let z1 := Memory.sample params .ap s.ap.line.mem s.ap.line.index.toNat
      let out := fadd (fmul k1 z1) x
      ∃ t, exec (.apProcess x) s = .next t ∧
        t.ap.line.index.toNat = (s.ap.line.index.toNat + 1) % params.len .ap ∧
        (∀ a, Memory.sample params .ap t.ap.line.mem a =
          if a = s.ap.line.index.toNat then out else Memory.sample params .ap s.ap.line.mem a) ∧
        t = ({ s with ap := { s.ap with line := t.ap.line } } : State).answered (0x00#8 ++ fsub z1 (fmul k1 out)))

/-- R216: `SP.SET_FREQ t` clamps the loop time and leaves `coef` as it was. -/
def Obligations.SpSetFreqClampsLoopTime : Prop :=
  ∀ (x : F32) (s : State),
    decode (0x42#8 ++ x) = .ok (.spSetFreq x) ∧
    (s.sp.live = false → exec (.spSetFreq x) s = .next (s.answered 0x0200000000#40)) ∧
    (s.sp.live = true →
      exec (.spSetFreq x) s = .next (({ s with
        sp := { s.sp with loopTime := some (fclamp x C_1EM4 s.sp.maxLoopTime) } } : State).answered 0x0000000000#40))

/-- R217: `SP.SET_RT rt` stores the decay target; `coef` is computed from the loop time in force, unset if that is. -/
def Obligations.SpSetRtComputesCoefficient : Prop :=
  ∀ (rt : F32) (s : State),
    decode (0x43#8 ++ rt) = .ok (.spSetRt rt) ∧
    (s.sp.live = false → exec (.spSetRt rt) s = .next (s.answered 0x0200000000#40)) ∧
    (s.sp.live = true → s.sp.loopTime = none →
      exec (.spSetRt rt) s = .next (({ s with
        sp := { s.sp with reverbTime := some rt, coef := none } } : State).answered 0x0000000000#40)) ∧
    (∀ lt, s.sp.live = true → s.sp.loopTime = some lt →
      exec (.spSetRt rt) s = .next (({ s with
        sp := { s.sp with
          reverbTime := some rt
          coef := some (params.num.exp (fdiv (fmul C_NEG_6_9078 lt) rt)) } } : State).answered 0x0000000000#40))

/-- R218: `SP.PROCESS x`. -/
def Obligations.SpProcessFollowsRecurrence : Prop :=
  ∀ (x : F32) (s : State),
    decode (0x41#8 ++ x) = .ok (.spProcess x) ∧
    (s.sp.live = false → exec (.spProcess x) s = .next (s.answered 0x0200000000#40)) ∧
    (s.sp.live = true → s.sp.coef = none → exec (.spProcess x) s = .next (s.answered 0x0300000000#40)) ∧
    (∀ coef, s.sp.live = true → s.sp.coef = some coef → s.sp.line.index.toNat < params.len .sp →
      let y := Memory.sample params .sp s.sp.line.mem s.sp.line.index.toNat
      let z := fadd (fmul coef y) x
      ∃ t, exec (.spProcess x) s = .next t ∧
        t.sp.line.index.toNat = (s.sp.line.index.toNat + 1) % params.len .sp ∧
        (∀ a, Memory.sample params .sp t.sp.line.mem a =
          if a = s.sp.line.index.toNat then z else Memory.sample params .sp s.sp.line.mem a) ∧
        t = ({ s with sp := { s.sp with line := t.sp.line } } : State).answered (0x00#8 ++ fsub y (fmul coef z)))

/-- R232, R233, R234, R235: the setters of the oscillator; each wave code selects its `WaveType` (R236), a larger operand
decodes to no command. -/
def Obligations.OscSettersStoreParameters : Prop :=
  ∀ (v : F32) (w : U32) (s : State),
    (decode (0x52#8 ++ v) = .ok (.oscSetFreq v) ∧ decode (0x53#8 ++ v) = .ok (.oscSetAmp v) ∧
      decode (0x54#8 ++ v) = .ok (.oscSetPhase v) ∧ (w.toNat ≤ 7 → decode (0x55#8 ++ w) = .ok (.oscSetWave w)) ∧
      (7 < w.toNat → decode (0x55#8 ++ w) = .error .waveAboveSeven)) ∧
    (s.osc.live = false →
      exec (.oscSetFreq v) s = .next (s.answered 0x0200000000#40) ∧
      exec (.oscSetAmp v) s = .next (s.answered 0x0200000000#40) ∧
      exec (.oscSetPhase v) s = .next (s.answered 0x0200000000#40) ∧
      (w.toNat ≤ 7 → exec (.oscSetWave w) s = .next (s.answered 0x0200000000#40))) ∧
    (s.osc.live = true →
      exec (.oscSetFreq v) s = .next (({ s with
        osc := { s.osc with phaseIncrement := some (fdiv (fmul TWO_PI v) s.osc.fs) } } : State).answered
          0x0000000000#40) ∧
      exec (.oscSetAmp v) s = .next (({ s with
        osc := { s.osc with amplitude := some v } } : State).answered 0x0000000000#40) ∧
      exec (.oscSetPhase v) s = .next (({ s with
        osc := { s.osc with phase := fmul (fclamp v C_0 C_1) TWO_PI } } : State).answered 0x0000000000#40) ∧
      (∀ wave : Wave, w.toNat = (waveCode wave).toNat →
        exec (.oscSetWave w) s = .next (({ s with
          osc := { s.osc with wave := some wave } } : State).answered 0x0000000000#40)))

/-- R240: `shape(w, phase, inc, last)` for each of the eight wave types, over any `OSC_SHAPE`. -/
def Obligations.ShapeOfEachWave : Prop :=
  ∀ (o : OscShape) (phase inc last : F32),
    shape o .sine phase inc last = (o.sine phase, last) ∧
    shape o .tri phase inc last = (o.tri phase, last) ∧
    shape o .saw phase inc last = (o.saw phase, last) ∧
    shape o .ramp phase inc last = (o.ramp phase, last) ∧
    shape o .square phase inc last = (o.square phase, last) ∧
    (let q := o.pbTriSquare phase inc
     let v := fadd (fmul inc q) (fmul (fsub C_1 inc) last)
     shape o .pbTri phase inc last = (v, v)) ∧
    shape o .pbSaw phase inc last = (o.pbSaw phase inc, last) ∧
    shape o .pbSquare phase inc last = (o.pbSquare phase inc, last)

/-- R237 with R238, R239: `OSC.PROCESS`. The sample from the phase before the advance, times the amplitude; the phase
advances and wraps only above `TWO_PI`. -/
def Obligations.OscProcessSamplesThenAdvances : Prop :=
  ∀ s : State,
    (decode 0x5100000000#40 = .ok .oscProcess ∧
      ∀ d : BitVec 32, d ≠ 0#32 → decode (0x51#8 ++ d) = .error .operandNotZero) ∧
    (s.osc.live = false → exec .oscProcess s = .next (s.answered 0x0200000000#40)) ∧
    (s.osc.live = true → (s.osc.phaseIncrement = none ∨ s.osc.amplitude = none ∨ s.osc.wave = none) →
      exec .oscProcess s = .next (s.answered 0x0300000000#40)) ∧
    (∀ inc amp w, s.osc.live = true → s.osc.phaseIncrement = some inc → s.osc.amplitude = some amp →
      s.osc.wave = some w →
      let r := shape params.shape w s.osc.phase inc s.osc.last
      let p := fadd s.osc.phase inc
      exec .oscProcess s = .next (({ s with
        osc := { s.osc with
          last := r.2
          phase := if flt TWO_PI p then fsub p TWO_PI else p } } : State).answered (0x00#8 ++ fmul r.1 amp)))

/-! ## Arithmetic -/

/-- R112: the four operations on finite operands whose exact result is not zero round it to nearest, ties to even; such a
product or quotient has the sign of the exact result even where it underflows to zero. -/
def Obligations.ArithmeticIsCorrectlyRounded : Prop :=
  ∀ a b : F32, isFinite a = true → isFinite b = true →
    (value a + value b ≠ 0 → Nearest ((value a + value b : ℚ) : ℝ) (fadd a b)) ∧
    (value a - value b ≠ 0 → Nearest ((value a - value b : ℚ) : ℝ) (fsub a b)) ∧
    (value a * value b ≠ 0 →
      Nearest ((value a * value b : ℚ) : ℝ) (fmul a b) ∧ sgn (fmul a b) = (sgn a != sgn b)) ∧
    (value b ≠ 0 → value a / value b ≠ 0 →
      Nearest ((value a / value b : ℚ) : ℝ) (fdiv a b) ∧ sgn (fdiv a b) = (sgn a != sgn b))

/-- R115: the special cases of the four operations, `x` finite and not zero, `z` a zero of either sign. -/
def Obligations.ArithmeticSpecialCases : Prop :=
  (∀ a b : F32, (isNaN a || isNaN b) = true →
    fadd a b = QNAN ∧ fsub a b = QNAN ∧ fmul a b = QNAN ∧ fdiv a b = QNAN) ∧
  (fadd POS_INF NEG_INF = QNAN ∧ fadd NEG_INF POS_INF = QNAN ∧ fsub POS_INF POS_INF = QNAN ∧
    fsub NEG_INF NEG_INF = QNAN) ∧
  (∀ a i : F32, isInf i = true → isNaN a = false → (isInf a = true → a = i) →
    fadd i a = i ∧ fadd a i = i ∧ fsub i (flipSign a) = i ∧ fsub a (flipSign i) = i) ∧
  (∀ z i : F32, isZero z = true → isInf i = true → fmul z i = QNAN ∧ fmul i z = QNAN) ∧
  (∀ a i : F32, isInf i = true → isNaN a = false → isZero a = false →
    fmul i a = (if sgn i = sgn a then POS_INF else NEG_INF) ∧ fmul a i = (if sgn i = sgn a then POS_INF else NEG_INF)) ∧
  (∀ z y : F32, isZero z = true → isZero y = true → fdiv z y = QNAN) ∧
  (∀ i j : F32, isInf i = true → isInf j = true → fdiv i j = QNAN) ∧
  (∀ a z : F32, isZero z = true → isNaN a = false → isZero a = false →
    fdiv a z = if sgn a = sgn z then POS_INF else NEG_INF) ∧
  (∀ a b : F32, isNaN b = false → isZero b = false → isFinite a = true → (isZero a = true ∨ isInf b = true) →
    fdiv a b = if sgn a = sgn b then C_0 else NEG_ZERO) ∧
  (∀ z a : F32, isZero z = true → isFinite a = true →
    fmul z a = (if sgn z = sgn a then C_0 else NEG_ZERO) ∧ fmul a z = (if sgn z = sgn a then C_0 else NEG_ZERO)) ∧
  (∀ x : F32, isFinite x = true → isZero x = false → fadd x (flipSign x) = C_0 ∧ fsub x x = C_0) ∧
  (fadd C_0 C_0 = C_0 ∧ fsub C_0 NEG_ZERO = C_0 ∧ fadd NEG_ZERO NEG_ZERO = NEG_ZERO ∧ fsub NEG_ZERO C_0 = NEG_ZERO ∧
    fadd C_0 NEG_ZERO = C_0 ∧ fadd NEG_ZERO C_0 = C_0 ∧ fsub C_0 C_0 = C_0 ∧ fsub NEG_ZERO NEG_ZERO = C_0) ∧
  (∀ x z : F32, isFinite x = true → isZero x = false → isZero z = true →
    fadd x z = x ∧ fsub x z = x ∧ fsub z x = flipSign x)

/-- R114, R116: a primitive that returns a NaN returns `QNAN`; `fneg` and `fabs` change bit 31 only, and of a NaN return
`QNAN`. For the functions of `NUM` this is said of the machine's record, which is any lawful one (log 7). -/
def Obligations.NansAreCanonical : Prop :=
  (∀ a b : F32,
    (isNaN (fadd a b) = true → fadd a b = QNAN) ∧ (isNaN (fsub a b) = true → fsub a b = QNAN) ∧
    (isNaN (fmul a b) = true → fmul a b = QNAN) ∧ (isNaN (fdiv a b) = true → fdiv a b = QNAN)) ∧
  (∀ a : F32,
    (isNaN a = true → fneg a = QNAN ∧ fabs a = QNAN) ∧
    (isNaN a = false → sgn (fneg a) = !sgn a ∧ absBits (fneg a) = absBits a ∧
      sgn (fabs a) = false ∧ absBits (fabs a) = absBits a)) ∧
  (∀ a : F32,
    (isNaN (params.num.exp a) = true → params.num.exp a = QNAN) ∧
    (isNaN (params.num.sin a) = true → params.num.sin a = QNAN) ∧
    (isNaN (params.num.pow025 a) = true → params.num.pow025 a = QNAN))

/-- R117: comparisons are of the values; zeros of either sign are equal, infinities lie outside the finite values, a NaN
makes both false. -/
def Obligations.ComparisonsAreOfValues : Prop :=
  (∀ a b : F32, isFinite a = true → isFinite b = true →
    (flt a b = true ↔ value a < value b) ∧ (fle a b = true ↔ value a ≤ value b)) ∧
  (∀ a : F32, isFinite a = true → flt NEG_INF a = true ∧ flt a POS_INF = true ∧ flt a NEG_INF = false ∧
    flt POS_INF a = false ∧ fle NEG_INF a = true ∧ fle a POS_INF = true ∧ fle a NEG_INF = false ∧
    fle POS_INF a = false) ∧
  (flt NEG_INF POS_INF = true ∧ fle NEG_INF POS_INF = true ∧ flt POS_INF NEG_INF = false ∧
    fle POS_INF NEG_INF = false ∧ flt POS_INF POS_INF = false ∧ fle POS_INF POS_INF = true ∧
    flt NEG_INF NEG_INF = false ∧ fle NEG_INF NEG_INF = true) ∧
  (∀ a b : F32, (isNaN a || isNaN b) = true → flt a b = false ∧ fle a b = false)

/-- R121: `fclamp` tests the upper bound first and the lower bound last, and the consequences the rule draws. -/
def Obligations.ClampConsequences : Prop :=
  (∀ v lo hi : F32, fclamp v lo hi = if flt (if flt hi v then hi else v) lo then lo else if flt hi v then hi else v) ∧
  (∀ v lo hi : F32, fle lo hi = true → isNaN v = false →
    (fle lo v = true → fle v hi = true → fclamp v lo hi = v) ∧
    (flt v lo = true → fclamp v lo hi = lo) ∧ (flt hi v = true → fclamp v lo hi = hi)) ∧
  (∀ v lo hi : F32, isNaN v = true → fclamp v lo hi = v) ∧
  (∀ v lo hi : F32, flt hi lo = true → isNaN v = false → fclamp v lo hi = lo) ∧
  (∀ hi : F32, fle C_0 hi = true → fclamp NEG_ZERO C_0 hi = NEG_ZERO) ∧
  (∀ v lo hi : F32, isNaN hi = true → fclamp v lo hi = fmax v lo) ∧
  (∀ v lo hi : F32, isNaN lo = true → fclamp v lo hi = fmin v hi)

/-- R122: `u2f n` is the binary32 value nearest to `n`, exact up to `2^24`. -/
def Obligations.NaturalsConvertToNearest : Prop :=
  ∀ n : Nat, n < 2 ^ 32 → Nearest (n : ℝ) (u2f n) ∧ (n ≤ 2 ^ 24 → value (u2f n) = (n : ℚ))

/-- R123: every named constant is the binary32 value nearest to the source's literal, `π` and `2π` to the real numbers. -/
def Obligations.ConstantsAreNearestToLiterals : Prop :=
  [C_0, C_1, C_NEG1, C_2, C_3, C_0_5, C_0_25, C_0_1, C_0_01, C_1EM4, C_NEG_6_9078, PI, TWO_PI, NEG_TWO_PI] =
    [0x00000000#32, 0x3F800000#32, 0xBF800000#32, 0x40000000#32, 0x40400000#32, 0x3F000000#32, 0x3E800000#32,
      0x3DCCCCCD#32, 0x3C23D70A#32, 0x38D1B717#32, 0xC0DD0CB3#32, 0x40490FDB#32, 0x40C90FDB#32, 0xC0C90FDB#32] ∧
  Nearest 0 C_0 ∧ Nearest 1 C_1 ∧ Nearest (-1) C_NEG1 ∧ Nearest 2 C_2 ∧ Nearest 3 C_3 ∧ Nearest (1 / 2) C_0_5 ∧
  Nearest (1 / 4) C_0_25 ∧ Nearest (1 / 10) C_0_1 ∧ Nearest (1 / 100) C_0_01 ∧ Nearest (1 / 10000) C_1EM4 ∧
  Nearest (-(69078 / 10000)) C_NEG_6_9078 ∧ Nearest Real.pi PI ∧ Nearest (2 * Real.pi) TWO_PI ∧
  Nearest (-(2 * Real.pi)) NEG_TWO_PI ∧ TWO_PI = fmul C_2 PI

/-! ## The transcendental functions -/

/-- R126, R127, R128 of the machine's `NUM`: every named property (`NumLawful`), and, drawn from them, the special values and
the ranges. The record is any one with the properties (log 7); "faithful" is read as log 8 says. -/
def Obligations.MachineNumHasSpecialValuesAndRanges : Prop :=
  NumLawful params.num ∧
  (∀ x : F32, isNaN x = true → params.num.exp x = QNAN ∧ params.num.sin x = QNAN ∧ params.num.pow025 x = QNAN) ∧
  (params.num.exp POS_INF = POS_INF ∧ params.num.exp NEG_INF = C_0 ∧ params.num.exp C_0 = C_1 ∧
    params.num.exp NEG_ZERO = C_1) ∧
  (∀ x : F32, isNaN x = false → isNaN (params.num.exp x) = false ∧ sgn (params.num.exp x) = false) ∧
  (∀ x : F32, fle x C_0 = true → fle C_0 (params.num.exp x) = true ∧ fle (params.num.exp x) C_1 = true) ∧
  (∀ x : F32, fle C_0 x = true → fle C_1 (params.num.exp x) = true) ∧
  (params.num.sin POS_INF = QNAN ∧ params.num.sin NEG_INF = QNAN ∧ params.num.sin C_0 = C_0 ∧
    params.num.sin NEG_ZERO = NEG_ZERO) ∧
  (∀ x : F32, isFinite x = true → fle C_NEG1 (params.num.sin x) = true ∧ fle (params.num.sin x) C_1 = true) ∧
  (params.num.pow025 POS_INF = POS_INF ∧ params.num.pow025 C_0 = C_0 ∧ params.num.pow025 NEG_ZERO = C_0 ∧
    params.num.pow025 C_1 = C_1) ∧
  (∀ x : F32, flt x C_0 = true → params.num.pow025 x = QNAN) ∧
  (∀ x : F32, fle C_0 x = true → fle x C_1 = true →
    fle C_0 (params.num.pow025 x) = true ∧ fle (params.num.pow025 x) C_1 = true)

/-- What the rules draw from R126, R127, R128, of every lawful record ("faithful" read as log 8 says): the range of `exp` on
either side of zero, the range and the sign of `sin` up to `PI/2`, the range of the fourth root up to 1 and from 1 on, and its
exactness wherever the root is a binary32 value ("so it is exact when `r` is representable"). -/
def Obligations.LawfulNumHasRangesAndExactRoots : Prop :=
  ∀ n : NumRec, NumLawful n →
    (∀ x : F32, fle x C_0 = true → fle C_0 (n.exp x) = true ∧ fle (n.exp x) C_1 = true) ∧
    (∀ x : F32, fle C_0 x = true → fle C_1 (n.exp x) = true) ∧
    (∀ x : F32, fle C_0 x = true → fle x HALF_PI = true → fle C_0 (n.sin x) = true ∧ fle (n.sin x) C_1 = true) ∧
    (∀ x : F32, fle (fneg HALF_PI) x = true → fle x C_0 = true → fle C_NEG1 (n.sin x) = true ∧ fle (n.sin x) C_0 = true) ∧
    (∀ x : F32, fle C_0 x = true → fle x C_1 = true → fle C_0 (n.pow025 x) = true ∧ fle (n.pow025 x) C_1 = true) ∧
    (∀ x : F32, isFinite x = true → fle C_1 x = true → fle C_1 (n.pow025 x) = true ∧ fle (n.pow025 x) 0x4F800000#32 = true) ∧
    (∀ x p : F32, isFinite x = true → isFinite p = true → flt C_0 p = true → value p ^ 4 = value x → n.pow025 x = p)

/-! ## Consequences the rules of the families draw -/

/-- R174: for a finite `fs > 0` and `f ≥ +0.0` the coefficients of `LP.SET_FREQ f` lie in `[+0.0, 1.0]`. -/
def Obligations.LpCoefficientsLieInUnitInterval : Prop :=
  ∀ (f : F32) (s : State), s.lp.live = true → isFinite s.lp.fs = true → flt C_0 s.lp.fs = true → fle C_0 f = true →
    ∃ t a0 b1, exec (.lpSetFreq f) s = .next t ∧ t.lp.a0 = some a0 ∧ t.lp.b1 = some b1 ∧
      fle C_0 b1 = true ∧ fle b1 C_1 = true ∧ fle C_0 a0 = true ∧ fle a0 C_1 = true

/-- R198: the three setters of the state-variable filter in any order end in the same state, and then `SVF.PROCESS` is
accepted. -/
def Obligations.SvfSetterOrderIsFree : Prop :=
  ∀ (f r d : F32) (s : State) (l : List Instr), s.svf.live = true →
    l.Perm [.svfSetFreq f, .svfSetRes r, .svfSetDrive d] →
      ∃ t, execAll l s = .next t ∧ execAll [.svfSetFreq f, .svfSetRes r, .svfSetDrive d] s = .next t ∧
        t.processable .svf = true

/-- R196: `SVF.SET_FREQ -0.0` with a finite `fs > 0` writes `freq = -0.0`, and `damp = -inf` when a resonance in `[0, 1]`
is set. -/
def Obligations.SvfNegativeZeroCutoff : Prop :=
  ∀ (s : State), s.svf.live = true → isFinite s.svf.fs = true → flt C_0 s.svf.fs = true →
    ∃ t, exec (.svfSetFreq NEG_ZERO) s = .next t ∧ t.svf.freq = some NEG_ZERO ∧
      (∀ r, s.svf.resonance = some r → fle C_0 r = true → fle r C_1 = true → t.svf.damp = some NEG_INF)

/-- R195, the part that needs no rounding property of `sin`: with `freq` in `[+0.0, 1.0]` and `resonance` in `[0, 1]`,
`damp` lies in `[0, 2]`; with `pre_drive` in `[0, 0.1]`, `drive` lies in `[0, 0.1]`. -/
def Obligations.SvfDampAndDriveRanges : Prop :=
  ∀ freq res pre : F32, sgn freq = false → fle freq C_1 = true → fle C_0 res = true → fle res C_1 = true →
    fle C_0 pre = true → fle pre C_0_1 = true →
      (fle C_0 (dampOf params freq res) = true ∧ fle (dampOf params freq res) C_2 = true) ∧
      (fle C_0 (fmul pre res) = true ∧ fle (fmul pre res) C_0_1 = true)

/-- R307: with a buffer so short that `max_loop_time` is below `0.0001`, `SP.SET_FREQ` always yields `0.0001`. -/
def Obligations.SpShortBufferForcesMinimumLoopTime : Prop :=
  ∀ (x : F32) (s : State), s.sp.live = true → flt s.sp.maxLoopTime C_1EM4 = true → isNaN x = false →
      ∃ t, exec (.spSetFreq x) s = .next t ∧ t.sp.loopTime = some C_1EM4

/-- R221: a reverb time of zero, with a finite loop time of at least `0.0001`. -/
def Obligations.SpZeroReverbTime : Prop :=
  ∀ (s : State) (lt : F32), s.sp.live = true → s.sp.loopTime = some lt → isFinite lt = true → fle C_1EM4 lt = true →
    (∃ t, exec (.spSetRt C_0) s = .next t ∧ t.sp.coef = some C_0) ∧
    (∃ t, exec (.spSetRt NEG_ZERO) s = .next t ∧ t.sp.coef = some POS_INF)

/-- R302: a NaN in the recursive state stays: `LP.z1`, an accumulator of the state-variable filter that its next PROCESS reads
(`low_pass`, `band_pass`, `previous`; the taps then read `QNAN`), and the cell under the cursor of `AP` and of `SP`. -/
def Obligations.NanIsStickyInRecursiveState : Prop :=
  (∀ (x a0 b1 : F32) (s : State), s.lp.live = true → s.lp.a0 = some a0 → s.lp.b1 = some b1 → isNaN s.lp.z1 = true →
    ∃ t, exec (.lpProcess x) s = .next t ∧ t.lp.z1 = QNAN ∧ t.port.rsp = some (0x00#8 ++ QNAN)) ∧
  (∀ (x freq damp drive : F32) (s : State), s.svf.live = true → s.svf.freq = some freq → s.svf.damp = some damp →
    s.svf.drive = some drive →
    (isNaN s.svf.lowPass = true ∨ isNaN s.svf.bandPass = true ∨ isNaN s.svf.previous = true) →
    ∃ t, exec (.svfProcess x) s = .next t ∧
      t.svf.lowPass = QNAN ∧ t.svf.highPass = QNAN ∧ t.svf.bandPass = QNAN ∧ t.svf.notch = QNAN ∧
      t.svf.outLowPass = QNAN ∧ t.svf.outHighPass = QNAN ∧ t.svf.outBandPass = QNAN ∧ t.svf.outNotch = QNAN ∧
      t.svf.outPeak = QNAN) ∧
  (∀ (x k1 : F32) (s : State), s.ap.live = true → s.ap.k1 = some k1 → s.ap.line.index.toNat < params.len .ap →
    isNaN (Memory.sample params .ap s.ap.line.mem s.ap.line.index.toNat) = true →
    ∃ t, exec (.apProcess x) s = .next t ∧ t.port.rsp = some (0x00#8 ++ QNAN) ∧
      Memory.sample params .ap t.ap.line.mem s.ap.line.index.toNat = QNAN) ∧
  (∀ (x coef : F32) (s : State), s.sp.live = true → s.sp.coef = some coef → s.sp.line.index.toNat < params.len .sp →
    isNaN (Memory.sample params .sp s.sp.line.mem s.sp.line.index.toNat) = true →
    ∃ t, exec (.spProcess x) s = .next t ∧ t.port.rsp = some (0x00#8 ++ QNAN) ∧
      Memory.sample params .sp t.sp.line.mem s.sp.line.index.toNat = QNAN)

/-- R39: with `0 ≤ phase_increment ≤ 2π` and a phase in `[0, TWO_PI]`, `OSC.PROCESS` leaves the phase in `[0, TWO_PI]`; and
`OSC.SET_PHASE` of an operand that is no NaN puts it there. -/
def Obligations.OscPhaseStaysInRange : Prop :=
  (∀ (s t : State) (inc : F32), s.osc.phaseIncrement = some inc → fle C_0 inc = true → fle inc TWO_PI = true →
    fle C_0 s.osc.phase = true → fle s.osc.phase TWO_PI = true → exec .oscProcess s = .next t →
      fle C_0 t.osc.phase = true ∧ fle t.osc.phase TWO_PI = true) ∧
  (∀ (p : F32) (s : State), s.osc.live = true → isNaN p = false →
    ∃ t, exec (.oscSetPhase p) s = .next t ∧ fle C_0 t.osc.phase = true ∧ fle t.osc.phase TWO_PI = true)

/-- R255 for codes 0 to 4 of the default instance over the machine's `NUM`: the shape value lies in `[-1, 1]` for a phase in
`[0, TWO_PI]` (the default instance of log 10). -/
def Obligations.DefaultPlainShapesLieInUnitRange : Prop :=
  ∀ phase : F32, fle C_0 phase = true → fle phase TWO_PI = true →
    ∀ v ∈ [(defaultShape params.num).sine phase, (defaultShape params.num).tri phase, (defaultShape params.num).saw phase,
      (defaultShape params.num).ramp phase, (defaultShape params.num).square phase],
      fle C_NEG1 v = true ∧ fle v C_1 = true

/-- R243: with `dt = +0.0` the correction is `+0.0` for every `t` in `[0, 1]` (the default instance of log 10). -/
def Obligations.PolyBlepIsZeroAtZeroIncrement : Prop :=
  ∀ t : F32, fle C_0 t = true → fle t C_1 = true → polyBlep C_0 t = C_0

/-- R195: with a finite `fs > 0` and an operand that is neither a NaN nor `-0.0`, what the setters of the state-variable
filter store. `freq` lies in `[+0.0, 1.0]` "up to the last place" (at most `0x3F800001`) for every `fs` from `2^-124` on, where
`fs/3` is no subnormal number; below that the rounding of `fs/3` can carry it further, and the bound is the one of
`m ≤ 0.25` (R184), `2·sin(π/4)` up to the last place. `damp` lies in `[0, 2]` with either bound. That `freq` has no
sign, so that it is `+0.0` where it is zero, rests on the reading of "faithful" in log 8. -/
def Obligations.SvfParameterRanges : Prop :=
  ∀ s : State, s.svf.live = true → isFinite s.svf.fs = true → flt C_0 s.svf.fs = true →
    (∀ f : F32, isNaN f = false → f ≠ NEG_ZERO →
      ∃ t freq, exec (.svfSetFreq f) s = .next t ∧ t.svf.freq = some freq ∧
        sgn freq = false ∧ fle C_0 freq = true ∧ fle freq 0x3FB504F4#32 = true ∧
        (fle 0x01800000#32 s.svf.fs = true → fle freq 0x3F800001#32 = true) ∧
        (∀ r, s.svf.resonance = some r → fle C_0 r = true → fle r C_1 = true →
          ∃ damp, t.svf.damp = some damp ∧ fle C_0 damp = true ∧ fle damp C_2 = true)) ∧
    (∀ r : F32, isNaN r = false → r ≠ NEG_ZERO →
      ∃ t res, exec (.svfSetRes r) s = .next t ∧ t.svf.resonance = some res ∧ fle C_0 res = true ∧ fle res C_1 = true ∧
        (∀ freq, s.svf.freq = some freq → sgn freq = false → fle freq 0x3FB504F4#32 = true →
          ∃ damp, t.svf.damp = some damp ∧ fle C_0 damp = true ∧ fle damp C_2 = true) ∧
        (∀ p, s.svf.preDrive = some p → fle C_0 p = true → fle p C_0_1 = true →
          ∃ drive, t.svf.drive = some drive ∧ fle C_0 drive = true ∧ fle drive C_0_1 = true)) ∧
    (∀ d : F32, isNaN d = false → d ≠ NEG_ZERO →
      ∃ t pre, exec (.svfSetDrive d) s = .next t ∧ t.svf.preDrive = some pre ∧ fle C_0 pre = true ∧ fle pre C_0_1 = true ∧
        (∀ r, s.svf.resonance = some r → fle C_0 r = true → fle r C_1 = true →
          ∃ drive, t.svf.drive = some drive ∧ fle C_0 drive = true ∧ fle drive C_0_1 = true))
end

