-- ==== Sys2Proof/Laws/Memory.lean ====
section
/-! SUPPORT. The memory operations: a read after a write, and the canonical form, which every operation keeps. -/

namespace Sys2Proof.Machine

theorem lookup_erase (m : Memory) (a c : Nat) :
    Memory.lookup (Memory.erase m a) c = if c = a then none else Memory.lookup m c := by
  induction m with
  | nil => simp [Memory.erase, Memory.lookup]
  | cons e m ih =>
    obtain ⟨b, w⟩ := e
    by_cases hab : a = b
    · subst hab
      by_cases hc : c = a
      · subst hc
        simp [Memory.erase, ih]
      · simp [Memory.erase, Memory.lookup, ih, hc]
    · by_cases hc : c = a
      · subst hc
        simp [Memory.erase, Memory.lookup, ih, hab]
      · simp [Memory.erase, Memory.lookup, ih, hab, hc]

theorem lookup_insert (m : Memory) (a : Nat) (v : F32) (c : Nat) :
    Memory.lookup (Memory.insert m a v) c = if c = a then some v else Memory.lookup m c := by
  induction m with
  | nil => simp [Memory.insert, Memory.lookup]
  | cons e m ih =>
    obtain ⟨b, w⟩ := e
    by_cases hlt : a < b
    · simp [Memory.insert, Memory.lookup, hlt]
    · by_cases hab : a = b
      · subst hab
        by_cases hc : c = a <;> simp [Memory.insert, Memory.lookup, hc]
      · by_cases hc : c = a
        · subst hc
          simp [Memory.insert, Memory.lookup, ih, hlt, hab]
        · simp [Memory.insert, Memory.lookup, ih, hlt, hab, hc]

/-- A sample of a list that does not list its address is `BUF_INIT` (R62, R66). -/
@[simp] theorem sample_nil (P : Params) (b : Buf) (a : Nat) : Memory.sample P b [] a = P.bufInit b a := rfl

theorem risingFrom_mono {lo lo' : Nat} (h : lo' ≤ lo) {m : Memory} (hm : Memory.risingFrom lo m = true) :
    Memory.risingFrom lo' m = true := by
  cases m with
  | nil => rfl
  | cons e m =>
    simp only [Memory.risingFrom, Bool.and_eq_true, decide_eq_true_eq] at hm ⊢
    exact ⟨h.trans hm.1, hm.2⟩

theorem risingFrom_erase {lo : Nat} {m : Memory} (hm : Memory.risingFrom lo m = true) (a : Nat) :
    Memory.risingFrom lo (Memory.erase m a) = true := by
  induction m generalizing lo with
  | nil => rfl
  | cons e m ih =>
    simp only [Memory.risingFrom, Bool.and_eq_true, decide_eq_true_eq] at hm
    by_cases hab : a = e.1
    · simpa [Memory.erase, hab] using ih (risingFrom_mono (by omega) hm.2)
    · simpa [Memory.erase, hab, Memory.risingFrom] using ⟨hm.1, ih hm.2⟩

theorem risingFrom_insert {lo : Nat} {m : Memory} (hm : Memory.risingFrom lo m = true) {a : Nat} (ha : lo ≤ a)
    (v : F32) : Memory.risingFrom lo (Memory.insert m a v) = true := by
  induction m generalizing lo with
  | nil => simpa [Memory.insert, Memory.risingFrom] using ha
  | cons e m ih =>
    obtain ⟨b, w⟩ := e
    simp only [Memory.risingFrom, Bool.and_eq_true, decide_eq_true_eq] at hm
    by_cases hlt : a < b
    · simp only [Memory.insert, hlt, if_true, Memory.risingFrom, Bool.and_eq_true, decide_eq_true_eq]
      exact ⟨ha, hlt, hm.2⟩
    · by_cases hab : a = b
      · subst hab
        simp only [Memory.insert, hlt, if_true, if_false, Memory.risingFrom, Bool.and_eq_true, decide_eq_true_eq]
        exact hm
      · have hba : b + 1 ≤ a := by omega
        simp only [Memory.insert, hlt, hab, if_false, Memory.risingFrom, Bool.and_eq_true, decide_eq_true_eq]
        exact ⟨hm.1, ih hm.2 hba⟩

theorem mem_erase {m : Memory} {a : Nat} {c : Nat × F32} (h : c ∈ Memory.erase m a) : c ∈ m := by
  induction m with
  | nil => simp [Memory.erase] at h
  | cons e m ih =>
    by_cases hab : a = e.1
    · simp only [Memory.erase, hab, if_true] at h
      exact List.mem_cons_of_mem _ (ih (by rwa [hab]))
    · simp only [Memory.erase, hab, if_false, List.mem_cons] at h
      rcases h with h | h
      · exact h ▸ List.mem_cons_self
      · exact List.mem_cons_of_mem _ (ih h)

theorem mem_insert {m : Memory} {a : Nat} {v : F32} {c : Nat × F32} (h : c ∈ Memory.insert m a v) :
    c = (a, v) ∨ c ∈ m := by
  induction m with
  | nil => simpa [Memory.insert] using h
  | cons e m ih =>
    obtain ⟨b, w⟩ := e
    by_cases hlt : a < b
    · simpa [Memory.insert, hlt] using h
    · by_cases hab : a = b
      · simp only [Memory.insert, hab, if_true, if_false, lt_self_iff_false, List.mem_cons] at h
        rcases h with h | h
        · exact .inl (by rw [h, hab])
        · exact .inr (List.mem_cons_of_mem _ h)
      · simp only [Memory.insert, hlt, hab, if_false, List.mem_cons] at h
        rcases h with h | h
        · exact .inr (h ▸ List.mem_cons_self)
        · exact (ih h).imp id (List.mem_cons_of_mem _)

/-- The canonical form, as a fact about the entries. -/
theorem wf_iff (P : Params) (b : Buf) (m : Memory) :
    Memory.wf P b m = true ↔
      Memory.risingFrom 0 m = true ∧ ∀ c ∈ m, c.1 < P.len b ∧ c.2 ≠ P.bufInit b c.1 := by
  simp [Memory.wf]

/-- Reset's memory has the canonical form. -/
@[simp] theorem wf_nil (P : Params) (b : Buf) : Memory.wf P b [] = true := rfl

/-- Every write keeps the canonical form. -/
theorem wf_store {P : Params} {b : Buf} {m : Memory} (h : Memory.wf P b m = true) {a : Nat} (ha : a < P.len b)
    (v : F32) : Memory.wf P b (Memory.store P b m a v) = true := by
  rw [wf_iff] at h ⊢
  obtain ⟨hr, hm⟩ := h
  unfold Memory.store
  split
  · exact ⟨risingFrom_erase hr a, fun c hc => hm c (mem_erase hc)⟩
  · refine ⟨risingFrom_insert hr (Nat.zero_le a) v, fun c hc => ?_⟩
    rcases mem_insert hc with rfl | hc
    · exact ⟨ha, by assumption⟩
    · exact hm c hc

/-- `memRead` answers exactly for the addresses that exist (R61, R62). -/
theorem memRead_ok_iff {P : Params} {b : Buf} {m : Memory} {a : Nat} {v : F32} :
    memRead P b m a = .ok v ↔ a < P.len b ∧ v = Memory.sample P b m a := by
  unfold memRead
  split <;> simp_all [eq_comm]

/-- `memWrite` answers exactly for the addresses that exist (R61, R63). -/
theorem memWrite_ok_iff {P : Params} {b : Buf} {m m' : Memory} {a : Nat} {v : F32} :
    memWrite P b m a v = .ok m' ↔ a < P.len b ∧ m' = Memory.store P b m a v := by
  unfold memWrite
  split <;> simp_all [eq_comm]

/-- A memory operation stops only with the fault that names the sample. -/
theorem memRead_error {P : Params} {b : Buf} {m : Memory} {a : Nat} {f : Fault} (h : memRead P b m a = .error f) :
    f = .noSample b a ∧ P.len b ≤ a := by
  unfold memRead at h
  split at h <;> simp_all

theorem memWrite_error {P : Params} {b : Buf} {m : Memory} {a : Nat} {v : F32} {f : Fault}
    (h : memWrite P b m a v = .error f) : f = .noSample b a ∧ P.len b ≤ a := by
  unfold memWrite at h
  split at h <;> simp_all

end Sys2Proof.Machine
end

