-- ==== Sys2Proof/Laws/State.lean ====
section
/-! SUPPORT. One lemma per field per update of the state, each true by `rfl`: later proofs unfold no record update. -/

namespace Sys2Proof.Machine

@[simp] theorem respond_dl (s : State) (v : BitVec 32) : (s.respond v).dl = s.dl := rfl
@[simp] theorem respond_lp (s : State) (v : BitVec 32) : (s.respond v).lp = s.lp := rfl
@[simp] theorem respond_svf (s : State) (v : BitVec 32) : (s.respond v).svf = s.svf := rfl
@[simp] theorem respond_ap (s : State) (v : BitVec 32) : (s.respond v).ap = s.ap := rfl
@[simp] theorem respond_sp (s : State) (v : BitVec 32) : (s.respond v).sp = s.sp := rfl
@[simp] theorem respond_osc (s : State) (v : BitVec 32) : (s.respond v).osc = s.osc := rfl
@[simp] theorem respond_rsp (s : State) (v : BitVec 32) : (s.respond v).port.rsp = some (rspWord .ok v) := rfl
@[simp] theorem respond_inputs (s : State) (v : BitVec 32) : (s.respond v).port.inputs = s.port.inputs := rfl

@[simp] theorem refuse_dl (s : State) (st : Status) : (s.refuse st).dl = s.dl := rfl
@[simp] theorem refuse_lp (s : State) (st : Status) : (s.refuse st).lp = s.lp := rfl
@[simp] theorem refuse_svf (s : State) (st : Status) : (s.refuse st).svf = s.svf := rfl
@[simp] theorem refuse_ap (s : State) (st : Status) : (s.refuse st).ap = s.ap := rfl
@[simp] theorem refuse_sp (s : State) (st : Status) : (s.refuse st).sp = s.sp := rfl
@[simp] theorem refuse_osc (s : State) (st : Status) : (s.refuse st).osc = s.osc := rfl
@[simp] theorem refuse_rsp (s : State) (st : Status) : (s.refuse st).port.rsp = some (rspWord st 0#32) := rfl
@[simp] theorem refuse_inputs (s : State) (st : Status) : (s.refuse st).port.inputs = s.port.inputs := rfl

@[simp] theorem answered_dl (s : State) (w : RspWord) : (s.answered w).dl = s.dl := rfl
@[simp] theorem answered_lp (s : State) (w : RspWord) : (s.answered w).lp = s.lp := rfl
@[simp] theorem answered_svf (s : State) (w : RspWord) : (s.answered w).svf = s.svf := rfl
@[simp] theorem answered_ap (s : State) (w : RspWord) : (s.answered w).ap = s.ap := rfl
@[simp] theorem answered_sp (s : State) (w : RspWord) : (s.answered w).sp = s.sp := rfl
@[simp] theorem answered_osc (s : State) (w : RspWord) : (s.answered w).osc = s.osc := rfl
@[simp] theorem answered_rsp (s : State) (w : RspWord) : (s.answered w).port.rsp = some w := rfl
@[simp] theorem answered_inputs (s : State) (w : RspWord) : (s.answered w).port.inputs = s.port.inputs := rfl

/-- Completing and refusing are answering with the word of R84. -/
theorem respond_eq_answered (s : State) (v : BitVec 32) : s.respond v = s.answered (0x00#8 ++ v) := rfl

/-- The three refusal words (R270, R271). -/
theorem refuse_eq_answered (s : State) (st : Status) : s.refuse st = s.answered (st.code ++ 0#32) := rfl

@[simp] theorem withInputs_dl (s : State) (is : List HostInput) : (s.withInputs is).dl = s.dl := rfl
@[simp] theorem withInputs_lp (s : State) (is : List HostInput) : (s.withInputs is).lp = s.lp := rfl
@[simp] theorem withInputs_svf (s : State) (is : List HostInput) : (s.withInputs is).svf = s.svf := rfl
@[simp] theorem withInputs_ap (s : State) (is : List HostInput) : (s.withInputs is).ap = s.ap := rfl
@[simp] theorem withInputs_sp (s : State) (is : List HostInput) : (s.withInputs is).sp = s.sp := rfl
@[simp] theorem withInputs_osc (s : State) (is : List HostInput) : (s.withInputs is).osc = s.osc := rfl
@[simp] theorem withInputs_rsp (s : State) (is : List HostInput) : (s.withInputs is).port.rsp = s.port.rsp := rfl
@[simp] theorem withInputs_inputs (s : State) (is : List HostInput) : (s.withInputs is).port.inputs = is := rfl

@[simp] theorem takeResponse_dl (s : State) : s.takeResponse.dl = s.dl := rfl
@[simp] theorem takeResponse_lp (s : State) : s.takeResponse.lp = s.lp := rfl
@[simp] theorem takeResponse_svf (s : State) : s.takeResponse.svf = s.svf := rfl
@[simp] theorem takeResponse_ap (s : State) : s.takeResponse.ap = s.ap := rfl
@[simp] theorem takeResponse_sp (s : State) : s.takeResponse.sp = s.sp := rfl
@[simp] theorem takeResponse_osc (s : State) : s.takeResponse.osc = s.osc := rfl
@[simp] theorem takeResponse_rsp (s : State) : s.takeResponse.port.rsp = none := rfl
@[simp] theorem takeResponse_inputs (s : State) : s.takeResponse.port.inputs = s.port.inputs := rfl

@[simp] theorem presentWord_dl (s : State) (w : CmdWord) : (s.presentWord w).dl = s.dl := rfl
@[simp] theorem presentWord_lp (s : State) (w : CmdWord) : (s.presentWord w).lp = s.lp := rfl
@[simp] theorem presentWord_svf (s : State) (w : CmdWord) : (s.presentWord w).svf = s.svf := rfl
@[simp] theorem presentWord_ap (s : State) (w : CmdWord) : (s.presentWord w).ap = s.ap := rfl
@[simp] theorem presentWord_sp (s : State) (w : CmdWord) : (s.presentWord w).sp = s.sp := rfl
@[simp] theorem presentWord_osc (s : State) (w : CmdWord) : (s.presentWord w).osc = s.osc := rfl
@[simp] theorem presentWord_rsp (s : State) (w : CmdWord) : (s.presentWord w).port.rsp = none := rfl
@[simp] theorem presentWord_inputs (s : State) (w : CmdWord) :
    (s.presentWord w).port.inputs = .command w :: s.port.inputs := rfl

@[simp] theorem afterReset_dl (s : State) : s.afterReset.dl = Dl.afterReset s.dl.line.mem := rfl
@[simp] theorem afterReset_lp (s : State) : s.afterReset.lp = Lp.afterReset := rfl
@[simp] theorem afterReset_svf (s : State) : s.afterReset.svf = Svf.afterReset := rfl
@[simp] theorem afterReset_ap (s : State) : s.afterReset.ap = Ap.afterReset s.ap.line.mem := rfl
@[simp] theorem afterReset_sp (s : State) : s.afterReset.sp = Sp.afterReset s.sp.line.mem := rfl
@[simp] theorem afterReset_osc (s : State) : s.afterReset.osc = Osc.afterReset := rfl
@[simp] theorem afterReset_rsp (s : State) : s.afterReset.port.rsp = none := rfl
@[simp] theorem afterReset_inputs (s : State) : s.afterReset.port.inputs = s.port.inputs := rfl

/-- `rsp_valid` and `cmd_ready` exclude each other (R81). -/
theorem cmdReady_eq_not_rspValid (s : State) : s.cmdReady = !s.rspValid := by
  unfold State.cmdReady State.rspValid
  cases s.port.rsp <;> rfl

/-- The state is its port and its units. -/
theorem State.ext_units {s t : State} (hp : s.port = t.port) (h : ∀ u, SameUnit u s t) : s = t := by
  cases s
  cases t
  have h1 := h .dl
  have h2 := h .lp
  have h3 := h .svf
  have h4 := h .ap
  have h5 := h .sp
  have h6 := h .osc
  simp only [SameUnit] at h1 h2 h3 h4 h5 h6
  simp_all

end Sys2Proof.Machine
end

