-- ==== Sys2Proof/Laws/Ops.lean ====
section
/-! SUPPORT. One lemma for each shared operation, saying once what it can do. -/

namespace Sys2Proof.Machine

/-! ## Cursors and delay lines -/

/-- `(index + 1) mod N` is a cursor of a buffer of length `N` (R130). -/
theorem nextIndex_toNat {n : Nat} (hn : 1 ≤ n) (h32 : n < 2 ^ 32) (i : U32) :
    (nextIndex n i).toNat = (i.toNat + 1) % n := by
  have := Nat.mod_lt (i.toNat + 1) (show 0 < n by omega)
  simp only [nextIndex, BitVec.toNat_ofNat]
  exact Nat.mod_eq_of_lt (by omega)

theorem nextIndex_lt {n : Nat} (hn : 1 ≤ n) (h32 : n < 2 ^ 32) (i : U32) : (nextIndex n i).toNat < n := by
  rw [nextIndex_toNat hn h32]
  exact Nat.mod_lt _ (by omega)

/-- `dl_read` answers the sample at the cursor (R152). -/
theorem lineRead_ok_iff {P : Params} {b : Buf} {d : DelayLine} {v : F32} :
    lineRead P b d = .ok v ↔ d.index.toNat < P.len b ∧ v = Memory.sample P b d.mem d.index.toNat :=
  memRead_ok_iff

/-- `dl_write` stores at the old cursor and advances it (R153). -/
theorem lineWrite_ok_iff {P : Params} {b : Buf} {d d' : DelayLine} {x : F32} :
    lineWrite P b d x = .ok d' ↔ d.index.toNat < P.len b ∧
      d' = { index := nextIndex (P.len b) d.index, mem := Memory.store P b d.mem d.index.toNat x } := by
  unfold lineWrite
  cases h : memWrite P b d.mem d.index.toNat x with
  | error f =>
    have := (memWrite_error h).2
    simp only [reduceCtorEq, false_iff, not_and]
    omega
  | ok m =>
    obtain ⟨hlt, rfl⟩ := memWrite_ok_iff.1 h
    simp only [Except.ok.injEq, hlt, true_and]
    exact eq_comm

/-- `dl_get` always answers: the index is taken modulo `N` (R154). -/
theorem lineGet_eq (P : Params) (b : Buf) (d : DelayLine) (i : Nat) :
    lineGet P b d i = .ok (Memory.sample P b d.mem (i % P.len b)) := by
  simp [lineGet, memRead, Nat.mod_lt i (P.len_pos b)]

/-- A write keeps a delay line as R28 has it. -/
theorem lineOk_lineWrite {P : Params} {b : Buf} {d d' : DelayLine} {x : F32} (h : LineOk P b d)
    (hw : lineWrite P b d x = .ok d') : LineOk P b d' := by
  obtain ⟨hlt, rfl⟩ := lineWrite_ok_iff.1 hw
  exact ⟨nextIndex_lt (P.len_pos b) (P.len_lt b) _, wf_store h.2 hlt x⟩

/-- A restarted line has its cursor at 0 and its memory as it was (R155). -/
theorem lineOk_lineRestart {P : Params} {b : Buf} {d : DelayLine} (h : LineOk P b d) : LineOk P b (lineRestart d) :=
  ⟨P.len_pos b, h.2⟩

/-- One sample of the all-pass recurrence, where the cursor is in range (R213, R218). -/
theorem allpassTick_eq {P : Params} {b : Buf} {d : DelayLine} (h : d.index.toNat < P.len b) (k x : F32) :
    let z := Memory.sample P b d.mem d.index.toNat
    let out := fadd (fmul k z) x
    allpassTick P b d k x =
      .ok ({ index := nextIndex (P.len b) d.index, mem := Memory.store P b d.mem d.index.toNat out },
        fsub z (fmul k out)) := by
  intro z out
  have hr : lineRead P b d = .ok z := lineRead_ok_iff.2 ⟨h, rfl⟩
  have hw := (lineWrite_ok_iff (x := out)).2 ⟨h, rfl⟩
  simp only [allpassTick, hr]
  rw [hw]

/-- The all-pass recurrence stops only where the sample under the cursor does not exist, and what it answers is a write. -/
theorem allpassTick_ok {P : Params} {b : Buf} {d : DelayLine} {k x : F32} {r : DelayLine × F32}
    (h : allpassTick P b d k x = .ok r) : ∃ out, lineWrite P b d out = .ok r.1 := by
  unfold allpassTick at h
  split at h
  · simp at h
  · rename_i z _
    dsimp only at h
    split at h
    · simp at h
    · rename_i d' hd
      exact ⟨_, by rw [hd, ← Except.ok.inj h]⟩

/-! ## Completing and refusing -/

/-- A command that requires a flag either finds it and goes on, or is refused and changes nothing else (R13, R271). -/
theorem requires_next {c : Bool} {st : Status} {s t : State} {k : Result} (h : requires c st s k = .next t) :
    (c = true ∧ k = .next t) ∨ (c = false ∧ t = s.refuse st) := by
  cases c with
  | true => exact .inl ⟨rfl, h⟩
  | false =>
    refine .inr ⟨rfl, ?_⟩
    simpa [requires, eq_comm] using h

@[simp] theorem requires_true (st : Status) (s : State) (k : Result) : requires true st s k = k := rfl

@[simp] theorem requires_false (st : Status) (s : State) (k : Result) :
    requires false st s k = .next (s.refuse st) := rfl

/-- A command that uses a sample goes on only where the sample exists. -/
theorem withSample_next {α : Type} {r : Except Fault α} {k : α → Result} {t : State}
    (h : withSample r k = .next t) : ∃ a, r = .ok a ∧ k a = .next t := by
  cases r with
  | error f => simp [withSample] at h
  | ok a => exact ⟨a, rfl, h⟩

@[simp] theorem withSample_ok {α : Type} (a : α) (k : α → Result) : withSample (.ok a) k = k a := rfl

/-- The number of a word made of a byte and 32 bits. -/
theorem append8_toNat (a : BitVec 8) (d : BitVec 32) : (a ++ d : BitVec 40).toNat = a.toNat * 2 ^ 32 + d.toNat := by
  have h := BitVec.toNat_append a d
  rw [← Nat.shiftLeft_add_eq_or_of_lt d.isLt, Nat.shiftLeft_eq] at h
  exact h

/-- Bits 39:32 of a word made of a byte and 32 bits (R82, R84). -/
theorem append8_high (a : BitVec 8) (d : BitVec 32) : (a ++ d : BitVec 40).extractLsb' 32 8 = a := by
  apply BitVec.eq_of_toNat_eq
  have ha := a.isLt
  have hd := d.isLt
  rw [BitVec.extractLsb'_toNat, append8_toNat, Nat.shiftRight_eq_div_pow]
  omega

/-- Bits 31:0 of a word made of a byte and 32 bits (R82, R84). -/
theorem append8_low (a : BitVec 8) (d : BitVec 32) : (a ++ d : BitVec 40).extractLsb' 0 32 = d := by
  apply BitVec.eq_of_toNat_eq
  have hd := d.isLt
  rw [BitVec.extractLsb'_toNat, append8_toNat, Nat.shiftRight_zero]
  omega

/-- The status and the data of a response word (R84). -/
theorem rspWord_status (st : Status) (d : BitVec 32) : (rspWord st d).extractLsb' 32 8 = st.code :=
  append8_high st.code d

theorem rspWord_data (st : Status) (d : BitVec 32) : (rspWord st d).extractLsb' 0 32 = d :=
  append8_low st.code d

/-- Every response the operations present is one the block may produce (R270). -/
theorem rspWordOk_ok (d : BitVec 32) : rspWordOk (rspWord .ok d) := by
  simp [rspWordOk, rspWord_status, Status.code]

theorem rspWordOk_refusal (st : Status) : rspWordOk (rspWord st 0#32) := by
  cases st <;> simp [rspWordOk, rspWord_status, rspWord_data, Status.code]

/-- A lifted operation is set exactly when both arguments are (R25). -/
theorem lift2_isSome (g : F32 → F32 → F32) (a b : Option F32) : (lift2 g a b).isSome = (a.isSome && b.isSome) := by
  cases a <;> cases b <;> rfl

end Sys2Proof.Machine
end

