-- ==== Sys2Proof/Laws/Decode.lean ====
section
/-! SUPPORT. The fields of an encoded word, and what the decoder can answer. -/

namespace Sys2Proof

open Sys2Proof.Machine (append8_high append8_low append8_toNat)

/-- The opcode byte and the operand of a word made of the two (R82). -/
@[simp] theorem cmdOpc_append (a : BitVec 8) (d : BitVec 32) : cmdOpc (a ++ d) = a := append8_high a d

@[simp] theorem cmdOperand_append (a : BitVec 8) (d : BitVec 32) : cmdOperand (a ++ d) = d := append8_low a d

@[simp] theorem cmdOpc_encode (i : Instr) : cmdOpc (encode i) = i.opc := cmdOpc_append _ _

@[simp] theorem cmdOperand_encode (i : Instr) : cmdOperand (encode i) = i.operand := cmdOperand_append _ _

/-- `unit` and `fn` are the halves of the opcode byte (R82). -/
theorem cmdUnit_toNat (w : CmdWord) : (cmdUnit w).toNat = (cmdOpc w).toNat / 16 := by
  have := w.isLt
  simp only [cmdUnit, cmdOpc, BitVec.extractLsb'_toNat, Nat.shiftRight_eq_div_pow]
  omega

theorem cmdFn_toNat (w : CmdWord) : (cmdFn w).toNat = (cmdOpc w).toNat % 16 := by
  have := w.isLt
  simp only [cmdFn, cmdOpc, BitVec.extractLsb'_toNat, Nat.shiftRight_eq_div_pow]
  omega

/-- A word is its opcode byte and its operand (R82). -/
theorem opc_append_operand (w : CmdWord) : (cmdOpc w ++ cmdOperand w : CmdWord) = w := by
  apply BitVec.eq_of_toNat_eq
  have := w.isLt
  rw [append8_toNat]
  simp only [cmdOperand, cmdOpc, BitVec.extractLsb'_toNat, Nat.shiftRight_eq_div_pow]
  omega

/-- The decoder reads a word through its opcode byte and its operand alone (R85). -/
theorem decode_eq (w : CmdWord) :
    decode w = decodeFields ((cmdOpc w).toNat / 16) ((cmdOpc w).toNat % 16) (cmdOperand w) := by
  rw [decode, cmdUnit_toNat, cmdFn_toNat]

theorem decode_append (a : BitVec 8) (d : BitVec 32) :
    decode (a ++ d) = decodeFields (a.toNat / 16) (a.toNat % 16) d := by
  rw [decode_eq, cmdOpc_append, cmdOperand_append]

/-- Format `Z` accepts the zero operand alone (R83). -/
theorem decodeZ_ok_iff {op : BitVec 32} {i j : Instr} : decodeZ op i = .ok j ↔ op = 0#32 ∧ j = i := by
  unfold decodeZ
  split
  · rename_i h
    exact ⟨fun e => ⟨h, (Except.ok.inj e).symm⟩, fun e => by rw [e.2]⟩
  · rename_i h
    exact ⟨fun e => by simp at e, fun e => absurd e.1 h⟩

/-- Format `W` accepts operands up to 7 alone (R83). -/
theorem decodeW_ok_iff {op : BitVec 32} {k : U32 → Instr} {j : Instr} :
    decodeW op k = .ok j ↔ waveOperandOk op = true ∧ j = k op := by
  unfold decodeW
  split
  · rename_i h
    exact ⟨fun e => ⟨h, (Except.ok.inj e).symm⟩, fun e => by rw [e.2]⟩
  · rename_i h
    exact ⟨fun e => by simp at e, fun e => absurd e.1 h⟩

/-- Bitwise and of two words, by the opcode byte and the operand. -/
theorem append8_and (a b : BitVec 8) (c d : BitVec 32) : 
    ((a ++ c : BitVec 40) &&& (b ++ d)) = ((a &&& b) ++ (c &&& d) : BitVec 40) := by
  apply BitVec.eq_of_getLsbD_eq
  intro i hi
  simp only [BitVec.getLsbD_and, BitVec.getLsbD_append]
  split <;> rfl

/-- Two words are equal when their bytes and their operands are. -/
theorem append8_inj (a b : BitVec 8) (c d : BitVec 32) : (a ++ c : BitVec 40) = b ++ d ↔ a = b ∧ c = d := by
  constructor
  · intro h
    have h1 := congrArg (fun w => BitVec.extractLsb' 32 8 w) h
    have h2 := congrArg (fun w => BitVec.extractLsb' 0 32 w) h
    simp only [append8_high, append8_low] at h1 h2
    exact ⟨h1, h2⟩
  · rintro ⟨rfl, rfl⟩; rfl

theorem and_allOnes8 (a : BitVec 8) : a &&& 0xFF#8 = a := BitVec.and_allOnes

/-- Operand bits 31 to 3 are zero exactly when the operand is at most 7 (R83, R87). -/
theorem and_waveMask (d : BitVec 32) : d &&& 0xFFFFFFF8#32 = 0#32 ↔ d.toNat ≤ 7 := by
  have h : (d &&& 0xFFFFFFF8#32) = (d >>> 3) <<< 3 := by
    apply BitVec.eq_of_getLsbD_eq
    intro i hi
    have hm : ∀ i < 32, (0xFFFFFFF8#32).getLsbD i = decide (3 ≤ i) := by decide
    rw [BitVec.getLsbD_and, hm i hi, BitVec.getLsbD_shiftLeft, BitVec.getLsbD_ushiftRight]
    by_cases h3 : 3 ≤ i
    · have h4 : 3 + (i - 3) = i := by omega
      have h5 : ¬ i < 3 := by omega
      simp only [h3, h4, h5, hi, decide_true, decide_false, Bool.and_true, Bool.true_and, Bool.not_false]
    · have h5 : i < 3 := by omega
      simp only [h3, h5, decide_true, decide_false, Bool.and_false, Bool.false_and, Bool.not_true]
  rw [h]
  constructor
  · intro h
    have := congrArg BitVec.toNat h
    simp [BitVec.toNat_shiftLeft, Nat.shiftLeft_eq, Nat.shiftRight_eq_div_pow] at this
    have := d.isLt
    omega
  · intro h
    apply BitVec.eq_of_toNat_eq
    simp [BitVec.toNat_shiftLeft, Nat.shiftLeft_eq, Nat.shiftRight_eq_div_pow]
    omega

/-- A word matches a row of R87 exactly when it has the row's opcode byte and no operand bit under the row's mask. -/
theorem row_matches_iff (w : CmdWord) (i : Instr) :
    w &&& i.row.mask = i.row.pattern ↔ cmdOpc w = i.opc ∧ cmdOperand w &&& cmdOperand i.row.mask = 0#32 := by
  conv_lhs => rw [← opc_append_operand w]
  generalize cmdOpc w = o; generalize cmdOperand w = d
  have h1 : ∀ i : Instr, i.row.mask = 0xFF#8 ++ cmdOperand i.row.mask := by intro i; cases i <;> simp only [Instr.row] <;> decide
  have h2 : ∀ i : Instr, i.row.pattern = i.opc ++ 0#32 := by intro i; cases i <;> simp only [Instr.row, Instr.opc] <;> decide
  rw [h2]; conv_lhs => rw [h1]
  rw [append8_and, append8_inj, and_allOnes8]

end Sys2Proof
end

