-- ==== Sys2Proof/Laws/PerInstr.lean ====
section
/-! SUPPORT. One lemma per constructor of `Instr`: its encoding matches its row of the opcode table (30_encoding.md R87,
R93). -/

namespace Sys2Proof.Laws.EncodeMatchesRow

open Sys2Proof

/-- The encoding of a command matches the row of that command: `encode i & mask = match` (R87, R93). -/
def Statement (i : Instr) : Prop := i.wf = true → encode i &&& i.row.mask = i.row.pattern

/-- What an instruction's statement comes to: its operand has no bit under the row's mask. -/
theorem of_operand {i : Instr} (h : i.wf = true → i.operand &&& cmdOperand i.row.mask = 0#32) : Statement i :=
  fun hw => (row_matches_iff _ _).2 ⟨cmdOpc_encode i, by rw [cmdOperand_encode]; exact h hw⟩

/-- Format `F` and `U`: no operand bit is under the mask. -/
theorem of_maskF {i : Instr} (h : i.row.mask = maskF) : Statement i :=
  of_operand fun _ => by rw [h, show cmdOperand maskF = 0#32 by decide, BitVec.and_zero]

/-- Format `Z`: the operand is zero. -/
theorem of_zero {i : Instr} (h : i.operand = 0#32) : Statement i :=
  of_operand fun _ => by rw [h, BitVec.zero_and]

theorem dlNew : Statement .dlNew := of_zero rfl
theorem dlWrite (x : BitVec 32) : Statement (.dlWrite x) := of_maskF rfl
theorem dlRead : Statement .dlRead := of_zero rfl
theorem dlGet (i : BitVec 32) : Statement (.dlGet i) := of_maskF rfl
theorem dlLen : Statement .dlLen := of_zero rfl
theorem lpNew (fs : BitVec 32) : Statement (.lpNew fs) := of_maskF rfl
theorem lpProcess (x : BitVec 32) : Statement (.lpProcess x) := of_maskF rfl
theorem lpSetFreq (f : BitVec 32) : Statement (.lpSetFreq f) := of_maskF rfl
theorem svfNew (fs : BitVec 32) : Statement (.svfNew fs) := of_maskF rfl
theorem svfProcess (x : BitVec 32) : Statement (.svfProcess x) := of_maskF rfl
theorem svfSetFreq (f : BitVec 32) : Statement (.svfSetFreq f) := of_maskF rfl
theorem svfSetRes (r : BitVec 32) : Statement (.svfSetRes r) := of_maskF rfl
theorem svfSetDrive (d : BitVec 32) : Statement (.svfSetDrive d) := of_maskF rfl
theorem svfGetLow : Statement .svfGetLow := of_zero rfl
theorem svfGetHigh : Statement .svfGetHigh := of_zero rfl
theorem svfGetBand : Statement .svfGetBand := of_zero rfl
theorem svfGetNotch : Statement .svfGetNotch := of_zero rfl
theorem svfGetPeak : Statement .svfGetPeak := of_zero rfl
theorem apNew (fs : BitVec 32) : Statement (.apNew fs) := of_maskF rfl
theorem apProcess (x : BitVec 32) : Statement (.apProcess x) := of_maskF rfl
theorem apSetFreq (f : BitVec 32) : Statement (.apSetFreq f) := of_maskF rfl
theorem spNew (fs : BitVec 32) : Statement (.spNew fs) := of_maskF rfl
theorem spProcess (x : BitVec 32) : Statement (.spProcess x) := of_maskF rfl
theorem spSetFreq (t : BitVec 32) : Statement (.spSetFreq t) := of_maskF rfl
theorem spSetRt (rt : BitVec 32) : Statement (.spSetRt rt) := of_maskF rfl
theorem oscNew (fs : BitVec 32) : Statement (.oscNew fs) := of_maskF rfl
theorem oscProcess : Statement .oscProcess := of_zero rfl
theorem oscSetFreq (f : BitVec 32) : Statement (.oscSetFreq f) := of_maskF rfl
theorem oscSetAmp (a : BitVec 32) : Statement (.oscSetAmp a) := of_maskF rfl
theorem oscSetPhase (p : BitVec 32) : Statement (.oscSetPhase p) := of_maskF rfl
theorem oscSetWave (w : U32) : Statement (.oscSetWave w) :=
  of_operand fun h => by
    have hm : cmdOperand (Instr.oscSetWave w).row.mask = 0xFFFFFFF8#32 := by
      rw [show (Instr.oscSetWave w).row.mask = maskW from rfl]
      decide
    rw [hm]
    exact (and_waveMask w).2 (of_decide_eq_true h)

end Sys2Proof.Laws.EncodeMatchesRow
end

