-- ==== Sys2Proof/Laws/Step.lean ====
section
/-! SUPPORT. Everything a step can do, said once. -/

namespace Sys2Proof.Machine

/-- The host's events up to the first one that is no command word: the three shapes a list of events has. -/
theorem inputs_split (l : List HostInput) :
    (∃ ws : List CmdWord, l = ws.map .command) ∨
    (∃ (ws : List CmdWord) (rest : List HostInput), l = ws.map .command ++ .takeResponse :: rest) ∨
    (∃ (ws : List CmdWord) (rest : List HostInput), l = ws.map .command ++ .reset :: rest) := by
  induction l with
  | nil => exact .inl ⟨[], rfl⟩
  | cons e l ih =>
    cases e with
    | takeResponse => exact .inr (.inl ⟨[], l, rfl⟩)
    | reset => exact .inr (.inr ⟨[], l, rfl⟩)
    | command w =>
      obtain ⟨ws, rfl⟩ | ⟨ws, rest, rfl⟩ | ⟨ws, rest, rfl⟩ := ih
      · exact .inl ⟨w :: ws, rfl⟩
      · exact .inr (.inl ⟨w :: ws, rest, rfl⟩)
      · exact .inr (.inr ⟨w :: ws, rest, rfl⟩)

/-- What `otherEvent` does to words that wait and the events behind them: nothing, a response transfer, a reset. -/
theorem otherEvent_cases (s : State) (waiting l : List HostInput) :
    otherEvent s waiting l = s ∨
    (∃ inputs, otherEvent s waiting l = s.takeResponse.withInputs inputs) ∨
    (∃ inputs, otherEvent s waiting l = s.afterReset.withInputs inputs) := by
  induction l generalizing waiting with
  | nil => exact .inl rfl
  | cons e l ih =>
    cases e with
    | takeResponse => exact .inr (.inl ⟨_, rfl⟩)
    | reset => exact .inr (.inr ⟨_, rfl⟩)
    | command w => exact ih _

/-- The five ways a step goes on: nothing happens; a response transfer; `rst`; an illegal word; a command. Which event it is,
is `otherEvent` on the host's events, unless the first is a command word and `cmd_ready` is 1. -/
theorem step_cases {s t : State} (h : step s = .next t) :
    (t = s ∨ (∃ inputs, t = s.takeResponse.withInputs inputs) ∨ ∃ inputs, t = s.afterReset.withInputs inputs) ∨
    (∃ w rest e, s.port.inputs = .command w :: rest ∧ s.cmdReady = true ∧ decode w = .error e ∧
      t = (s.withInputs rest).refuse .illegal) ∨
    (∃ w rest i, s.port.inputs = .command w :: rest ∧ s.cmdReady = true ∧ decode w = .ok i ∧
      exec i (s.withInputs rest) = .next t) := by
  unfold step fetch at h
  split at h
  · rename_i t' hf
    cases h
    split at hf
    · exact .inl (.inl (Fetched.settled.inj hf).symm)
    · exact .inl (Fetched.settled.inj hf ▸ otherEvent_cases s [] s.port.inputs)
    · exact .inl (Fetched.settled.inj hf ▸ otherEvent_cases s [] s.port.inputs)
    · split at hf
      · unfold transferCommand at hf
        split at hf
        · cases hf
        · exact .inr (.inl
            ⟨_, _, _, by assumption, by assumption, by assumption, (Fetched.settled.inj hf).symm⟩)
      · exact .inl (Fetched.settled.inj hf ▸ otherEvent_cases s [] s.port.inputs)
  · rename_i i t' hf
    split at hf
    · cases hf
    · cases hf
    · cases hf
    · split at hf
      · unfold transferCommand at hf
        split at hf
        · cases hf
          exact .inr (.inr ⟨_, _, _, by assumption, by assumption, by assumption, h⟩)
        · cases hf
      · cases hf

end Sys2Proof.Machine
end

