-- ==== Sys2Proof/Tests/Slice0.lean ====
section
/-! SUPPORT. Tests. Expected values are the spec's own: the encodings of 30_encoding.md R87 and R93, the vectors of
95_test_vectors.md sections 2 to 9, over the reference instance NUM_CR. The witnesses show states and operands that meet the
hypotheses of the statements in Certificates/Slice0/Obligations.lean, clause by clause. -/

namespace Sys2Proof.Tests

open Sys2Proof Sys2Proof.Machine

/-! ## Well-formedness: the one check (R83) -/

theorem test_wf_refuses_wave_8 : (Instr.oscSetWave 8#32).wf = false := by decide

theorem test_wf_refuses_wave_max : (Instr.oscSetWave 0xFFFFFFFF#32).wf = false := by decide

theorem test_wf_accepts_wave_7 : (Instr.oscSetWave 7#32).wf = true := by decide

/-! ## Decoding: a word of every row of R87, bit by bit from its encoding -/

theorem test_decode_dlNew : decode 0x0000000000#40 = .ok .dlNew := by decide
theorem test_decode_dlWrite : decode 0x013F800001#40 = .ok (.dlWrite 0x3F800001#32) := by decide
theorem test_decode_dlRead : decode 0x0200000000#40 = .ok .dlRead := by decide
theorem test_decode_dlGet : decode 0x03FFFFFFFF#40 = .ok (.dlGet 0xFFFFFFFF#32) := by decide
theorem test_decode_dlLen : decode 0x0400000000#40 = .ok .dlLen := by decide
theorem test_decode_lpNew : decode 0x103F800001#40 = .ok (.lpNew 0x3F800001#32) := by decide
theorem test_decode_lpProcess : decode 0x113F800001#40 = .ok (.lpProcess 0x3F800001#32) := by decide
theorem test_decode_lpSetFreq : decode 0x123F800001#40 = .ok (.lpSetFreq 0x3F800001#32) := by decide
theorem test_decode_svfNew : decode 0x203F800001#40 = .ok (.svfNew 0x3F800001#32) := by decide
theorem test_decode_svfProcess : decode 0x213F800001#40 = .ok (.svfProcess 0x3F800001#32) := by decide
theorem test_decode_svfSetFreq : decode 0x223F800001#40 = .ok (.svfSetFreq 0x3F800001#32) := by decide
theorem test_decode_svfSetRes : decode 0x233F800001#40 = .ok (.svfSetRes 0x3F800001#32) := by decide
theorem test_decode_svfSetDrive : decode 0x243F800001#40 = .ok (.svfSetDrive 0x3F800001#32) := by decide
theorem test_decode_svfGetLow : decode 0x2800000000#40 = .ok .svfGetLow := by decide
theorem test_decode_svfGetHigh : decode 0x2900000000#40 = .ok .svfGetHigh := by decide
theorem test_decode_svfGetBand : decode 0x2A00000000#40 = .ok .svfGetBand := by decide
theorem test_decode_svfGetNotch : decode 0x2B00000000#40 = .ok .svfGetNotch := by decide
theorem test_decode_svfGetPeak : decode 0x2C00000000#40 = .ok .svfGetPeak := by decide
theorem test_decode_apNew : decode 0x303F800001#40 = .ok (.apNew 0x3F800001#32) := by decide
theorem test_decode_apProcess : decode 0x313F800001#40 = .ok (.apProcess 0x3F800001#32) := by decide
theorem test_decode_apSetFreq : decode 0x323F800001#40 = .ok (.apSetFreq 0x3F800001#32) := by decide
theorem test_decode_spNew : decode 0x403F800001#40 = .ok (.spNew 0x3F800001#32) := by decide
theorem test_decode_spProcess : decode 0x413F800001#40 = .ok (.spProcess 0x3F800001#32) := by decide
theorem test_decode_spSetFreq : decode 0x423F800001#40 = .ok (.spSetFreq 0x3F800001#32) := by decide
theorem test_decode_spSetRt : decode 0x433F800001#40 = .ok (.spSetRt 0x3F800001#32) := by decide
theorem test_decode_oscNew : decode 0x503F800001#40 = .ok (.oscNew 0x3F800001#32) := by decide
theorem test_decode_oscProcess : decode 0x5100000000#40 = .ok .oscProcess := by decide
theorem test_decode_oscSetFreq : decode 0x523F800001#40 = .ok (.oscSetFreq 0x3F800001#32) := by decide
theorem test_decode_oscSetAmp : decode 0x533F800001#40 = .ok (.oscSetAmp 0x3F800001#32) := by decide
theorem test_decode_oscSetPhase : decode 0x543F800001#40 = .ok (.oscSetPhase 0x3F800001#32) := by decide
theorem test_decode_oscSetWave : decode 0x5500000005#40 = .ok (.oscSetWave 0x00000005#32) := by decide

/-- The illegal words of 95_test_vectors.md section 2. -/
theorem test_decode_illegal_words :
    [0x0200000001#40, 0x0400000001#40, 0x0000000001#40, 0x28FFFFFFFF#40].map decode =
      List.replicate 4 (.error .operandNotZero) ∧
    [0x0500000000#40, 0x1300000000#40, 0x2500000000#40, 0x2D00000000#40, 0x3300000000#40, 0x4400000000#40,
      0x5600000000#40].map decode = List.replicate 7 (.error .reservedFn) ∧
    [0x6000000000#40, 0xF0FFFFFFFF#40].map decode = List.replicate 2 (.error .reservedUnit) ∧
    [0x5500000008#40, 0x55FFFFFFFF#40].map decode = List.replicate 2 (.error .waveAboveSeven) := by decide

theorem test_decode_table_word : decodeTableWord 40 0x12447A0000 = some (.lpSetFreq 0x447A0000#32) ∧
    decodeTableWord 40 0x5500000008 = none := by decide

/-! ## The numeric primitives: 95_test_vectors.md section 3 -/

theorem test_fadd : fadd 0x3F800000#32 0x33800000#32 = 0x3F800000#32 ∧ fadd 0x3F800000#32 0x33C00000#32 = 0x3F800001#32 ∧
    fadd 0x3F800001#32 0x33800000#32 = 0x3F800002#32 ∧ fadd NEG_ZERO C_0 = C_0 ∧ fadd NEG_ZERO NEG_ZERO = NEG_ZERO ∧
    fadd C_1 0x7FA00001#32 = QNAN := by decide

theorem test_fsub : fsub C_0 C_0 = C_0 ∧ fsub POS_INF POS_INF = QNAN := by decide

theorem test_fmul : fmul 0x7F7FFFFF#32 C_2 = POS_INF ∧ fmul 0x00800000#32 C_0_5 = 0x00400000#32 ∧
    fmul 0x00000001#32 C_0_5 = C_0 ∧ fmul 0x00000003#32 C_0_5 = 0x00000002#32 ∧ fmul NEG_INF C_0 = QNAN := by decide

theorem test_fdiv : fdiv C_2 C_0 = POS_INF ∧ fdiv C_2 NEG_ZERO = NEG_INF ∧ fdiv C_0 C_0 = QNAN := by decide

theorem test_fmin : fmin C_0_25 QNAN = C_0_25 ∧ fmin QNAN C_0_25 = QNAN := by decide

theorem test_fclamp : fclamp NEG_ZERO C_0 C_1 = NEG_ZERO ∧ fclamp QNAN C_0 C_1 = QNAN ∧
    fclamp 0x40A00000#32 C_1EM4 0xBC227984#32 = C_1EM4 ∧ fclamp C_2 C_0 C_1 = C_1 ∧ fclamp C_NEG1 C_0 C_1 = C_0 := by decide

theorem test_u2f : u2f 4 = 0x40800000#32 ∧ u2f 4800 = 0x45960000#32 ∧ u2f 16777217 = 0x4B800000#32 ∧
    u2f 4294967295 = 0x4F800000#32 := by decide

/-- `NUM_CR`: the vectors of section 3, and an exact root (P4). -/
theorem test_numCR_exp : [0xBF800000#32, 0x3F800000#32, 0xC2D00000#32, 0xC2CE0000#32, 0x42B00000#32, 0x42B20000#32].map
    numCR.exp = [0x3EBC5AB2#32, 0x402DF854#32, 0x00000000#32, 0x00000001#32, 0x7EF882B7#32, 0x7F800000#32] := by
  decide +kernel

theorem test_numCR_sin : [0x3F490FDB#32, 0x3F800000#32, PI, TWO_PI, NEG_ZERO].map numCR.sin =
    [0x3F3504F3#32, 0x3F576AA4#32, 0xB3BBBD2E#32, 0x343BBD2E#32, NEG_ZERO] := by decide +kernel

theorem test_numCR_pow025 : [0x3F000000#32, 0x3D800000#32, 0x3E800000#32, 0x3EA20000#32, C_NEG1].map numCR.pow025 =
    [0x3F5744FD#32, 0x3F000000#32, 0x3F3504F3#32, 0x3F400000#32, QNAN] := by decide +kernel

/-! ## One command at a time: 95_test_vectors.md sections 4 to 9 -/

/-- `N_DL = 4` over `[10, 20, 30, 40]`, `N_AP = 2` and `N_SP = 4` over zeros, with `NUM_CR`. -/
def testParams : Params :=
  { len := fun b => match b with | .dl => 4 | .ap => 2 | .sp => 4
    len_pos := fun b => by cases b <;> decide
    len_lt := fun b => by cases b <;> decide
    bufInit := fun b a => match b with
      | .dl => [0x41200000#32, 0x41A00000#32, 0x41F00000#32, 0x42200000#32].getD a 0#32
      | .ap => 0#32
      | .sp => 0#32
    num := numCR
    num_lawful := numCR_lawful
    shape := defaultShape numCR }

/-- Every unit live and in the middle of a vector of the spec. -/
def demo : State :=
  { port := { inputs := [], rsp := none }
    dl := { live := true, line := { index := 3#32, mem := [(0, C_1), (1, C_2), (2, C_3)] } }
    lp := { live := true, fs := 0x473B8000#32, z1 := 0x3DFB4720#32, a0 := some 0x3DFB4720#32, b1 := some 0x3F60971C#32 }
    svf :=
      { live := true, fs := 0x473B8000#32
        lowPass := C_0, highPass := C_1, bandPass := 0x3D860472#32, notch := C_1, previous := C_1
        freq := some 0x3D860472#32, resonance := some C_0_5, preDrive := some 0x3D4CCCCD#32
        drive := some 0x3CCCCCCD#32, damp := some 0x3EA2EC0C#32
        outLowPass := C_0, outHighPass := C_1, outBandPass := 0x3D860472#32, outNotch := C_1, outPeak := C_NEG1 }
    ap := { live := true, fs := 0x473B8000#32, k1 := some 0x3F608C57#32, line := { index := 0#32, mem := [(0, C_1)] } }
    sp :=
      { live := true, fs := 0x473B8000#32, maxLoopTime := 0xBC227984#32, loopTime := some C_1EM4
        reverbTime := some 0x3A83126F#32, coef := some 0x3F004DA9#32, line := { index := 0#32, mem := [(0, C_1)] } }
    osc :=
      { live := true, fs := 0x473B8000#32, phase := 0x3F490FDB#32, last := C_0
        phaseIncrement := some 0x3F490FDB#32, amplitude := some C_1, wave := some .ramp } }

/-- The state a command leaves. -/
def after (r : Result) : State :=
  match r with
  | .next t => t
  | .fault _ => State.reset
  | .refused _ => State.reset

/-- The response word a command presents. -/
def answer (r : Result) : Option RspWord := (after r).port.rsp

theorem test_dlNew : (after (dlNew demo)).dl.line = { index := 0#32, mem := demo.dl.line.mem } ∧
    answer (dlNew State.reset) = some 0x0000000000#40 := by decide

theorem test_dlWrite : (after (dlWrite testParams 0x40800000#32 demo)).dl.line =
    { index := 0#32, mem := [(0, C_1), (1, C_2), (2, C_3), (3, 0x40800000#32)] } := by decide

/-- Bit-exact, a signalling NaN pattern; writing what `BUF_INIT` holds removes the entry. -/
theorem test_dlWrite_bits : (after (dlWrite testParams 0x7FA00001#32 demo)).dl.line.mem.getLast? = some (3, 0x7FA00001#32) ∧
    (after (dlWrite testParams 0x42200000#32 demo)).dl.line.mem = demo.dl.line.mem := by decide

theorem test_dlRead : answer (dlRead testParams demo) = some 0x0042200000#40 := by decide

theorem test_dlGet : answer (dlGet testParams 6#32 demo) = some 0x0040400000#40 ∧
    answer (dlGet testParams 0xFFFFFFFF#32 demo) = some 0x0042200000#40 := by decide

theorem test_dlLen : answer (dlLen testParams demo) = some 0x0000000004#40 := by decide

theorem test_lpNew : (after (lpNew 0x472C4400#32 demo)).lp =
    { live := true, fs := 0x472C4400#32, z1 := C_0, a0 := none, b1 := none } := by decide

theorem test_lpSetFreq : (after (lpSetFreq testParams 0x447A0000#32 demo)).lp.b1 = some 0x3F60971C#32 ∧
    (after (lpSetFreq testParams 0x447A0000#32 demo)).lp.a0 = some 0x3DFB4720#32 := by decide +kernel

theorem test_lpProcess : answer (lpProcess C_1 demo) = some 0x003E6BDCD7#40 ∧
    (after (lpProcess C_1 demo)).lp.z1 = 0x3E6BDCD7#32 := by decide

theorem test_svfNew : answer (svfNew 0x473B8000#32 State.reset) = some 0x0000000000#40 ∧
    (after (svfNew 0x473B8000#32 demo)).svf.damp = none := by decide

theorem test_svfSetFreq : (after (svfSetFreq testParams 0x447A0000#32 demo)).svf.freq = some 0x3D860472#32 := by decide +kernel

theorem test_svfSetRes : (after (svfSetRes testParams C_0_5 demo)).svf.damp = some 0x3EA2EC0C#32 ∧
    (after (svfSetRes testParams C_0_5 demo)).svf.drive = some 0x3CCCCCCD#32 := by decide +kernel

theorem test_svfSetDrive : (after (svfSetDrive C_1 demo)).svf.preDrive = some C_0_1 ∧
    (after (svfSetDrive C_1 demo)).svf.drive = some 0x3D4CCCCD#32 := by decide

theorem test_svfProcess : (after (svfProcess C_0 demo)).svf.outLowPass = 0x3C50B524#32 ∧
    (after (svfProcess C_0 demo)).svf.outBandPass = 0x3E00A9E5#32 := by decide

theorem test_svfProcess_peak : (after (svfProcess C_0 demo)).svf.outPeak = 0x3D88646D#32 ∧
    (after (svfProcess C_0 demo)).svf.notch = 0xBD286E48#32 := by decide

theorem test_svfGetters : [execSvfGetLow demo, execSvfGetHigh demo, execSvfGetBand demo, execSvfGetNotch demo,
    execSvfGetPeak demo].map answer =
      [some 0x0000000000#40, some 0x003F800000#40, some 0x003D860472#40, some 0x003F800000#40, some 0x00BF800000#40] := by
  decide

theorem test_apNew : (after (apNew 0x473B8000#32 demo)).ap.k1 = none ∧
    (after (apNew 0x473B8000#32 demo)).ap.line.mem = [(0, C_1)] := by decide

theorem test_apSetFreq : (after (apSetFreq 0x447A0000#32 demo)).ap.k1 = some 0x3F608C57#32 := by decide

theorem test_apProcess : answer (apProcess testParams C_0 demo) = some 0x003E6C286C#40 ∧
    (after (apProcess testParams C_0 demo)).ap.line.mem = [(0, 0x3F608C57#32)] := by decide

theorem test_apProcess_advances : (after (apProcess testParams C_0 demo)).ap.line.index = 1#32 := by decide

theorem test_spNew : (after (spNew testParams 0x473B8000#32 State.reset)).sp.maxLoopTime = 0xBC227984#32 := by decide

theorem test_spSetFreq : (after (spSetFreq 0x3D4CCCCD#32 demo)).sp.loopTime = some C_1EM4 ∧
    (after (spSetFreq 0x3D4CCCCD#32 demo)).sp.coef = demo.sp.coef := by decide

theorem test_spSetRt : (after (spSetRt testParams 0x3A83126F#32 demo)).sp.coef = some 0x3F004DA9#32 := by decide +kernel

theorem test_spProcess : answer (spProcess testParams C_0 demo) = some 0x003F3FB240#40 ∧
    (after (spProcess testParams C_0 demo)).sp.line.mem = [(0, 0x3F004DA9#32)] := by decide

theorem test_spProcess_advances : (after (spProcess testParams C_0 demo)).sp.line.index = 1#32 := by decide

theorem test_oscNew : (after (oscNew 0x473B8000#32 demo)).osc.phase = C_0 ∧
    (after (oscNew 0x473B8000#32 demo)).osc.wave = none := by decide

theorem test_oscSetFreq : (after (oscSetFreq 0x45BB8000#32 demo)).osc.phaseIncrement = some 0x3F490FDB#32 := by decide

theorem test_oscSetAmp : (after (oscSetAmp 0xFFA00001#32 demo)).osc.amplitude = some 0xFFA00001#32 := by decide

theorem test_oscSetPhase : (after (oscSetPhase 0x3F400000#32 demo)).osc.phase = 0x4096CBE4#32 ∧
    (after (oscSetPhase C_2 demo)).osc.phase = TWO_PI := by decide

theorem test_oscSetWave : (after (oscSetWave 7#32 demo)).osc.wave = some .pbSquare ∧
    answer (oscSetWave 8#32 demo) = some 0x0100000000#40 := by decide

theorem test_oscProcess : answer (oscProcess testParams demo) = some 0x00BF400000#40 ∧
    (after (oscProcess testParams demo)).osc.phase = 0x3FC90FDB#32 := by decide

/-- The second and the first samples of the band-limited shapes. -/
theorem test_pb_shapes :
    (shape testParams.shape .pbTri 0x3F490FDB#32 0x3F490FDB#32 C_0).2 = 0x3F490FDB#32 ∧
    (shape testParams.shape .pbSaw C_0 0x3F490FDB#32 C_0).1 = NEG_ZERO ∧
    (shape testParams.shape .pbSquare C_0 0x3F490FDB#32 C_0).1 = C_0 := by decide

theorem test_plain_shapes : defaultTri 0x3F490FDB#32 = C_0_5 ∧ defaultSaw 0x3F490FDB#32 = 0x3F400000#32 ∧
    naiveSquare PI = C_NEG1 := by decide

/-! ## Steps and refusals: 95_test_vectors.md section 2 -/

theorem test_step_illegal : answer (step (State.reset.withFetchWord 40 0x5500000008)) = some 0x0100000000#40 := by decide

theorem test_step_not_live : answer (step (State.reset.withFetchWord 40 0x5500000007)) = some 0x0200000000#40 := by decide

theorem test_step_unset : answer (lpProcess C_1 (after (lpNew 0x473B8000#32 State.reset))) = some 0x0300000000#40 ∧
    answer (svfProcess C_1 (after (svfNew 0x473B8000#32 State.reset))) = some 0x0300000000#40 := by decide

theorem test_step_new : (after (step (State.reset.withFetchWord 40 0))).dl.live = true := by decide

/-- A command word waits behind a pending response; the response can still be taken. -/
theorem test_step_waits :
    (after (step { demo with port := { inputs := [.command 0#40, .takeResponse], rsp := some 0#40 } })).port =
      { inputs := [.command 0#40], rsp := none } := by decide

/-! ## Witnesses: states and operands that meet the hypotheses of each statement -/

theorem witness_DecodeOfEncodeIsIdentity : (Instr.oscSetWave 7#32).wf = true := by decide

theorem witness_EncodeOfDecodeIsIdentity : decode 0x5500000007#40 = .ok (.oscSetWave 7#32) := by decide

theorem witness_DecodeFollowsOpcodeTable : Instr.row .dlNew ∈ opcodeTable ∧
    Instr.row (.oscSetWave 0#32) ∈ opcodeTable ∧ ∀ r ∈ opcodeTable, 0x5500000008#40 &&& r.mask ≠ r.pattern := by decide

theorem witness_DecodingStepsInOrder :
    5 < (cmdUnit 0x6000000000#40).toNat ∧
    ((cmdUnit 0x5600000000#40).toNat ≤ 5 ∧ ∀ i : Instr, i.opc ≠ cmdOpc 0x5600000000#40) ∧
    (Instr.opc .dlRead = cmdOpc 0x0200000001#40 ∧ (Instr.row .dlRead).mask = maskZ ∧
      cmdOperand 0x0200000001#40 ≠ 0#32) ∧
    (Instr.opc (.oscSetWave 0#32) = cmdOpc 0x5500000008#40 ∧ (Instr.row (.oscSetWave 0#32)).mask = maskW ∧
      7 < (cmdOperand 0x5500000008#40).toNat) ∧
    ((Instr.oscSetWave 7#32).wf = true ∧ Instr.opc (.oscSetWave 7#32) = cmdOpc 0x5500000007#40 ∧
      Instr.operand (.oscSetWave 7#32) = cmdOperand 0x5500000007#40) := by
  refine ⟨by decide, ⟨by decide, fun i => ?_⟩, by decide, by decide, by decide⟩
  rw [show cmdOpc 0x5600000000#40 = 0x56#8 by decide]
  cases i <;> simp [Instr.opc]

theorem witness_StepRunsTheDecodedCommand :
    (State.reset.withFetchWord 40 0x5500000007).port.inputs = [.command 0x5500000007#40] ∧
    (State.reset.withFetchWord 40 0x5500000007).port.rsp = none ∧
    decode 0x5500000007#40 = .ok (.oscSetWave 7#32) := by decide

theorem witness_StepRefusesAnIllegalWord :
    (State.reset.withFetchWord 40 0x5500000008).port.inputs = [.command 0x5500000008#40] ∧
    (State.reset.withFetchWord 40 0x5500000008).port.rsp = none ∧
    decode 0x5500000008#40 = .error .waveAboveSeven := by decide

/-- A state whose port holds these events and this response. -/
def atPort (inputs : List HostInput) (rsp : Option RspWord) : State :=
  { demo with port := { inputs := inputs, rsp := rsp } }

theorem witness_StepKeepsThePortProtocol :
    (atPort [] none).port.inputs = [] ∧
    ((atPort [.command 0#40] (some 0#40)).port.inputs = [0#40].map .command ∧
      (atPort [.command 0#40] (some 0#40)).port.rsp = some 0#40) ∧
    ((atPort [.command 0#40, .takeResponse] (some 0#40)).port.inputs = [0#40].map .command ++ .takeResponse :: [] ∧
      (atPort [.command 0#40, .takeResponse] (some 0#40)).port.rsp = some 0#40) ∧
    ((atPort [.takeResponse] none).port.inputs = .takeResponse :: [] ∧ (atPort [.takeResponse] none).port.rsp = none) := by
  decide

theorem witness_ResetEventClearsEveryFlag :
    ((atPort [.reset, .command 0#40] none).port.inputs = ([] : List CmdWord).map .command ++ .reset :: [.command 0#40] ∧
      ([] : List CmdWord) = []) ∧
    ((atPort [.command 0#40, .reset] (some 0#40)).port.inputs = [0#40].map .command ++ .reset :: [] ∧
      ∃ r, (atPort [.command 0#40, .reset] (some 0#40)).port.rsp = some r) := ⟨⟨rfl, rfl⟩, rfl, _, rfl⟩

/-- Every unit live after its NEW, and a command word to come. -/
def fresh : State :=
  { State.reset with
    port := { inputs := [.command 0x2100000000#40], rsp := some 0x0300000000#40 }
    dl := { live := true, line := { index := 0#32, mem := [] } }
    svf := svfFresh 0x473B8000#32
    lp := { live := true, fs := 0x473B8000#32, z1 := C_0, a0 := some (fsub C_1 C_0_5), b1 := some C_0_5 } }

theorem witness_StepKeepsTheInvariant : StateInv fresh ∧ ∃ t, step fresh = .next t := by
  refine ⟨?_, _, rfl⟩
  constructor
  · exact ⟨params.len_pos .dl, rfl⟩
  · exact ⟨params.len_pos .ap, rfl⟩
  · exact ⟨params.len_pos .sp, rfl⟩
  · refine ⟨?_, ?_, ?_, ?_, ?_⟩ <;> decide
  · rfl
  · rfl
  · rfl
  · exact fun _ h => absurd h (by simp [fresh, svfFresh])
  · exact fun _ h => absurd h (by simp [fresh, svfFresh])
  · exact ⟨rfl, rfl, rfl, rfl, by decide⟩
  · exact fun h => absurd h (by decide)
  · exact fun _ h => absurd h (by simp [fresh, State.reset, Sp.afterReset])
  · exact fun h => absurd h (by decide)
  · intro r h
    obtain rfl : 0x0300000000#40 = r := Option.some.inj h
    exact ⟨by decide, fun _ => by decide⟩

theorem witness_CursorsInRangeNeverStop : State.reset.dl.line.index.toNat < params.len .dl ∧
    State.reset.ap.line.index.toNat < params.len .ap ∧ State.reset.sp.line.index.toNat < params.len .sp :=
  ⟨params.len_pos .dl, params.len_pos .ap, params.len_pos .sp⟩

/-- The one-pole unit live, no coefficients. -/
def lpUnset : State := after (lpNew 0x473B8000#32 State.reset)

theorem witness_StatusByPriority :
    (atPort [.command 0x5500000008#40] none).port.inputs = .command 0x5500000008#40 :: [] ∧
    (∃ t, step (atPort [.command 0x5500000008#40] none) = .next t) ∧
    ((∃ t, exec (.lpProcess C_1) State.reset = .next t) ∧ State.reset.live .lp = false ∧
      Instr.isNew (.lpProcess C_1) = false) ∧
    ((∃ t, exec (.lpProcess C_1) lpUnset = .next t) ∧ lpUnset.live .lp = true ∧ isProcess (.lpProcess C_1) = true ∧
      lpUnset.processable .lp = false) ∧
    ((∃ t, exec (.lpProcess C_1) demo = .next t) ∧ demo.live .lp = true ∧ demo.processable .lp = true) ∧
    ((∃ t, exec (.lpNew C_1) State.reset = .next t) ∧ Instr.isNew (.lpNew C_1) = true ∧
      isProcess (.lpNew C_1) = false) :=
  ⟨rfl, ⟨_, rfl⟩, ⟨⟨_, rfl⟩, rfl, rfl⟩, ⟨⟨_, rfl⟩, rfl, rfl, rfl⟩, ⟨⟨_, rfl⟩, rfl, rfl⟩, ⟨_, rfl⟩, rfl, rfl⟩

theorem witness_RefusedCommandChangesNothing : ∃ t, exec (.lpProcess C_1) lpUnset = .next t ∧
    t.port.rsp = some 0x0300000000#40 ∧ (0x0300000000#40).extractLsb' 32 8 ≠ 0x00#8 := ⟨_, rfl, rfl, by decide⟩

theorem witness_LiveFlagIsSetByNewOnly : (∃ t, exec .dlNew State.reset = .next t) ∧
    (Instr.oscSetWave 7#32).wf = true ∧ (Instr.oscSetWave 7#32).isNew = false ∧ State.reset.live .osc = false ∧
    (atPort [.reset] none).port.inputs = [.reset] :=
  ⟨⟨_, rfl⟩, by decide, rfl, rfl, rfl⟩

theorem witness_UnitsAreIndependent : (∃ t, exec (.lpProcess C_1) demo = .next t) ∧
    UnitId.svf ≠ Instr.unit (.lpProcess C_1) ∧ SameUnit (Instr.unit (.lpProcess C_1)) demo { demo with dl := State.reset.dl } :=
  ⟨⟨_, rfl⟩, by decide, rfl⟩

theorem witness_SampleRateIsWrittenByNewOnly : (∃ t, exec (.lpProcess C_1) demo = .next t) ∧
    Instr.isNew (.lpProcess C_1) = false ∧ (∃ t, exec (.lpNew C_1) demo = .next t) ∧ Instr.unit (.lpNew C_1) ≠ .svf :=
  ⟨⟨_, rfl⟩, rfl, ⟨_, rfl⟩, by decide⟩

theorem witness_SettersKeepAccumulators : Instr.isSetter (.oscSetPhase C_0_5) = true ∧
    (∃ t, exec (.oscSetPhase C_0_5) demo = .next t) ∧ Instr.isSetter (.oscSetAmp C_1) = true ∧
    (∃ t, exec (.oscSetAmp C_1) demo = .next t) ∧ (∀ p, Instr.oscSetAmp C_1 ≠ .oscSetPhase p) :=
  ⟨rfl, ⟨_, rfl⟩, rfl, ⟨_, rfl⟩, fun _ => by simp⟩

theorem witness_SettersAreIdempotent : Instr.isSetter (.svfSetRes C_0_5) = true ∧
    ∃ t, exec (.svfSetRes C_0_5) demo = .next t := ⟨rfl, _, rfl⟩

theorem witness_ReadAfterWriteOfAMemory : memWrite testParams .dl [] 3 C_1 = .ok [(3, C_1)] ∧
    memWrite testParams .dl [(3, C_1)] 3 0x42200000#32 = .ok [] ∧ (2 : Nat) ≠ 3 := ⟨rfl, rfl, by decide⟩

theorem witness_DelayLaw : ({ index := 0#32, mem := [] } : DelayLine).index = 0#32 ∧
    (testParams.len .dl ≤ [C_1, C_2, C_3, C_0].length ∧
      [C_1, C_2, C_3, C_0][[C_1, C_2, C_3, C_0].length - testParams.len .dl]? = some C_1) ∧
    [C_1, C_2, C_3].length < testParams.len .dl := ⟨rfl, ⟨le_refl 4, rfl⟩, Nat.lt_succ_self 3⟩

/-- Every unit's `demo` cursor at 0, which is in range for every length. -/
def home : State := { demo with dl := { live := true, line := { index := 0#32, mem := [] } } }

theorem witness_DlWriteStoresThenAdvances : State.reset.dl.live = false ∧ home.dl.live = true ∧
    home.dl.line.index.toNat < params.len .dl := ⟨rfl, rfl, params.len_pos .dl⟩

theorem witness_DlReadsAnswerAndChangeNothing : State.reset.dl.live = false ∧ home.dl.live = true ∧
    home.dl.line.index.toNat < params.len .dl := ⟨rfl, rfl, params.len_pos .dl⟩

theorem witness_LpSetFreqComputesCoefficients : State.reset.lp.live = false ∧ demo.lp.live = true := ⟨rfl, rfl⟩

theorem witness_LpProcessFollowsRecurrence : State.reset.lp.live = false ∧ (lpUnset.lp.live = true ∧ lpUnset.lp.a0 = none) ∧
    demo.lp.live = true ∧ demo.lp.a0 = some 0x3DFB4720#32 ∧ demo.lp.b1 = some 0x3F60971C#32 := by decide

theorem witness_SvfSettersDeriveParameters : State.reset.svf.live = false ∧ demo.svf.live = true := ⟨rfl, rfl⟩

theorem witness_SvfProcessRunsTwoPasses : State.reset.svf.live = false ∧
    (fresh.svf.live = true ∧ fresh.svf.freq = none) ∧
    demo.svf.live = true ∧ demo.svf.freq = some 0x3D860472#32 ∧ demo.svf.damp = some 0x3EA2EC0C#32 ∧
    demo.svf.drive = some 0x3CCCCCCD#32 := by decide

theorem witness_SvfGettersArePureReads : State.reset.svf.live = false ∧ demo.svf.live = true := ⟨rfl, rfl⟩

theorem witness_ApSetFreqComputesCoefficient : State.reset.ap.live = false ∧ demo.ap.live = true := ⟨rfl, rfl⟩

theorem witness_ApProcessFollowsRecurrence : State.reset.ap.live = false ∧
    ((after (apNew C_1 demo)).ap.live = true ∧ (after (apNew C_1 demo)).ap.k1 = none) ∧
    demo.ap.live = true ∧ demo.ap.k1 = some 0x3F608C57#32 ∧ demo.ap.line.index.toNat < params.len .ap :=
  ⟨rfl, ⟨rfl, rfl⟩, rfl, rfl, params.len_pos .ap⟩

theorem witness_SpSetFreqClampsLoopTime : State.reset.sp.live = false ∧ demo.sp.live = true := ⟨rfl, rfl⟩

/-- Unit `SP` live after its NEW. -/
def spUnset : State := after (spNew testParams 0x473B8000#32 State.reset)

theorem witness_SpSetRtComputesCoefficient : State.reset.sp.live = false ∧
    (spUnset.sp.live = true ∧ spUnset.sp.loopTime = none) ∧ demo.sp.live = true ∧ demo.sp.loopTime = some C_1EM4 :=
  ⟨rfl, ⟨rfl, rfl⟩, rfl, rfl⟩

theorem witness_SpProcessFollowsRecurrence : State.reset.sp.live = false ∧
    (spUnset.sp.live = true ∧ spUnset.sp.coef = none) ∧
    demo.sp.live = true ∧ demo.sp.coef = some 0x3F004DA9#32 ∧ demo.sp.line.index.toNat < params.len .sp :=
  ⟨rfl, ⟨rfl, rfl⟩, rfl, rfl, params.len_pos .sp⟩

theorem witness_OscSettersStoreParameters : State.reset.osc.live = false ∧ demo.osc.live = true ∧
    (7#32).toNat ≤ 7 ∧ 7 < (8#32).toNat ∧ (0#32).toNat = (waveCode .sine).toNat ∧
    (7#32).toNat = (waveCode .pbSquare).toNat := by decide

theorem witness_OscProcessSamplesThenAdvances : State.reset.osc.live = false ∧
    ((after (oscNew C_1 demo)).osc.live = true ∧ (after (oscNew C_1 demo)).osc.wave = none) ∧
    demo.osc.live = true ∧ demo.osc.phaseIncrement = some 0x3F490FDB#32 ∧ demo.osc.amplitude = some C_1 ∧
    demo.osc.wave = some .ramp := by decide

theorem value_C_0 : value C_0 = 0 := value_of_isZero (by decide)

theorem witness_ArithmeticIsCorrectlyRounded : isFinite C_1 = true ∧ isFinite C_0 = true ∧
    value C_1 + value C_0 ≠ 0 ∧ value C_1 - value C_0 ≠ 0 ∧ value C_1 * value C_1 ≠ 0 ∧ value C_1 ≠ 0 ∧
    value C_1 / value C_1 ≠ 0 := by
  refine ⟨by decide, by decide, ?_⟩
  rw [value_C_1, value_C_0]
  norm_num

theorem witness_ArithmeticSpecialCases : (isNaN QNAN || isNaN C_1) = true ∧
    (isInf POS_INF = true ∧ isNaN C_1 = false ∧ (isInf C_1 = true → C_1 = POS_INF)) ∧
    (isZero NEG_ZERO = true ∧ isInf NEG_INF = true) ∧ (isZero C_1 = false) ∧ (isZero C_0 = true) ∧
    (isFinite C_0 = true ∧ isNaN C_1 = false ∧ isZero C_1 = false) ∧
    (isFinite C_1 = true ∧ isNaN NEG_INF = false ∧ isZero NEG_INF = false) := by decide

theorem witness_NansAreCanonical : isNaN (fadd POS_INF NEG_INF) = true ∧ isNaN (fsub POS_INF POS_INF) = true ∧
    isNaN (fmul C_0 POS_INF) = true ∧ isNaN (fdiv C_0 C_0) = true ∧ isNaN 0xFFA00001#32 = true ∧ isNaN NEG_INF = false ∧
    isNaN (params.num.exp QNAN) = true ∧ isNaN (params.num.sin POS_INF) = true ∧
    isNaN (params.num.pow025 C_NEG1) = true :=
  ⟨by decide, by decide, by decide, by decide, by decide, by decide,
    by rw [params.num_lawful.exp_nan QNAN (by decide)]; decide,
    by rw [params.num_lawful.sin_special POS_INF (by decide)]; decide,
    by rw [params.num_lawful.pow025_neg C_NEG1 (by decide)]; decide⟩

theorem witness_ComparisonsAreOfValues : isFinite C_0 = true ∧ isFinite NEG_ZERO = true ∧
    (isNaN C_0 || isNaN QNAN) = true := by decide

theorem witness_ClampConsequences : (fle C_0 C_1 = true ∧ isNaN C_1 = false ∧ fle C_0 C_1 = true ∧ fle C_1 C_1 = true) ∧
    flt C_NEG1 C_0 = true ∧ flt C_1 C_2 = true ∧ isNaN QNAN = true ∧ (flt C_0 C_1 = true ∧ isNaN POS_INF = false) ∧
    fle C_0 C_0 = true := by decide

theorem witness_NaturalsConvertToNearest : 2 ^ 32 - 1 < 2 ^ 32 ∧ 2 ^ 24 < 2 ^ 32 ∧ 2 ^ 24 ≤ 2 ^ 24 := by decide

theorem witness_MachineNumHasSpecialValuesAndRanges : isNaN QNAN = true ∧ isNaN POS_INF = false ∧
    fle NEG_INF C_0 = true ∧ fle C_0 POS_INF = true ∧ isFinite NEG_ZERO = true ∧ flt NEG_INF C_0 = true ∧
    (fle C_0 C_1 = true ∧ fle C_1 C_1 = true) := by decide

theorem value_0x3EA20000 : value 0x3EA20000#32 = 81 / 256 := by
  rw [value, show units 0x3EA20000#32 = 0xA20000 * 2 ^ 124 by decide]
  norm_num

theorem value_0x3F400000 : value 0x3F400000#32 = 3 / 4 := by
  rw [value, show units 0x3F400000#32 = 0xC00000 * 2 ^ 125 by decide]
  norm_num

/-- Both ends of every range, and the root of 81/256. -/
theorem witness_LawfulNumHasRangesAndExactRoots : NumLawful numCR ∧
    (fle NEG_INF C_0 = true ∧ fle C_0 C_0 = true ∧ fle C_0 POS_INF = true) ∧
    (fle C_0 HALF_PI = true ∧ fle HALF_PI HALF_PI = true ∧ fle (fneg HALF_PI) C_0 = true ∧
      fle (fneg HALF_PI) (fneg HALF_PI) = true) ∧
    (fle C_0 C_1 = true ∧ fle C_1 C_1 = true ∧ isFinite C_1 = true) ∧
    (isFinite 0x3EA20000#32 = true ∧ isFinite 0x3F400000#32 = true ∧ flt C_0 0x3F400000#32 = true ∧
      value 0x3F400000#32 ^ 4 = value 0x3EA20000#32) := by
  refine ⟨numCR_lawful, by decide, by decide, by decide, by decide, by decide, by decide, ?_⟩
  rw [value_0x3EA20000, value_0x3F400000]
  norm_num

theorem witness_LpCoefficientsLieInUnitInterval : demo.lp.live = true ∧ isFinite demo.lp.fs = true ∧
    flt C_0 demo.lp.fs = true ∧ fle C_0 NEG_ZERO = true ∧ fle C_0 POS_INF = true := by decide

theorem witness_SvfSetterOrderIsFree : fresh.svf.live = true ∧
    [Instr.svfSetDrive C_0_5, .svfSetRes C_0_5, .svfSetFreq C_1].Perm
      [.svfSetFreq C_1, .svfSetRes C_0_5, .svfSetDrive C_0_5] := by decide

theorem witness_SvfNegativeZeroCutoff : demo.svf.live = true ∧ isFinite demo.svf.fs = true ∧ flt C_0 demo.svf.fs = true ∧
    demo.svf.resonance = some C_0_5 ∧ fle C_0 C_0_5 = true ∧ fle C_0_5 C_1 = true := by decide

theorem witness_SvfDampAndDriveRanges : (sgn C_0 = false ∧ fle C_0 C_1 = true ∧ fle C_0 C_0 = true ∧ fle C_0 C_0_1 = true) ∧
    (sgn C_1 = false ∧ fle C_1 C_1 = true ∧ fle C_0 C_0_1 = true ∧ fle C_0_1 C_0_1 = true) := by decide

theorem witness_SpShortBufferForcesMinimumLoopTime : demo.sp.live = true ∧ flt demo.sp.maxLoopTime C_1EM4 = true ∧
    isNaN POS_INF = false := by decide

theorem witness_SpZeroReverbTime : demo.sp.live = true ∧ demo.sp.loopTime = some C_1EM4 ∧ isFinite C_1EM4 = true ∧
    fle C_1EM4 C_1EM4 = true := by decide

/-- A NaN in each recursive state, the cursors at 0. -/
def poisoned : State :=
  { demo with
    lp := { demo.lp with z1 := 0xFFA00001#32 }
    svf := { demo.svf with bandPass := QNAN }
    ap := { demo.ap with line := { index := 0#32, mem := [(0, QNAN)] } }
    sp := { demo.sp with line := { index := 0#32, mem := [(0, QNAN)] } } }

theorem witness_NanIsStickyInRecursiveState :
    (poisoned.lp.live = true ∧ poisoned.lp.a0 = some 0x3DFB4720#32 ∧ poisoned.lp.b1 = some 0x3F60971C#32 ∧
      isNaN poisoned.lp.z1 = true) ∧
    (poisoned.svf.live = true ∧ poisoned.svf.freq = some 0x3D860472#32 ∧ poisoned.svf.damp = some 0x3EA2EC0C#32 ∧
      poisoned.svf.drive = some 0x3CCCCCCD#32 ∧ isNaN poisoned.svf.bandPass = true) ∧
    (poisoned.ap.live = true ∧ poisoned.ap.k1 = some 0x3F608C57#32 ∧ poisoned.ap.line.index.toNat < params.len .ap ∧
      isNaN (Memory.sample params .ap poisoned.ap.line.mem poisoned.ap.line.index.toNat) = true) ∧
    (poisoned.sp.live = true ∧ poisoned.sp.coef = some 0x3F004DA9#32 ∧ poisoned.sp.line.index.toNat < params.len .sp ∧
      isNaN (Memory.sample params .sp poisoned.sp.line.mem poisoned.sp.line.index.toNat) = true) :=
  ⟨by decide, by decide, ⟨rfl, rfl, params.len_pos .ap, rfl⟩, rfl, rfl, params.len_pos .sp, rfl⟩

theorem witness_OscPhaseStaysInRange : demo.osc.phaseIncrement = some 0x3F490FDB#32 ∧ fle C_0 0x3F490FDB#32 = true ∧
    fle 0x3F490FDB#32 TWO_PI = true ∧ fle C_0 demo.osc.phase = true ∧ fle demo.osc.phase TWO_PI = true ∧
    (∃ t, exec .oscProcess demo = .next t) ∧ demo.osc.live = true ∧ isNaN POS_INF = false :=
  ⟨rfl, by decide, by decide, by decide, by decide, ⟨_, rfl⟩, rfl, by decide⟩

theorem witness_DefaultPlainShapesLieInUnitRange : (fle C_0 NEG_ZERO = true ∧ fle NEG_ZERO TWO_PI = true) ∧
    (fle C_0 TWO_PI = true ∧ fle TWO_PI TWO_PI = true) := by decide

theorem witness_PolyBlepIsZeroAtZeroIncrement : (fle C_0 NEG_ZERO = true ∧ fle NEG_ZERO C_1 = true) ∧
    (fle C_0 C_1 = true ∧ fle C_1 C_1 = true) := by decide

theorem witness_SvfParameterRanges : demo.svf.live = true ∧ isFinite demo.svf.fs = true ∧ flt C_0 demo.svf.fs = true ∧
    fle 0x01800000#32 demo.svf.fs = true ∧ (isNaN POS_INF = false ∧ POS_INF ≠ NEG_ZERO) ∧
    (demo.svf.resonance = some C_0_5 ∧ fle C_0 C_0_5 = true ∧ fle C_0_5 C_1 = true) ∧
    (demo.svf.freq = some 0x3D860472#32 ∧ sgn 0x3D860472#32 = false ∧ fle 0x3D860472#32 0x3FB504F4#32 = true) ∧
    (demo.svf.preDrive = some 0x3D4CCCCD#32 ∧ fle C_0 0x3D4CCCCD#32 = true ∧ fle 0x3D4CCCCD#32 C_0_1 = true) := by decide

/-- The operands that a format `Z` command must not have. -/
theorem witness_format_Z_clauses : (0x00000001#32 : BitVec 32) ≠ 0#32 ∧ (0x473B8000#32 : F32) ≠ 0#32 := by decide

end Sys2Proof.Tests
end

section
/-! Scope and units (00_scope.md R3). A meaning ACTS ON a unit when running it commutes with a transplant of that unit: on a
state that holds the unit of `s` among the units of `r` it does to the unit and answers what it does on `s`, and keeps the
rest of `r`. That one equation gives both halves of R3, the frame (`r` is `s` itself) and what the command reads (`r` is any
state with the same unit). -/

namespace Sys2Proof.Machine

/-! ## Transplanting a unit -/

/-- `r` with the unit `u` of `s` in the place of its own. -/
def State.graft (r : State) (u : UnitId) (s : State) : State :=
  match u with
  | .dl => { r with dl := s.dl }
  | .lp => { r with lp := s.lp }
  | .svf => { r with svf := s.svf }
  | .ap => { r with ap := s.ap }
  | .sp => { r with sp := s.sp }
  | .osc => { r with osc := s.osc }

/-- `r` after a command of unit `u` that left `t` elsewhere: `t`'s unit and `t`'s response, the rest as it was. -/
def State.afterCommandOn (r : State) (u : UnitId) (t : State) : State :=
  { r.graft u t with port := { r.port with rsp := t.port.rsp } }

@[simp] theorem graft_dl (r s : State) : (r.graft .dl s).dl = s.dl := rfl
@[simp] theorem graft_lp (r s : State) : (r.graft .lp s).lp = s.lp := rfl
@[simp] theorem graft_svf (r s : State) : (r.graft .svf s).svf = s.svf := rfl
@[simp] theorem graft_ap (r s : State) : (r.graft .ap s).ap = s.ap := rfl
@[simp] theorem graft_sp (r s : State) : (r.graft .sp s).sp = s.sp := rfl
@[simp] theorem graft_osc (r s : State) : (r.graft .osc s).osc = s.osc := rfl

@[simp] theorem graft_live (r : State) (u : UnitId) (s : State) : (r.graft u s).live u = s.live u := by
  cases u <;> rfl

/-- A state that has the unit already is not changed by the transplant. -/
theorem graft_eq_self {u : UnitId} {s r : State} (h : SameUnit u s r) : r.graft u s = r := by
  cases u <;> simp only [SameUnit] at h <;> simp only [State.graft, h]

theorem sameUnit_refl (u : UnitId) (s : State) : SameUnit u s s := by
  cases u <;> rfl

theorem sameUnit_afterCommandOn (r : State) (u : UnitId) (t : State) : SameUnit u t (r.afterCommandOn u t) := by
  cases u <;> rfl

theorem sameUnit_afterCommandOn_of_ne {u v : UnitId} (h : v ≠ u) (r t : State) :
    SameUnit v r (r.afterCommandOn u t) := by
  cases u <;> cases v <;> try rfl
  -- what is left is the six pairs of one unit with itself
  all_goals exact absurd rfl h

@[simp] theorem afterCommandOn_inputs (r : State) (u : UnitId) (t : State) :
    (r.afterCommandOn u t).port.inputs = r.port.inputs := rfl

@[simp] theorem afterCommandOn_rsp (r : State) (u : UnitId) (t : State) :
    (r.afterCommandOn u t).port.rsp = t.port.rsp := rfl

theorem refuse_graft (r : State) (u : UnitId) (s : State) (st : Status) :
    (r.graft u s).refuse st = r.afterCommandOn u (s.refuse st) := by
  cases u <;> rfl

/-! ## Meanings that act on one unit -/

/-- A result with its next state replaced; where the machine stops, it still stops. -/
def mapNext (f : State → State) : Result → Result
  | .next t => .next (f t)
  | .fault e => .fault e
  | .refused e => .refused e

/-- Running the meaning on a transplanted unit is transplanting what it does. -/
def ActsOn (u : UnitId) (m : State → Result) : Prop :=
  ∀ s r : State, m (r.graft u s) = mapNext (r.afterCommandOn u) (m s)

/-- A meaning may look at anything that is a function of its unit. -/
theorem ActsOn.reads {α : Type} {u : UnitId} {g : State → α} {k : α → State → Result}
    (hg : ∀ s r : State, g (r.graft u s) = g s) (hk : ∀ a, ActsOn u (k a)) : ActsOn u fun s => k (g s) s := by
  intro s r
  simp only [hg]
  exact hk (g s) s r

/-- Every refusal acts on any unit: it presents a response and changes nothing else (R271). -/
theorem ActsOn.refuse (u : UnitId) (st : Status) : ActsOn u fun s => .next (s.refuse st) :=
  fun s r => congrArg Host.Outcome.next (refuse_graft r u s st)

/-- The `live` flag a command requires is its own unit's (R273). -/
theorem ActsOn.whenLive {u : UnitId} {m : State → Result} (hm : ActsOn u m) :
    ActsOn u fun s => requires (s.live u) .notLive s (m s) :=
  ActsOn.reads (k := fun live s => requires live .notLive s (m s)) (fun s r => graft_live r u s) fun live => by
    cases live with
    | true => exact hm
    | false => exact ActsOn.refuse u .notLive

/-- The sample a command uses comes from its own unit's memory (R60). -/
theorem ActsOn.usingSample {α : Type} {u : UnitId} {e : State → Except Fault α} {k : α → State → Result}
    (he : ∀ s r : State, e (r.graft u s) = e s) (hk : ∀ a, ActsOn u (k a)) :
    ActsOn u fun s => withSample (e s) fun a => k a s :=
  ActsOn.reads (k := fun x s => withSample x fun a => k a s) he fun x => by
    cases x with
    | error f => exact fun _ _ => rfl
    | ok a => exact hk a

/-! ## The commands that look at an `Opt` register or at a wave code -/

theorem lpProcess_actsOn (x : F32) : ActsOn .lp (lpProcess x) :=
  .whenLive fun s r => by
    cases ha : s.lp.a0 with
    | none => simp only [graft_lp, ha]; rfl
    | some a0 => cases hb : s.lp.b1 with
      | none => simp only [graft_lp, ha, hb]; rfl
      | some b1 => simp only [graft_lp, ha, hb]; rfl

theorem svfProcess_actsOn (x : F32) : ActsOn .svf (svfProcess x) :=
  .whenLive fun s r => by
    cases hf : s.svf.freq with
    | none => simp only [graft_svf, hf]; rfl
    | some freq => cases hd : s.svf.damp with
      | none => simp only [graft_svf, hf, hd]; rfl
      | some damp => cases hv : s.svf.drive with
        | none => simp only [graft_svf, hf, hd, hv]; rfl
        | some drive => simp only [graft_svf, hf, hd, hv]; rfl

theorem apProcess_actsOn (P : Params) (x : F32) : ActsOn .ap (apProcess P x) :=
  .whenLive fun s r => by
    cases hk : s.ap.k1 with
    | none => simp only [graft_ap, hk]; rfl
    | some k1 =>
      simp only [graft_ap, hk]
      cases allpassTick P .ap s.ap.line k1 x <;> rfl

theorem spProcess_actsOn (P : Params) (x : F32) : ActsOn .sp (spProcess P x) :=
  .whenLive fun s r => by
    cases hc : s.sp.coef with
    | none => simp only [graft_sp, hc]; rfl
    | some coef =>
      simp only [graft_sp, hc]
      cases allpassTick P .sp s.sp.line coef x <;> rfl

theorem oscProcess_actsOn (P : Params) : ActsOn .osc (oscProcess P) :=
  .whenLive fun s r => by
    cases hi : s.osc.phaseIncrement with
    | none => simp only [graft_osc, hi]; rfl
    | some inc => cases ha : s.osc.amplitude with
      | none => simp only [graft_osc, hi, ha]; rfl
      | some amp => cases hw : s.osc.wave with
        | none => simp only [graft_osc, hi, ha, hw]; rfl
        | some w => simp only [graft_osc, hi, ha, hw]; rfl

theorem oscSetWave_actsOn (w : U32) : ActsOn .osc (oscSetWave w) := by
  unfold oscSetWave
  cases waveOfOperand w with
  | none => exact .refuse .osc .illegal
  | some wave => exact .whenLive fun _ _ => rfl

/-! ## Every command -/

/-- R3, as one equation: each command acts on the unit it is addressed to. -/
theorem exec_actsOn (i : Instr) : ActsOn i.unit (exec i) := by
  cases i with
  | dlNew => exact fun _ _ => rfl
  | dlWrite x => exact .whenLive (.usingSample (fun _ _ => rfl) fun _ _ _ => rfl)
  | dlRead => exact .whenLive (.usingSample (fun _ _ => rfl) fun _ _ _ => rfl)
  | dlGet index => exact .whenLive (.usingSample (fun _ _ => rfl) fun _ _ _ => rfl)
  | dlLen => exact .whenLive fun _ _ => rfl
  | lpNew fs => exact fun _ _ => rfl
  | lpProcess x => exact lpProcess_actsOn x
  | lpSetFreq f => exact .whenLive fun _ _ => rfl
  | svfNew fs => exact fun _ _ => rfl
  | svfProcess x => exact svfProcess_actsOn x
  | svfSetFreq f => exact .whenLive fun _ _ => rfl
  | svfSetRes r => exact .whenLive fun _ _ => rfl
  | svfSetDrive d => exact .whenLive fun _ _ => rfl
  | svfGetLow => exact .whenLive fun _ _ => rfl
  | svfGetHigh => exact .whenLive fun _ _ => rfl
  | svfGetBand => exact .whenLive fun _ _ => rfl
  | svfGetNotch => exact .whenLive fun _ _ => rfl
  | svfGetPeak => exact .whenLive fun _ _ => rfl
  | apNew fs => exact fun _ _ => rfl
  | apProcess x => exact apProcess_actsOn params x
  | apSetFreq f => exact .whenLive fun _ _ => rfl
  | spNew fs => exact fun _ _ => rfl
  | spProcess x => exact spProcess_actsOn params x
  | spSetFreq t => exact .whenLive fun _ _ => rfl
  | spSetRt rt => exact .whenLive fun _ _ => rfl
  | oscNew fs => exact fun _ _ => rfl
  | oscProcess => exact oscProcess_actsOn params
  | oscSetFreq f => exact .whenLive fun _ _ => rfl
  | oscSetAmp a => exact .whenLive fun _ _ => rfl
  | oscSetPhase p => exact .whenLive fun _ _ => rfl
  | oscSetWave w => exact oscSetWave_actsOn w

/-- What a command leaves on any state with the same unit, read off one run of it. -/
theorem exec_of_sameUnit {i : Instr} {s s' t : State} (hu : SameUnit i.unit s s') (h : exec i s = .next t) :
    exec i s' = .next (s'.afterCommandOn i.unit t) := by
  have hrun := exec_actsOn i s s'
  rwa [graft_eq_self hu, h] at hrun

/-- A command's frame: the state it leaves is the old one but for its unit and the response. -/
theorem exec_frame {i : Instr} {s t : State} (h : exec i s = .next t) : t = s.afterCommandOn i.unit t :=
  Host.Outcome.next.inj (h.symm.trans (exec_of_sameUnit (sameUnit_refl i.unit s) h))

/-- Settles O18: both halves are the equation `exec_actsOn`, run on the state itself and on another with the same unit. -/
theorem unitsAreIndependent : Obligations.UnitsAreIndependent := by
  constructor
  · intro i s t h
    rw [exec_frame h]
    exact ⟨fun u hu => sameUnit_afterCommandOn_of_ne hu s t, afterCommandOn_inputs s i.unit t⟩
  · intro i s s' hu t h
    exact ⟨_, exec_of_sameUnit hu h, sameUnit_afterCommandOn s' i.unit t,
      (afterCommandOn_rsp s' i.unit t).symm⟩

end Sys2Proof.Machine
end

section
/-! Everything a command can do, said once: the one unit it is addressed to MOVES, in one of that unit's ways, or nothing but
the response changes; the only stop is a cursor outside its memory. The data of a response are not said here. -/

namespace Sys2Proof.Machine

/-! ## What a command does to its unit -/

/-- What the commands of `DL` write (R155, R156). -/
inductive DlMoves : Instr → Dl → Dl → Prop
  | new {u : Dl} : DlMoves .dlNew u { live := true, line := lineRestart u.line }
  | write {u : Dl} {x : F32} {d : DelayLine} (hl : u.live = true) (hw : lineWrite params .dl u.line x = .ok d) :
      DlMoves (.dlWrite x) u { u with line := d }

/-- What the commands of `LP` write (R171 to R173). -/
inductive LpMoves : Instr → Lp → Lp → Prop
  | new {u : Lp} {fs : F32} : LpMoves (.lpNew fs) u { live := true, fs := fs, z1 := C_0, a0 := none, b1 := none }
  | process {u : Lp} {x a0 b1 : F32} (hl : u.live = true) (ha : u.a0 = some a0) (hb : u.b1 = some b1) :
      LpMoves (.lpProcess x) u { u with z1 := lpOutput x a0 u.z1 b1 }
  | setFreq {u : Lp} {f : F32} (hl : u.live = true) :
      LpMoves (.lpSetFreq f) u
        { u with b1 := some (lpCoefficient params f u.fs), a0 := some (fsub C_1 (lpCoefficient params f u.fs)) }

/-- What the commands of `SVF` write (R181 to R188). -/
inductive SvfMoves : Instr → Svf → Svf → Prop
  | new {u : Svf} {fs : F32} : SvfMoves (.svfNew fs) u (svfFresh fs)
  | process {u : Svf} {x freq damp drive : F32} (hl : u.live = true) (hf : u.freq = some freq) (hd : u.damp = some damp)
      (hv : u.drive = some drive) : SvfMoves (.svfProcess x) u (svfTick freq damp drive x u)
  | setFreq {u : Svf} {f : F32} (hl : u.live = true) :
      SvfMoves (.svfSetFreq f) u (svfDamp params { u with freq := some (svfFreqOf params f u.fs) })
  | setRes {u : Svf} {r : F32} (hl : u.live = true) :
      SvfMoves (.svfSetRes r) u (svfDrive (svfDamp params { u with resonance := some (fclamp r C_0 C_1) }))
  | setDrive {u : Svf} {d : F32} (hl : u.live = true) :
      SvfMoves (.svfSetDrive d) u (svfDrive { u with preDrive := some (preDriveOf d) })

/-- What the commands of `AP` write (R211 to R213). -/
inductive ApMoves : Instr → Ap → Ap → Prop
  | new {u : Ap} {fs : F32} : ApMoves (.apNew fs) u { live := true, fs := fs, k1 := none, line := lineRestart u.line }
  | process {u : Ap} {x k1 : F32} {r : DelayLine × F32} (hl : u.live = true) (hk : u.k1 = some k1)
      (ht : allpassTick params .ap u.line k1 x = .ok r) : ApMoves (.apProcess x) u { u with line := r.1 }
  | setFreq {u : Ap} {f : F32} (hl : u.live = true) :
      ApMoves (.apSetFreq f) u { u with k1 := some (apCoefficient f u.fs) }

/-- What the commands of `SP` write (R215 to R218). -/
inductive SpMoves : Instr → Sp → Sp → Prop
  | new {u : Sp} {fs : F32} : SpMoves (.spNew fs) u
      { live := true, fs := fs, maxLoopTime := maxLoopTimeOf params fs
        loopTime := none, reverbTime := none, coef := none, line := lineRestart u.line }
  | process {u : Sp} {x coef : F32} {r : DelayLine × F32} (hl : u.live = true) (hc : u.coef = some coef)
      (ht : allpassTick params .sp u.line coef x = .ok r) : SpMoves (.spProcess x) u { u with line := r.1 }
  | setFreq {u : Sp} {t : F32} (hl : u.live = true) :
      SpMoves (.spSetFreq t) u { u with loopTime := some (fclamp t C_1EM4 u.maxLoopTime) }
  | setRt {u : Sp} {rt : F32} (hl : u.live = true) :
      SpMoves (.spSetRt rt) u
        { u with reverbTime := some rt, coef := u.loopTime.map fun lt => spCoefficient params lt rt }

/-- What the commands of `OSC` write (R231 to R238). -/
inductive OscMoves : Instr → Osc → Osc → Prop
  | new {u : Osc} {fs : F32} : OscMoves (.oscNew fs) u
      { live := true, fs := fs, phase := C_0, last := C_0, phaseIncrement := none, amplitude := none, wave := none }
  | process {u : Osc} {inc amp : F32} {w : Wave} (hl : u.live = true) (hi : u.phaseIncrement = some inc)
      (ha : u.amplitude = some amp) (hw : u.wave = some w) :
      OscMoves .oscProcess u
        { u with last := (shape params.shape w u.phase inc u.last).2, phase := advancePhase u.phase inc }
  | setFreq {u : Osc} {f : F32} (hl : u.live = true) :
      OscMoves (.oscSetFreq f) u { u with phaseIncrement := some (incrementOf f u.fs) }
  | setAmp {u : Osc} {a : F32} (hl : u.live = true) : OscMoves (.oscSetAmp a) u { u with amplitude := some a }
  | setPhase {u : Osc} {p : F32} (hl : u.live = true) : OscMoves (.oscSetPhase p) u { u with phase := phaseOf p }
  | setWave {u : Osc} {w : U32} {wave : Wave} (hl : u.live = true) (hw : waveOfOperand w = some wave) :
      OscMoves (.oscSetWave w) u { u with wave := some wave }

/-! ## What a command leaves -/

/-- The states command `i` can leave of `s`: a refusal or a pure read changes the response only, every other command moves
one unit. -/
inductive Leaves (s : State) (i : Instr) : State → Prop
  | answer (hn : i.isNew = false) {w : RspWord} (hw : rspWordOk w) : Leaves s i (s.answered w)
  | dl {u : Dl} {v : BitVec 32} (h : DlMoves i s.dl u) : Leaves s i ({ s with dl := u }.respond v)
  | lp {u : Lp} {v : BitVec 32} (h : LpMoves i s.lp u) : Leaves s i ({ s with lp := u }.respond v)
  | svf {u : Svf} {v : BitVec 32} (h : SvfMoves i s.svf u) : Leaves s i ({ s with svf := u }.respond v)
  | ap {u : Ap} {v : BitVec 32} (h : ApMoves i s.ap u) : Leaves s i ({ s with ap := u }.respond v)
  | sp {u : Sp} {v : BitVec 32} (h : SpMoves i s.sp u) : Leaves s i ({ s with sp := u }.respond v)
  | osc {u : Osc} {v : BitVec 32} (h : OscMoves i s.osc u) : Leaves s i ({ s with osc := u }.respond v)

/-- The three cursors lie in their memories (R28). -/
def CursorsInRange (s : State) : Prop :=
  s.dl.line.index.toNat < params.len .dl ∧ s.ap.line.index.toNat < params.len .ap ∧
    s.sp.line.index.toNat < params.len .sp

/-- What command `i` can answer in `s`: a state it can leave, or a fault where a cursor is out of range. No refusal: every
command has a meaning. -/
inductive Allows (s : State) (i : Instr) : Result → Prop
  | next {t : State} (h : Leaves s i t) : Allows s i (.next t)
  | fault {f : Fault} (h : ¬ CursorsInRange s) : Allows s i (.fault f)

theorem Leaves.refuse {s : State} {i : Instr} (hn : i.isNew = false) (st : Status) : Leaves s i (s.refuse st) :=
  .answer hn (rspWordOk_refusal st)

theorem Leaves.read {s : State} {i : Instr} (hn : i.isNew = false) (v : BitVec 32) : Leaves s i (s.respond v) :=
  .answer hn (rspWordOk_ok v)

/-! ## The shared operations -/

/-- A command that requires a flag is refused, or goes on as it does where the flag is set (R13). -/
theorem Allows.requires {s : State} {i : Instr} {c : Bool} {st : Status} {k : Result} (hn : i.isNew = false)
    (hk : c = true → Allows s i k) : Allows s i (requires c st s k) := by
  cases c with
  | false => exact .next (.refuse hn st)
  | true => exact hk rfl

/-- A command that uses a sample goes on with it, or stops where the cursor is out of range. -/
theorem Allows.withSample {α : Type} {s : State} {i : Instr} {r : Except Fault α} {k : α → Result}
    (hr : CursorsInRange s → ∃ a, r = .ok a) (hk : ∀ a, r = .ok a → Allows s i (k a)) : Allows s i (withSample r k) := by
  cases r with
  | ok a => exact hk a rfl
  | error f =>
    refine .fault fun h => ?_
    obtain ⟨a, ha⟩ := hr h
    cases ha

theorem lineWrite_answers {P : Params} {b : Buf} {d : DelayLine} (h : d.index.toNat < P.len b) (x : F32) :
    ∃ d', lineWrite P b d x = .ok d' :=
  ⟨_, lineWrite_ok_iff.2 ⟨h, rfl⟩⟩

theorem lineRead_answers {P : Params} {b : Buf} {d : DelayLine} (h : d.index.toNat < P.len b) :
    ∃ v, lineRead P b d = .ok v :=
  ⟨_, lineRead_ok_iff.2 ⟨h, rfl⟩⟩

/-! ## The commands that look at an `Opt` register or at a wave code -/

theorem lpProcess_allows (s : State) (x : F32) : Allows s (.lpProcess x) (lpProcess x s) :=
  .requires rfl fun hl => by
    split
    · next a0 b1 ha hb => exact .next (.lp (.process hl ha hb))
    · exact .next (.refuse rfl .unset)
    · exact .next (.refuse rfl .unset)

theorem svfProcess_allows (s : State) (x : F32) : Allows s (.svfProcess x) (svfProcess x s) :=
  .requires rfl fun hl => by
    split
    · next freq damp drive hf hd hv => exact .next (.svf (.process hl hf hd hv))
    · exact .next (.refuse rfl .unset)
    · exact .next (.refuse rfl .unset)
    · exact .next (.refuse rfl .unset)

theorem apProcess_allows (s : State) (x : F32) : Allows s (.apProcess x) (apProcess params x s) :=
  .requires rfl fun hl => by
    split
    · exact .next (.refuse rfl .unset)
    · next k1 hk =>
      exact .withSample (fun ⟨_, hap, _⟩ => ⟨_, allpassTick_eq hap k1 x⟩) fun _ ht => .next (.ap (.process hl hk ht))

theorem spProcess_allows (s : State) (x : F32) : Allows s (.spProcess x) (spProcess params x s) :=
  .requires rfl fun hl => by
    split
    · exact .next (.refuse rfl .unset)
    · next coef hc =>
      exact .withSample (fun ⟨_, _, hsp⟩ => ⟨_, allpassTick_eq hsp coef x⟩) fun _ ht => .next (.sp (.process hl hc ht))

theorem oscProcess_allows (s : State) : Allows s .oscProcess (oscProcess params s) :=
  .requires rfl fun hl => by
    split
    · next inc amp w hi ha hw => exact .next (.osc (.process hl hi ha hw))
    · exact .next (.refuse rfl .unset)
    · exact .next (.refuse rfl .unset)
    · exact .next (.refuse rfl .unset)

theorem oscSetWave_allows (s : State) (w : U32) : Allows s (.oscSetWave w) (oscSetWave w s) := by
  unfold oscSetWave
  split
  · exact .next (.refuse rfl .illegal)
  · next wave hw => exact .requires rfl fun hl => .next (.osc (.setWave hl hw))

/-! ## Every command -/

/-- The meaning of every command, in every state, is one that `Allows` lists. -/
theorem exec_allows (i : Instr) (s : State) : Allows s i (exec i s) := by
  cases i with
  | dlNew => exact .next (.dl .new)
  | dlWrite x =>
    exact .requires rfl fun hl =>
      .withSample (fun ⟨hdl, _⟩ => lineWrite_answers hdl x) fun _ hw => .next (.dl (.write hl hw))
  | dlRead =>
    exact .requires rfl fun _ => .withSample (fun ⟨hdl, _⟩ => lineRead_answers hdl) fun v _ => .next (.read rfl v)
  | dlGet index =>
    exact .requires rfl fun _ => .withSample (fun _ => ⟨_, lineGet_eq ..⟩) fun v _ => .next (.read rfl v)
  | dlLen => exact .requires rfl fun _ => .next (.read rfl _)
  | lpNew fs => exact .next (.lp .new)
  | lpProcess x => exact lpProcess_allows s x
  | lpSetFreq f => exact .requires rfl fun hl => .next (.lp (.setFreq hl))
  | svfNew fs => exact .next (.svf .new)
  | svfProcess x => exact svfProcess_allows s x
  | svfSetFreq f => exact .requires rfl fun hl => .next (.svf (.setFreq hl))
  | svfSetRes r => exact .requires rfl fun hl => .next (.svf (.setRes hl))
  | svfSetDrive d => exact .requires rfl fun hl => .next (.svf (.setDrive hl))
  | svfGetLow => exact .requires rfl fun _ => .next (.read rfl _)
  | svfGetHigh => exact .requires rfl fun _ => .next (.read rfl _)
  | svfGetBand => exact .requires rfl fun _ => .next (.read rfl _)
  | svfGetNotch => exact .requires rfl fun _ => .next (.read rfl _)
  | svfGetPeak => exact .requires rfl fun _ => .next (.read rfl _)
  | apNew fs => exact .next (.ap .new)
  | apProcess x => exact apProcess_allows s x
  | apSetFreq f => exact .requires rfl fun hl => .next (.ap (.setFreq hl))
  | spNew fs => exact .next (.sp .new)
  | spProcess x => exact spProcess_allows s x
  | spSetFreq t => exact .requires rfl fun hl => .next (.sp (.setFreq hl))
  | spSetRt rt => exact .requires rfl fun hl => .next (.sp (.setRt hl))
  | oscNew fs => exact .next (.osc .new)
  | oscProcess => exact oscProcess_allows s
  | oscSetFreq f => exact .requires rfl fun hl => .next (.osc (.setFreq hl))
  | oscSetAmp a => exact .requires rfl fun hl => .next (.osc (.setAmp hl))
  | oscSetPhase p => exact .requires rfl fun hl => .next (.osc (.setPhase hl))
  | oscSetWave w => exact oscSetWave_allows s w

/-- The inversion of `exec`: what it goes on to, `Leaves` lists. -/
theorem exec_leaves {i : Instr} {s t : State} (h : exec i s = .next t) : Leaves s i t := by
  have ha := exec_allows i s
  rw [h] at ha
  cases ha with
  | next hl => exact hl

/-- With the cursors in range a command goes on (93_implementation_defined.md). -/
theorem exec_answers (i : Instr) {s : State} (h : CursorsInRange s) : ∃ t, exec i s = .next t := by
  have ha := exec_allows i s
  generalize exec i s = r at ha ⊢
  cases ha with
  | next => exact ⟨_, rfl⟩
  | fault hf => exact absurd h hf

/-- A command runs in the state of the step, but for the host's events (R81). -/
theorem fetch_command {s t : State} {i : Instr} (h : fetch s = .command i t) : ∃ rest, t = s.withInputs rest := by
  unfold fetch at h
  split at h
  · cases h
  · cases h
  · cases h
  · next w rest _ =>
    split at h
    · unfold transferCommand at h
      split at h
      · cases h
        exact ⟨rest, rfl⟩
      · cases h
    · cases h

/-- Settles O14: a step without a command always goes on, and a command finds the cursors where the step does. -/
theorem cursorsInRangeNeverStop : Obligations.CursorsInRangeNeverStop := by
  intro s hdl hap hsp
  unfold Safe step
  cases hf : fetch s with
  | settled t => exact ⟨t, rfl⟩
  | command i t =>
    obtain ⟨rest, rfl⟩ := fetch_command hf
    exact exec_answers i ⟨hdl, hap, hsp⟩

end Sys2Proof.Machine
end

section
/-! The invariant of the state (10_state.md R26, R28, R30, R34, R36, R37; 43_svf.md R188; 60_exceptions.md R270), unit by unit:
each unit's part speaks of that unit's registers only, so a command has to keep the part of the unit it moves. -/

namespace Sys2Proof.Machine

/-! ## The parts of the invariant -/

/-- The part of `LP`: R26 and R30. -/
structure LpOk (u : Lp) : Prop where
  unset : u.live = false → u.a0 = none ∧ u.b1 = none
  coupled : u.a0 = u.b1.map (fsub C_1)

/-- The published outputs are the accumulators (R188). -/
def SvfPublished (u : Svf) : Prop :=
  u.outLowPass = u.lowPass ∧ u.outHighPass = u.highPass ∧ u.outBandPass = u.bandPass ∧ u.outNotch = u.notch ∧
    u.outPeak = fsub u.lowPass u.highPass

/-- The part of `SVF`: R26, R32, R34, R188. -/
structure SvfOk (u : Svf) : Prop where
  unset : u.live = false →
    u.freq = none ∧ u.resonance = none ∧ u.preDrive = none ∧ u.drive = none ∧ u.damp = none
  damp : u.damp = lift2 (dampOf params) u.freq u.resonance
  drive : u.drive = lift2 fmul u.preDrive u.resonance
  resonance : ∀ r, u.resonance = some r → InRangeOrNaN C_0 C_1 r
  preDrive : ∀ r, u.preDrive = some r → InRangeOrNaN C_0 C_0_1 r
  published : SvfPublished u

/-- The part of `AP`: R26, R28. -/
structure ApOk (u : Ap) : Prop where
  line : LineOk params .ap u.line
  unset : u.live = false → u.k1 = none

/-- What `SP.SET_FREQ` makes of the loop time (R37): a NaN, or at least `0.0001`, and at most `max_loop_time` where the
interval is not empty. -/
def LoopTimeOk (maxLoopTime t : F32) : Prop :=
  isNaN t = true ∨ (fle C_1EM4 t = true ∧ (fle C_1EM4 maxLoopTime = true → fle t maxLoopTime = true))

/-- The part of `SP`: R26, R28, R36, R37. -/
structure SpOk (u : Sp) : Prop where
  line : LineOk params .sp u.line
  unset : u.live = false → u.loopTime = none ∧ u.reverbTime = none ∧ u.coef = none
  max : u.live = true → u.maxLoopTime = maxLoopTimeOf params u.fs
  loopTime : ∀ t, u.loopTime = some t → LoopTimeOk u.maxLoopTime t
  coef : u.coef.isSome = true → u.loopTime.isSome = true ∧ u.reverbTime.isSome = true

/-- The part of `OSC`: R26. -/
def OscOk (u : Osc) : Prop :=
  u.live = false → u.phaseIncrement = none ∧ u.amplitude = none ∧ u.wave = none

/-- The invariant of the six units. -/
structure UnitsOk (s : State) : Prop where
  dl : LineOk params .dl s.dl.line
  lp : LpOk s.lp
  svf : SvfOk s.svf
  ap : ApOk s.ap
  sp : SpOk s.sp
  osc : OscOk s.osc

/-- A pending response is one the block may produce (R270). -/
def RspOk (s : State) : Prop := ∀ r, s.port.rsp = some r → rspWordOk r

/-- The invariant of the statements is the parts of the six units and of the port. -/
theorem stateInv_iff (s : State) : StateInv s ↔ UnitsOk s ∧ RspOk s := by
  constructor
  · intro h
    obtain ⟨hlp, hsvf, hap, hsp, hosc⟩ := h.unset
    exact ⟨{ dl := h.dlLine
             lp := ⟨hlp, h.lpCoupled⟩
             svf := ⟨hsvf, h.svfDamp, h.svfDrive, h.svfResonance, h.svfPreDrive, h.svfPublished⟩
             ap := ⟨h.apLine, hap⟩
             sp := ⟨h.spLine, hsp, h.spMax, h.spLoopTime, h.spCoef⟩
             osc := hosc }, h.rsp⟩
  · rintro ⟨h, hrsp⟩
    exact { dlLine := h.dl, apLine := h.ap.line, spLine := h.sp.line
            unset := ⟨h.lp.unset, h.svf.unset, h.ap.unset, h.sp.unset, h.osc⟩
            lpCoupled := h.lp.coupled
            svfDamp := h.svf.damp, svfDrive := h.svf.drive, svfResonance := h.svf.resonance
            svfPreDrive := h.svf.preDrive, svfPublished := h.svf.published
            spMax := h.sp.max, spLoopTime := h.sp.loopTime, spCoef := h.sp.coef
            rsp := hrsp }

/-! ## After reset -/

/-- The peak output of zero accumulators is zero (R181, R188). -/
theorem fsub_zero_zero : fsub C_0 C_0 = C_0 := by decide

/-- Reset leaves every unit not live, with its cursor at 0 and no `Opt` register set, over the memories as they were (R290). -/
theorem unitsOk_afterReset {s : State} (hdl : Memory.wf params .dl s.dl.line.mem = true)
    (hap : Memory.wf params .ap s.ap.line.mem = true) (hsp : Memory.wf params .sp s.sp.line.mem = true) :
    UnitsOk s.afterReset where
  dl := ⟨params.len_pos .dl, hdl⟩
  lp := { unset := fun _ => ⟨rfl, rfl⟩, coupled := rfl }
  svf := { unset := fun _ => ⟨rfl, rfl, rfl, rfl, rfl⟩, damp := rfl, drive := rfl
           resonance := nofun, preDrive := nofun
           published := ⟨rfl, rfl, rfl, rfl, fsub_zero_zero.symm⟩ }
  ap := { line := ⟨params.len_pos .ap, hap⟩, unset := fun _ => rfl }
  sp := { line := ⟨params.len_pos .sp, hsp⟩, unset := fun _ => ⟨rfl, rfl, rfl⟩
          max := nofun, loopTime := nofun, coef := nofun }
  osc := fun _ => ⟨rfl, rfl, rfl⟩

/-- Settles O12: the launch state is its own reset, over three memories in which nothing is listed. -/
theorem invariantHoldsAtReset : Obligations.InvariantHoldsAtReset :=
  (stateInv_iff _).2
    ⟨unitsOk_afterReset (s := State.reset) (wf_nil ..) (wf_nil ..) (wf_nil ..), nofun⟩

/-! ## What the setters store -/

/-- A clamp answers a NaN or a value of its interval (R34, R121). -/
theorem inRangeOrNaN_fclamp (v : F32) {lo hi : F32} (h : fle lo hi = true) : InRangeOrNaN lo hi (fclamp v lo hi) := by
  cases hv : isNaN v with
  | true => exact .inl (by rw [fclamp_nan hv, hv])
  | false => exact .inr ⟨le_fclamp hv (fle_iff.1 h).1 hi, fclamp_le hv h⟩

/-- The clamp of `SP.SET_FREQ`, whose interval may be empty: the lower bound wins (R37, R216). -/
theorem loopTimeOk_fclamp (v hi : F32) : LoopTimeOk hi (fclamp v C_1EM4 hi) := by
  cases hv : isNaN v with
  | true => exact .inl (by rw [fclamp_nan hv, hv])
  | false => exact .inr ⟨le_fclamp hv (by decide) hi, fclamp_le hv⟩

/-- What `SVF.PROCESS` publishes is what its second pass left (R188). -/
theorem svfPublished_svfTick (freq damp drive x : F32) (u : Svf) : SvfPublished (svfTick freq damp drive x u) :=
  ⟨rfl, rfl, rfl, rfl, rfl⟩

/-! ## Every move keeps its unit's part -/

/-- What is asked of a unit that is not live is nothing once the unit is live. -/
theorem of_not_live {b : Bool} {p : Prop} (hl : b = true) (h : b = false) : p := by
  rw [hl] at h
  cases h

theorem DlMoves.keeps {i : Instr} {u u' : Dl} (h : DlMoves i u u') (hu : LineOk params .dl u.line) :
    LineOk params .dl u'.line := by
  cases h with
  | new => exact lineOk_lineRestart hu
  | write _ hw => exact lineOk_lineWrite hu hw

theorem LpMoves.keeps {i : Instr} {u u' : Lp} (h : LpMoves i u u') (hu : LpOk u) : LpOk u' := by
  cases h with
  | new => exact { unset := fun _ => ⟨rfl, rfl⟩, coupled := rfl }
  | process => exact { unset := hu.unset, coupled := hu.coupled }
  | setFreq hl => exact { unset := of_not_live hl, coupled := rfl }

theorem SvfMoves.keeps {i : Instr} {u u' : Svf} (h : SvfMoves i u u') (hu : SvfOk u) : SvfOk u' := by
  cases h with
  | new =>
    exact { unset := fun _ => ⟨rfl, rfl, rfl, rfl, rfl⟩, damp := rfl, drive := rfl
            resonance := nofun, preDrive := nofun
            published := ⟨rfl, rfl, rfl, rfl, fsub_zero_zero.symm⟩ }
  | process => exact { hu with published := svfPublished_svfTick .. }
  | setFreq hl => exact { hu with unset := of_not_live hl, damp := rfl }
  | setRes hl =>
    exact { hu with
      unset := of_not_live hl, damp := rfl, drive := rfl
      resonance := fun _ h => Option.some.inj h ▸ inRangeOrNaN_fclamp _ (by decide) }
  | setDrive hl =>
    exact { hu with
      unset := of_not_live hl, drive := rfl
      preDrive := fun _ h => Option.some.inj h ▸ inRangeOrNaN_fclamp _ (by decide) }

theorem ApMoves.keeps {i : Instr} {u u' : Ap} (h : ApMoves i u u') (hu : ApOk u) : ApOk u' := by
  cases h with
  | new => exact { line := lineOk_lineRestart hu.line, unset := fun _ => rfl }
  | process _ _ ht =>
    obtain ⟨_, hw⟩ := allpassTick_ok ht
    exact { line := lineOk_lineWrite hu.line hw, unset := hu.unset }
  | setFreq hl => exact { line := hu.line, unset := of_not_live hl }

theorem SpMoves.keeps {i : Instr} {u u' : Sp} (h : SpMoves i u u') (hu : SpOk u) : SpOk u' := by
  cases h with
  | new =>
    exact { line := lineOk_lineRestart hu.line, unset := fun _ => ⟨rfl, rfl, rfl⟩, max := fun _ => by dsimp only
            loopTime := nofun, coef := nofun }
  | process _ _ ht =>
    obtain ⟨_, hw⟩ := allpassTick_ok ht
    exact { hu with line := lineOk_lineWrite hu.line hw }
  | setFreq hl =>
    exact { hu with
      unset := of_not_live hl
      loopTime := fun _ h => Option.some.inj h ▸ loopTimeOk_fclamp ..
      coef := fun h => ⟨rfl, (hu.coef h).2⟩ }
  | setRt hl =>
    exact { hu with unset := of_not_live hl, coef := fun h => ⟨by simpa using h, rfl⟩ }

theorem OscMoves.keeps {i : Instr} {u u' : Osc} (h : OscMoves i u u') (hu : OscOk u) : OscOk u' := by
  cases h with
  | new => exact fun _ => ⟨rfl, rfl, rfl⟩
  | process => exact hu
  | setFreq hl => exact of_not_live hl
  | setAmp hl => exact of_not_live hl
  | setPhase => exact hu
  | setWave hl => exact of_not_live hl

/-! ## Every command and every step -/

theorem Leaves.keeps_units {s t : State} {i : Instr} (h : Leaves s i t) (hs : UnitsOk s) : UnitsOk t := by
  cases h with
  | answer => exact { hs with }
  | dl h => exact { hs with dl := h.keeps hs.dl }
  | lp h => exact { hs with lp := h.keeps hs.lp }
  | svf h => exact { hs with svf := h.keeps hs.svf }
  | ap h => exact { hs with ap := h.keeps hs.ap }
  | sp h => exact { hs with sp := h.keeps hs.sp }
  | osc h => exact { hs with osc := h.keeps hs.osc }

theorem rspOk_of_rsp_eq {s : State} {w : RspWord} (h : s.port.rsp = some w) (hw : rspWordOk w) : RspOk s := by
  intro r hr
  obtain rfl : w = r := Option.some.inj (h.symm.trans hr)
  exact hw

theorem Leaves.rspOk {s t : State} {i : Instr} (h : Leaves s i t) : RspOk t := by
  cases h with
  | answer _ hw => exact rspOk_of_rsp_eq rfl hw
  | dl | lp | svf | ap | sp | osc => exact rspOk_of_rsp_eq rfl (rspWordOk_ok _)

/-- Settles O13, over the five ways a step goes on. -/
theorem stepKeepsTheInvariant : Obligations.StepKeepsTheInvariant := by
  intro s t hs h
  obtain ⟨hu, hr⟩ := (stateInv_iff s).1 hs
  rw [stateInv_iff]
  obtain (rfl | ⟨_, rfl⟩ | ⟨_, rfl⟩) | ⟨_, rest, _, _, _, _, rfl⟩ | ⟨_, rest, i, _, _, _, hexec⟩ := step_cases h
  · exact ⟨hu, hr⟩
  · exact ⟨{ hu with }, nofun⟩
  · exact ⟨{ unitsOk_afterReset hu.dl.2 hu.ap.line.2 hu.sp.line.2 with }, nofun⟩
  · exact ⟨{ hu with }, rspOk_of_rsp_eq rfl (rspWordOk_refusal .illegal)⟩
  · have hl := exec_leaves hexec
    exact ⟨hl.keeps_units { hu with }, hl.rspOk⟩

end Sys2Proof.Machine
end

section
/-! What the commands write of the registers that every unit has, and what the setters leave alone (10_state.md R23, R27, R45;
60_exceptions.md R273). -/

namespace Sys2Proof.Machine

theorem live_eq_of_sameUnit {u : UnitId} {s t : State} (h : SameUnit u s t) : t.live u = s.live u := by
  cases u <;> simp only [SameUnit] at h <;> simp only [State.live, h]

theorem fs_eq_of_sameUnit {u : UnitId} {s t : State} (h : SameUnit u s t) : t.fs u = s.fs u := by
  cases u <;> simp only [SameUnit] at h <;> simp only [State.fs, h]

/-- A command keeps every unit but its own (R3). -/
theorem sameUnit_of_exec {i : Instr} {s t : State} (h : exec i s = .next t) {u : UnitId} (hu : i.unit ≠ u) :
    SameUnit u s t :=
  (unitsAreIndependent.1 i s t h).1 u hu.symm

/-! ## The live flag and the sample rate -/

/-- A command that is no NEW writes neither the live flag nor the sample rate of its unit (R23, R27). -/
theorem Leaves.same_live_fs {i : Instr} {s t : State} (h : Leaves s i t) (hn : i.isNew = false) :
    t.live i.unit = s.live i.unit ∧ t.fs i.unit = s.fs i.unit := by
  cases h with
  | answer => cases i.unit <;> exact ⟨rfl, rfl⟩
  | dl h | lp h | svf h | ap h | sp h | osc h =>
    cases h with
    | new => cases hn
    | _ => exact ⟨rfl, rfl⟩

/-- NEW makes its unit live (R23). -/
theorem Leaves.live_of_new {i : Instr} {s t : State} (h : Leaves s i t) (hn : i.isNew = true) : t.live i.unit = true := by
  cases h with
  | answer hn' => exact absurd hn (by simp [hn'])
  | dl h | lp h | svf h | ap h | sp h | osc h =>
    cases h with
    | new => rfl
    | _ => cases hn

/-- After a command a unit is live if it was or the command is its NEW (R23). -/
theorem live_iff_of_exec {i : Instr} {s t : State} (h : exec i s = .next t) (u : UnitId) :
    t.live u = true ↔ s.live u = true ∨ (i.isNew = true ∧ i.unit = u) := by
  by_cases hu : i.unit = u
  · subst hu
    cases hn : i.isNew with
    | false => simp [(exec_leaves h).same_live_fs hn]
    | true => simp [(exec_leaves h).live_of_new hn]
  · simp [live_eq_of_sameUnit (sameUnit_of_exec h hu), hu]

theorem requires_not_live {c : Bool} (h : c = false) (s : State) (k : Result) :
    requires c .notLive s k = .next (s.answered 0x0200000000#40) := by
  subst h
  rfl

theorem waveOfOperand_isSome {w : U32} (h : waveOperandOk w = true) : ∃ wave, waveOfOperand w = some wave := by
  simp only [waveOperandOk, decide_eq_true_eq] at h
  unfold waveOfOperand
  interval_cases w.toNat <;> exact ⟨_, rfl⟩

/-- A unit that is not live accepts its NEW only (R273). -/
theorem exec_not_live {i : Instr} {s : State} (hw : i.wf = true) (hn : i.isNew = false) (hl : s.live i.unit = false) :
    exec i s = .next (s.answered 0x0200000000#40) := by
  cases i with
  | dlNew | lpNew | svfNew | apNew | spNew | oscNew => cases hn
  | oscSetWave w =>
    obtain ⟨wave, hwave⟩ := waveOfOperand_isSome hw
    simp only [exec, execOscSetWave, oscSetWave, hwave]
    exact requires_not_live hl s _
  | _ => exact requires_not_live hl s _

theorem afterReset_live (s : State) (u : UnitId) : s.afterReset.live u = false := by
  cases u <;> rfl

/-- Settles O17. -/
theorem liveFlagIsSetByNewOnly : Obligations.LiveFlagIsSetByNewOnly := by
  refine ⟨fun i s t u h => live_iff_of_exec h u, fun i s => exec_not_live, fun s rest u hi => ?_⟩
  have hstep : step s = .next (s.afterReset.withInputs rest) := by
    simp only [step, fetch, hi] <;> rfl
  exact ⟨_, hstep, afterReset_live s u⟩

/-- Settles O19: a command keeps the sample rate of the other units, and of its own unless it is a NEW. -/
theorem sampleRateIsWrittenByNewOnly : Obligations.SampleRateIsWrittenByNewOnly := by
  constructor
  · intro i s t u h hni
    by_cases hu : i.unit = u
    · subst hu
      exact ((exec_leaves h).same_live_fs (hni.resolve_right (not_not_intro rfl))).2
    · exact fs_eq_of_sameUnit (sameUnit_of_exec h hu)
  · intro fs s
    exact ⟨⟨_, rfl, rfl⟩, ⟨_, rfl, rfl⟩, ⟨_, rfl, rfl⟩, ⟨_, rfl, rfl⟩, ⟨_, rfl, rfl⟩⟩

/-! ## The setters -/

theorem sameAccumulators_refl (s : State) : SameAccumulators s s :=
  ⟨rfl, rfl, rfl, rfl, rfl, rfl, rfl, rfl, rfl, rfl, rfl, rfl, rfl, rfl, rfl⟩

/-- A setter is neither a NEW nor a command that advances a unit, and the ways left to move a unit write parameters only;
`OSC.SET_PHASE` is the one that writes the phase (R45). -/
theorem Leaves.same_accumulators {i : Instr} {s t : State} (h : Leaves s i t) (hset : i.isSetter = true) :
    SameAccumulators s t ∧ ((∀ p, i ≠ .oscSetPhase p) → t.osc.phase = s.osc.phase) := by
  cases h with
  | answer => exact ⟨sameAccumulators_refl s, fun _ => rfl⟩
  | dl h =>
    cases h with
    | new => cases hset
    | write => cases hset
  | lp h | svf h | ap h | sp h =>
    cases h with
    | new => cases hset
    | process => cases hset
    | _ => exact ⟨sameAccumulators_refl s, fun _ => rfl⟩
  | osc h =>
    cases h with
    | new => cases hset
    | process => cases hset
    | setPhase => exact ⟨sameAccumulators_refl s, fun hp => absurd rfl (hp _)⟩
    | _ => exact ⟨sameAccumulators_refl s, fun _ => rfl⟩

/-- Settles O20. -/
theorem settersKeepAccumulators : Obligations.SettersKeepAccumulators :=
  fun _ _ _ hset h => (exec_leaves h).same_accumulators hset

end Sys2Proof.Machine
end

section
/-! Sums and products of finite values are rounded once (40_numerics.md R112), and with that the range of the oscillator's phase
(10_state.md R39; 45_oscillator.md R238). -/

namespace Sys2Proof.Machine

/-! ## The rounded sum and product -/

/-- Either zero is the rounding of zero. -/
theorem nearest_zero {z : F32} (h : isZero z = true) : Nearest 0 z := by
  have hf : isFinite z = true := by
    simp only [isZero, isFinite, decide_eq_true_eq] at h ⊢
    omega
  simpa [value_of_isZero h] using nearest_value hf

/-- Rounding a number of units of `2^-149` by its sign and its magnitude (R112). -/
theorem nearest_pack_int (u : ℤ) : Nearest ((u : ℝ) / 2 ^ 149) (pack (decide (u < 0)) (roundMag u.natAbs 1)) := by
  convert nearest_pack (decide (u < 0)) u.natAbs one_pos using 1
  rw [Nat.cast_natAbs, Int.cast_abs]
  by_cases hu : u < 0
  · have : (u : ℝ) < 0 := by exact_mod_cast hu
    simp [hu, abs_of_neg this, neg_div]
  · have : (0 : ℝ) ≤ u := by exact_mod_cast not_lt.1 hu
    simp [hu, abs_of_nonneg this]

/-- The sum of finite operands is their exact sum, rounded once (R112, R115). -/
theorem nearest_fadd {a b : F32} (ha : isFinite a = true) (hb : isFinite b = true) :
    Nearest ((value a + value b : ℚ) : ℝ) (fadd a b) := by
  have hsum : ((value a + value b : ℚ) : ℝ) = ((units a + units b : ℤ) : ℝ) / 2 ^ 149 := by
    rw [value, value]
    push_cast
    ring
  simp only [hsum, fadd, isNaN_of_isFinite ha, isNaN_of_isFinite hb, isInf_of_isFinite ha, isInf_of_isFinite hb,
    Bool.or_self, Bool.false_eq_true, if_false]
  split
  · next hu =>
    rw [hu, Int.cast_zero, zero_div]
    split <;> exact nearest_zero (by decide)
  · exact nearest_pack_int _

/-- The product of finite operands is their exact product, rounded once (R112). -/
theorem nearest_fmul {a b : F32} (ha : isFinite a = true) (hb : isFinite b = true) :
    Nearest ((value a * value b : ℚ) : ℝ) (fmul a b) := by
  simp only [fmul, isNaN_of_isFinite ha, isNaN_of_isFinite hb, isInf_of_isFinite ha, isInf_of_isFinite hb, Bool.or_self,
    Bool.false_eq_true, if_false]
  convert nearest_pack (sgn a != sgn b) (mag a * mag b) (den := 2 ^ 149) (by positivity) using 1
  rw [Rat.cast_mul, value_eq_mag, value_eq_mag]
  push_cast
  cases sgn a <;> cases sgn b <;> simp <;> ring

/-- What lies between finite patterns is finite. -/
theorem isFinite_of_fle {lo x hi : F32} (hlo : isFinite lo = true) (hhi : isFinite hi = true) (h : fle lo x = true)
    (h' : fle x hi = true) : isFinite x = true := by
  obtain hf | rfl | rfl := number_cases (fle_iff.1 h).2.1
  · exact hf
  · rw [not_fle_neg_inf hlo] at h
    cases h
  · rw [not_pos_inf_fle hhi] at h'
    cases h'

/-! ## The phase -/

/-- The range of the phase, closed at both ends (R39). -/
def PhaseOk (p : F32) : Prop := fle C_0 p = true ∧ fle p TWO_PI = true

theorem PhaseOk.isFinite {p : F32} (h : PhaseOk p) : isFinite p = true :=
  isFinite_of_fle (by decide) (by decide) h.1 h.2

theorem zero_fle_iff {p : F32} (hp : isFinite p = true) : fle C_0 p = true ↔ 0 ≤ value p := by
  rw [fle_iff_value (by decide) hp, value_of_isZero (by decide)]

theorem phaseOk_iff_value {p : F32} (hp : isFinite p = true) : PhaseOk p ↔ 0 ≤ value p ∧ value p ≤ value TWO_PI := by
  rw [PhaseOk, zero_fle_iff hp, fle_iff_value hp (by decide)]

/-- A real that is not negative rounds to no less than `+0.0`. -/
theorem zero_fle_of_nearest {r : ℚ} {p : F32} (h : Nearest (r : ℝ) p) (hr : 0 ≤ r) : fle C_0 p = true :=
  le_nearest h (by decide) (by rw [value_of_isZero (by decide)]; exact_mod_cast hr)

/-- The rounding of a real in `[0, TWO_PI]` is in range: both ends are binary32 values. -/
theorem phaseOk_of_nearest {r : ℚ} {p : F32} (h : Nearest (r : ℝ) p) (hlo : 0 ≤ r) (hhi : r ≤ value TWO_PI) :
    PhaseOk p :=
  ⟨zero_fle_of_nearest h hlo, nearest_le h (by decide) (by exact_mod_cast hhi)⟩

/-- Two turns are a binary32 value. -/
theorem value_two_turns : value (fadd TWO_PI TWO_PI) = 2 * value TWO_PI := by
  rw [value, value, show units (fadd TWO_PI TWO_PI) = 2 * units TWO_PI by decide]
  push_cast
  ring

/-- A sum of two phases is at most two turns. -/
theorem fadd_phases_bounds {p q : F32} (hp : PhaseOk p) (hq : PhaseOk q) :
    fle C_0 (fadd p q) = true ∧ fle (fadd p q) (fadd TWO_PI TWO_PI) = true := by
  obtain ⟨hp0, hp1⟩ := (phaseOk_iff_value hp.isFinite).1 hp
  obtain ⟨hq0, hq1⟩ := (phaseOk_iff_value hq.isFinite).1 hq
  have hsum := nearest_fadd hp.isFinite hq.isFinite
  have hle : value p + value q ≤ value (fadd TWO_PI TWO_PI) := by
    rw [value_two_turns]
    linarith
  exact ⟨zero_fle_of_nearest hsum (add_nonneg hp0 hq0), nearest_le hsum (by decide) (by exact_mod_cast hle)⟩

/-- The advance keeps the phase in range: a sum above one turn is at most two, and loses one (R39, R238). -/
theorem phaseOk_advancePhase {phase inc : F32} (hp : PhaseOk phase) (hi : PhaseOk inc) :
    PhaseOk (advancePhase phase inc) := by
  obtain ⟨hlo, hhi⟩ := fadd_phases_bounds hp hi
  have hfin := isFinite_of_fle (by decide) (by decide) hlo hhi
  unfold advancePhase
  generalize fadd phase inc = p at hlo hhi hfin ⊢
  dsimp only
  split
  · next hwrap =>
    rw [flt_iff_value (by decide) hfin] at hwrap
    rw [fle_iff_value hfin (by decide), value_two_turns] at hhi
    have hdiff := nearest_fadd hfin (b := flipSign TWO_PI) (by decide)
    rw [value_flipSign] at hdiff
    exact phaseOk_of_nearest hdiff (by linarith) (by linarith)
  · next hwrap => exact ⟨hlo, (not_flt_iff (by decide) (isNaN_of_isFinite hfin)).1 (Bool.not_eq_true _ ▸ hwrap)⟩

/-- `OSC.SET_PHASE` of a number stores a phase in range: what it scales by one turn is clamped to `[0, 1]` (R39, R234). -/
theorem phaseOk_phaseOf {p : F32} (h : isNaN p = false) : PhaseOk (phaseOf p) := by
  have hlo : fle C_0 (fclamp p C_0 C_1) = true := le_fclamp h (by decide) C_1
  have hhi : fle (fclamp p C_0 C_1) C_1 = true := fclamp_le h (by decide)
  have hfin := isFinite_of_fle (by decide) (by decide) hlo hhi
  rw [zero_fle_iff hfin] at hlo
  rw [fle_iff_value hfin (by decide), value_C_1] at hhi
  have hturn : 0 ≤ value TWO_PI := (zero_fle_iff (by decide)).1 (by decide)
  exact phaseOk_of_nearest (nearest_fmul hfin (by decide)) (mul_nonneg hlo hturn) (mul_le_of_le_one_left hturn hhi)

/-- What `OSC.PROCESS` can do to the phase: nothing where it is refused, otherwise one advance (R238). -/
theorem Leaves.phase_of_oscProcess {s t : State} (h : Leaves s .oscProcess t) :
    t.osc.phase = s.osc.phase ∨ ∃ inc, s.osc.phaseIncrement = some inc ∧ t.osc.phase = advancePhase s.osc.phase inc := by
  cases h with
  | answer => exact .inl rfl
  | dl h | lp h | svf h | ap h | sp h => cases h
  | osc h =>
    cases h with
    | process _ hi => exact .inr ⟨_, hi, rfl⟩

theorem exec_oscSetPhase {s : State} (hl : s.osc.live = true) (p : F32) :
    exec (.oscSetPhase p) s = .next ({ s with osc := { s.osc with phase := phaseOf p } }.respond 0#32) := by
  simp only [exec, execOscSetPhase, oscSetPhase, hl, requires_true]

/-- Settles O57. -/
theorem oscPhaseStaysInRange : Obligations.OscPhaseStaysInRange := by
  constructor
  · intro s t inc hinc hi0 hi1 hp0 hp1 h
    obtain hp | ⟨inc', hinc', hp⟩ := (exec_leaves h).phase_of_oscProcess
    · rw [hp]
      exact ⟨hp0, hp1⟩
    · obtain rfl : inc = inc' := Option.some.inj (hinc.symm.trans hinc')
      rw [hp]
      exact phaseOk_advancePhase ⟨hp0, hp1⟩ ⟨hi0, hi1⟩
  · intro p s hl hp
    exact ⟨_, exec_oscSetPhase hl p, phaseOk_phaseOf hp⟩

end Sys2Proof.Machine
end

section
/-! Read after write (20_memory.md R62, R63). The list holds only what differs from `BUF_INIT`: writing that value takes the
address out, and any other value is listed. Both kinds of write read alike. -/

namespace Sys2Proof.Machine

/-- What a memory reads as after a write, whichever way the write is kept (R62, R63). -/
theorem sample_store (P : Params) (b : Buf) (m : Memory) (a : Nat) (v : F32) (c : Nat) :
    Memory.sample P b (Memory.store P b m a v) c = if c = a then v else Memory.sample P b m c := by
  by_cases hv : v = P.bufInit b a
  · by_cases hc : c = a <;> simp [Memory.sample, Memory.store, lookup_erase, hv, hc]
  · by_cases hc : c = a <;> simp [Memory.sample, Memory.store, lookup_insert, hv, hc]

@[simp] theorem sample_store_self (P : Params) (b : Buf) (m : Memory) (a : Nat) (v : F32) :
    Memory.sample P b (Memory.store P b m a v) a = v := by
  rw [sample_store, if_pos rfl]

theorem sample_store_of_ne (P : Params) (b : Buf) (m : Memory) {a c : Nat} (v : F32) (hc : c ≠ a) :
    Memory.sample P b (Memory.store P b m a v) c = Memory.sample P b m c := by
  rw [sample_store, if_neg hc]

/-- A read sees only the sample at its own address; whether the address exists does not depend on the memory (R61, R62). -/
theorem memRead_congr {P : Params} {b : Buf} {m m' : Memory} {a : Nat}
    (h : Memory.sample P b m a = Memory.sample P b m' a) : memRead P b m a = memRead P b m' a := by
  rw [memRead, memRead, h]

/-- Settles O22: a write that answers leaves `Memory.store`, so both halves are what that reads as. -/
theorem readAfterWriteOfAMemory : Obligations.ReadAfterWriteOfAMemory := by
  intro P b m m' a v h
  obtain ⟨ha, rfl⟩ := memWrite_ok_iff.1 h
  constructor
  · exact memRead_ok_iff.2 ⟨ha, (sample_store_self P b m a v).symm⟩
  · intro c hc
    exact memRead_congr (sample_store_of_ne P b m v hc)

end Sys2Proof.Machine
end

section
/-! Encoding (30_encoding.md R82 to R93). The opcode byte of a word picks a row of R87, and the row's mask alone says which
operands are legal: `decode_append_opc` is that one equation. The round trips, the opcode table, the steps of R85 and the
list of R88 are read off it, together with the opcode bytes that have no row. -/

namespace Sys2Proof

/-! ## Operands under a mask -/

/-- Format `Z`: every operand bit is under the mask (R87). -/
theorem and_maskZ (d : BitVec 32) : d &&& cmdOperand maskZ = d := by
  rw [show cmdOperand maskZ = BitVec.allOnes 32 by decide, BitVec.and_allOnes]

/-- Formats `F` and `U`: no operand bit is under the mask (R87). -/
theorem and_maskF (d : BitVec 32) : d &&& cmdOperand maskF = 0#32 := by
  rw [show cmdOperand maskF = 0#32 by decide, BitVec.and_zero]

/-- Format `W`: an operand is legal up to 7 (R83, R87). -/
theorem and_maskW (d : BitVec 32) : d &&& cmdOperand maskW = 0#32 ↔ d.toNat ≤ 7 := by
  rw [show cmdOperand maskW = 0xFFFFFFF8#32 by decide, and_waveMask]

/-- The name under which an operand that the mask forbids is refused (R85, steps 3 and 4). -/
def operandError (mask : CmdWord) : DecodeError := if mask = maskW then .waveAboveSeven else .operandNotZero

/-- Steps 3 to 5 of R85, told by the mask: the command, unless the operand has a bit under the mask. -/
def readOperand (mask : CmdWord) (d : BitVec 32) (i : Instr) : Except DecodeError Instr :=
  if d &&& cmdOperand mask = 0#32 then .ok i else .error (operandError mask)

theorem readOperand_maskZ (d : BitVec 32) (i : Instr) : readOperand maskZ d i = decodeZ d i := by
  rw [readOperand, and_maskZ, decodeZ, show operandError maskZ = .operandNotZero from rfl]

theorem readOperand_maskF (d : BitVec 32) (i : Instr) : readOperand maskF d i = .ok i :=
  if_pos (and_maskF d)

theorem readOperand_maskW (d : BitVec 32) (k : U32 → Instr) : readOperand maskW d (k d) = decodeW d k := by
  simp only [readOperand, and_maskW, decodeW, operandError, waveOperandOk, decide_eq_true_eq, if_true]

theorem readOperand_ok_iff {mask : CmdWord} {d : BitVec 32} {i j : Instr} :
    readOperand mask d i = .ok j ↔ d &&& cmdOperand mask = 0#32 ∧ i = j := by
  unfold readOperand
  split <;> simp [*]

theorem readOperand_error_iff {mask : CmdWord} {d : BitVec 32} {i : Instr} :
    (∃ e, readOperand mask d i = .error e) ↔ d &&& cmdOperand mask ≠ 0#32 := by
  unfold readOperand
  split <;> simp [*]

/-! ## A command with its operand replaced -/

/-- The command of the same row that carries the operand `d`; a command of format `Z` carries none and stays itself. -/
def Instr.withOperand (i : Instr) (d : BitVec 32) : Instr :=
  match i with
  | .dlWrite _ => .dlWrite d
  | .dlGet _ => .dlGet d
  | .lpNew _ => .lpNew d
  | .lpProcess _ => .lpProcess d
  | .lpSetFreq _ => .lpSetFreq d
  | .svfNew _ => .svfNew d
  | .svfProcess _ => .svfProcess d
  | .svfSetFreq _ => .svfSetFreq d
  | .svfSetRes _ => .svfSetRes d
  | .svfSetDrive _ => .svfSetDrive d
  | .apNew _ => .apNew d
  | .apProcess _ => .apProcess d
  | .apSetFreq _ => .apSetFreq d
  | .spNew _ => .spNew d
  | .spProcess _ => .spProcess d
  | .spSetFreq _ => .spSetFreq d
  | .spSetRt _ => .spSetRt d
  | .oscNew _ => .oscNew d
  | .oscSetFreq _ => .oscSetFreq d
  | .oscSetAmp _ => .oscSetAmp d
  | .oscSetPhase _ => .oscSetPhase d
  | .oscSetWave _ => .oscSetWave d
  | i => i

@[simp] theorem withOperand_operand (i : Instr) : i.withOperand i.operand = i := by
  cases i <;> rfl

@[simp] theorem opc_withOperand (i : Instr) (d : BitVec 32) : (i.withOperand d).opc = i.opc := by
  cases i <;> rfl

@[simp] theorem row_withOperand (i : Instr) (d : BitVec 32) : (i.withOperand d).row = i.row := by
  cases i <;> rfl

/-- An operand that the row's mask allows is the operand of the command that carries it. -/
theorem operand_withOperand {i : Instr} {d : BitVec 32} (h : d &&& cmdOperand i.row.mask = 0#32) :
    (i.withOperand d).operand = d := by
  cases i with
  | dlNew | dlRead | dlLen | svfGetLow | svfGetHigh | svfGetBand | svfGetNotch | svfGetPeak | oscProcess =>
    exact h.symm.trans (and_maskZ d)
  | _ => rfl

theorem wf_withOperand {i : Instr} {d : BitVec 32} (h : d &&& cmdOperand i.row.mask = 0#32) :
    (i.withOperand d).wf = true := by
  cases i with
  | oscSetWave => exact decide_eq_true ((and_maskW d).1 h)
  | _ => rfl

/-! ## The encoding of a command matches its row -/

theorem encode_matches_row (i : Instr) : Laws.EncodeMatchesRow.Statement i := by
  cases i with
  | dlNew | dlRead | dlLen | svfGetLow | svfGetHigh | svfGetBand | svfGetNotch | svfGetPeak | oscProcess =>
    exact Laws.EncodeMatchesRow.of_zero rfl
  | oscSetWave w => exact Laws.EncodeMatchesRow.oscSetWave w
  | _ => exact Laws.EncodeMatchesRow.of_maskF rfl

/-- The operand of a well-formed command has no bit under its row's mask (R83). -/
theorem operand_and_mask {i : Instr} (h : i.wf = true) : i.operand &&& cmdOperand i.row.mask = 0#32 := by
  simpa using ((row_matches_iff (encode i) i).1 (encode_matches_row i h)).2

/-! ## Decoding by the row -/

/-- A word with the opcode byte of a command decodes as that command's row, if the row's mask allows the operand (R85). -/
theorem decode_append_opc (i : Instr) (d : BitVec 32) :
    decode (i.opc ++ d) = readOperand i.row.mask d (i.withOperand d) := by
  rw [decode_append]
  cases i with
  | dlNew | dlRead | dlLen | svfGetLow | svfGetHigh | svfGetBand | svfGetNotch | svfGetPeak | oscProcess =>
    exact (readOperand_maskZ d _).symm
  | oscSetWave =>
    dsimp only [Instr.opc]
    exact (readOperand_maskW d .oscSetWave).symm
  | _ =>
    dsimp only [Instr.opc]
    exact (readOperand_maskF d _).symm

theorem decode_of_opc {i : Instr} {w : CmdWord} (h : i.opc = cmdOpc w) :
    decode w = readOperand i.row.mask (cmdOperand w) (i.withOperand (cmdOperand w)) := by
  rw [← decode_append_opc, h, opc_append_operand]

/-! ## The opcode bytes that have no row -/

/-- The unit and function codes that no row of R87 has, as R88 lists them. -/
def NoRow (unit fn : Nat) : Prop :=
  6 ≤ unit ∨ (unit = 0 ∧ 5 ≤ fn) ∨ ((unit = 1 ∨ unit = 3) ∧ 3 ≤ fn) ∨
    (unit = 2 ∧ ((5 ≤ fn ∧ fn ≤ 7) ∨ 13 ≤ fn)) ∨ (unit = 4 ∧ 4 ≤ fn) ∨ (unit = 5 ∧ 6 ≤ fn)

theorem decodeFields_reservedUnit {unit : Nat} (h : 5 < unit) (fn : Nat) (d : BitVec 32) :
    decodeFields unit fn d = .error .reservedUnit :=
  if_pos h

theorem decodeFields_reservedFn {unit fn : Nat} (hu : unit ≤ 5) (h : NoRow unit fn) (d : BitVec 32) :
    decodeFields unit fn d = .error .reservedFn := by
  unfold NoRow at h
  unfold decodeFields
  rw [if_neg (not_lt.2 hu)]
  -- the fields of a row are none of the listed ones
  split <;> try omega
  rfl

/-- One command of each row, in the order of the table. -/
def rowCommands : List Instr :=
  [.dlNew, .dlWrite 0#32, .dlRead, .dlGet 0#32, .dlLen, .lpNew 0#32, .lpProcess 0#32, .lpSetFreq 0#32, .svfNew 0#32,
    .svfProcess 0#32, .svfSetFreq 0#32, .svfSetRes 0#32, .svfSetDrive 0#32, .svfGetLow, .svfGetHigh, .svfGetBand,
    .svfGetNotch, .svfGetPeak, .apNew 0#32, .apProcess 0#32, .apSetFreq 0#32, .spNew 0#32, .spProcess 0#32,
    .spSetFreq 0#32, .spSetRt 0#32, .oscNew 0#32, .oscProcess, .oscSetFreq 0#32, .oscSetAmp 0#32, .oscSetPhase 0#32,
    .oscSetWave 0#32]

theorem opcodeTable_eq_map : opcodeTable = rowCommands.map Instr.row := rfl

/-- Every command is one of the list but for its operand. -/
theorem withOperand_zero_mem (i : Instr) : i.withOperand 0#32 ∈ rowCommands := by
  cases i <;> simp [Instr.withOperand, rowCommands]

theorem row_mem_opcodeTable (i : Instr) : i.row ∈ opcodeTable := by
  rw [opcodeTable_eq_map, ← row_withOperand i 0#32]
  exact List.mem_map_of_mem (withOperand_zero_mem i)

theorem exists_row_of_mem {r : Row} (h : r ∈ opcodeTable) : ∃ i : Instr, i.row = r := by
  rw [opcodeTable_eq_map] at h
  obtain ⟨i, -, hi⟩ := List.mem_map.1 h
  exact ⟨i, hi⟩

/-- The opcode bytes of the rows and the codes that R88 lists make up the 256 bytes. -/
theorem noRow_iff_not_mem (b : BitVec 8) :
    NoRow (b.toNat / 16) (b.toNat % 16) ↔ b ∉ rowCommands.map Instr.opc := by
  revert b
  unfold NoRow
  decide

/-- The list of R88 is complete: its codes are those of no command. -/
theorem noRow_iff (b : BitVec 8) : NoRow (b.toNat / 16) (b.toNat % 16) ↔ ∀ i : Instr, i.opc ≠ b := by
  rw [noRow_iff_not_mem]
  constructor
  · rintro h i rfl
    refine h ?_
    rw [← opc_withOperand i 0#32]
    exact List.mem_map_of_mem (withOperand_zero_mem i)
  · intro h hb
    obtain ⟨i, -, hi⟩ := List.mem_map.1 hb
    exact h i hi

theorem noRow_word_iff (w : CmdWord) :
    NoRow (cmdUnit w).toNat (cmdFn w).toNat ↔ ∀ i : Instr, i.opc ≠ cmdOpc w := by
  rw [cmdUnit_toNat, cmdFn_toNat, noRow_iff]

/-- A word whose opcode byte is that of no command is illegal (R85, steps 1 and 2). -/
theorem decode_error_of_no_opc {w : CmdWord} (h : ∀ i : Instr, i.opc ≠ cmdOpc w) : ∃ e, decode w = .error e := by
  by_cases hu : 5 < (cmdUnit w).toNat
  · exact ⟨_, decodeFields_reservedUnit hu _ _⟩
  · exact ⟨_, decodeFields_reservedFn (not_lt.1 hu) ((noRow_word_iff w).2 h) _⟩

/-! ## What decodes and what does not -/

/-- A word decodes to the well-formed command that has its opcode byte and its operand (R85). -/
theorem decode_ok_iff {w : CmdWord} {i : Instr} :
    decode w = .ok i ↔ i.wf = true ∧ i.opc = cmdOpc w ∧ i.operand = cmdOperand w := by
  constructor
  · intro h
    obtain ⟨j, hj⟩ : ∃ j : Instr, j.opc = cmdOpc w := by
      by_contra hno
      obtain ⟨e, he⟩ := decode_error_of_no_opc (not_exists.1 hno)
      cases h.symm.trans he
    obtain ⟨hfits, rfl⟩ := readOperand_ok_iff.1 ((decode_of_opc hj).symm.trans h)
    exact ⟨wf_withOperand hfits, (opc_withOperand j _).trans hj, operand_withOperand hfits⟩
  · rintro ⟨hwf, hopc, hoperand⟩
    rw [decode_of_opc hopc, ← hoperand, withOperand_operand]
    exact readOperand_ok_iff.2 ⟨operand_and_mask hwf, rfl⟩

/-- The opcode bytes of the rows of format `Z`, as R88 names them. -/
def formatZOpcs : List (BitVec 8) :=
  [0x00#8, 0x02#8, 0x04#8, 0x28#8, 0x29#8, 0x2A#8, 0x2B#8, 0x2C#8, 0x51#8]

/-- An operand has a bit under a command's mask when it is not zero in format `Z` or above 7 in format `W` (R83). -/
theorem operand_forbidden_iff (i : Instr) (d : BitVec 32) :
    d &&& cmdOperand i.row.mask ≠ 0#32 ↔
      (i.opc ∈ formatZOpcs ∧ d ≠ 0#32) ∨
        (i.opc = 0x55#8 ∧ 7 < d.toNat) := by
  cases i with
  | dlNew | dlRead | dlLen | svfGetLow | svfGetHigh | svfGetBand | svfGetNotch | svfGetPeak | oscProcess =>
    simp [formatZOpcs, Instr.row, Instr.opc, and_maskZ]
  | oscSetWave => simp [formatZOpcs, Instr.row, Instr.opc, and_maskW]
  | _ => simp [formatZOpcs, Instr.row, Instr.opc, and_maskF]

/-- The two ways to be illegal: no row has the opcode byte, or the row that has it forbids the operand (R88). -/
theorem decode_error_iff (w : CmdWord) :
    (∃ e, decode w = .error e) ↔ NoRow (cmdUnit w).toNat (cmdFn w).toNat ∨
      (cmdOpc w ∈ formatZOpcs ∧ cmdOperand w ≠ 0#32) ∨
        (cmdOpc w = 0x55#8 ∧ 7 < (cmdOperand w).toNat) := by
  by_cases hno : NoRow (cmdUnit w).toNat (cmdFn w).toNat
  · exact iff_of_true (decode_error_of_no_opc ((noRow_word_iff w).1 hno)) (.inl hno)
  · obtain ⟨i, hi⟩ : ∃ i : Instr, i.opc = cmdOpc w := by
      by_contra h
      exact hno ((noRow_word_iff w).2 (not_exists.1 h))
    rw [or_iff_right hno, decode_of_opc hi, readOperand_error_iff, operand_forbidden_iff, hi]

/-! ## The statements -/

/-- Settles O1: the encoding holds the command's own opcode byte and operand. -/
theorem decodeOfEncodeIsIdentity : Obligations.DecodeOfEncodeIsIdentity :=
  fun i hwf => decode_ok_iff.2 ⟨hwf, (cmdOpc_encode i).symm, (cmdOperand_encode i).symm⟩

/-- Settles O2: a word is its opcode byte and its operand, and the command has both. -/
theorem encodeOfDecodeIsIdentity : Obligations.EncodeOfDecodeIsIdentity := by
  intro w i h
  obtain ⟨hwf, hopc, hoperand⟩ := decode_ok_iff.1 h
  exact ⟨hwf, by rw [encode, hopc, hoperand, opc_append_operand]⟩

theorem matches_row_of_decode {w : CmdWord} {i : Instr} (h : decode w = .ok i) : w &&& i.row.mask = i.row.pattern := by
  obtain ⟨hwf, rfl⟩ := encodeOfDecodeIsIdentity w i h
  exact encode_matches_row i hwf

/-- Settles O3: a word that matches a row has the opcode byte of the row's command and an operand the mask allows, so it
decodes to that command with the word's operand. -/
theorem decodeFollowsOpcodeTable : Obligations.DecodeFollowsOpcodeTable := by
  constructor
  · intro w r hr
    constructor
    · intro hmatch
      obtain ⟨j, rfl⟩ := exists_row_of_mem hr
      obtain ⟨hopc, hfits⟩ := (row_matches_iff w j).1 hmatch
      exact ⟨_, (decode_of_opc hopc.symm).trans (readOperand_ok_iff.2 ⟨hfits, rfl⟩), row_withOperand j _⟩
    · rintro ⟨i, hi, rfl⟩
      exact matches_row_of_decode hi
  · intro w hno
    cases h : decode w with
    | ok i => exact absurd (matches_row_of_decode h) (hno i.row (row_mem_opcodeTable i))
    | error e => exact ⟨e, rfl⟩

/-- Settles O4: an opcode byte with no row is one of the listed unit and function codes; with a row, the word is illegal by
its operand alone. -/
theorem illegalWordsAreExactlyTheListed : Obligations.IllegalWordsAreExactlyTheListed := by
  intro w
  rw [decode_error_iff, NoRow, formatZOpcs]
  simp only [or_assoc]

/-- Settles O5: steps 1 and 2 look at the opcode byte alone, steps 3 to 5 are the reading of the operand by the row's mask. -/
theorem decodingStepsInOrder : Obligations.DecodingStepsInOrder := by
  intro w
  refine ⟨fun hunit => decodeFields_reservedUnit hunit _ _,
    fun hunit hno => decodeFields_reservedFn hunit ((noRow_word_iff w).2 hno) _, ?_, ?_,
    fun i hwf hopc hoperand => decode_ok_iff.2 ⟨hwf, hopc, hoperand⟩⟩
  · intro i hopc hmask hne
    rw [decode_of_opc hopc, hmask, readOperand_maskZ, decodeZ, if_neg hne]
  · intro i hopc hmask hgt
    rw [decode_of_opc hopc, hmask, readOperand, if_neg (by rw [and_maskW]; omega)]
    rfl

/-- Settles O6. -/
theorem specExampleWordsDecode : Obligations.SpecExampleWordsDecode := by
  unfold Obligations.SpecExampleWordsDecode
  decide

end Sys2Proof
end

section
/-! The step at the ports (30_encoding.md R80, R81; 60_exceptions.md R288): which events a step looks at, by what stands first in
the host's list and whether a response is pending. -/

namespace Sys2Proof.Machine

/-- A command word is transferred while no response is pending, and its command runs in that step (R81). -/
theorem step_of_transferred {s : State} {w : CmdWord} {rest : List HostInput} {i : Instr}
    (hin : s.port.inputs = .command w :: rest) (hready : s.cmdReady = true) (hw : decode w = .ok i) :
    step s = exec i (s.withInputs rest) := by
  have hfetch : fetch s = .command i (s.withInputs rest) := by
    simp only [fetch, hin, hready, if_true, transferCommand, hw]
  rw [step, hfetch]

/-- While a response is pending no word is transferred, and the step is the first event that is none (R80, R81). -/
theorem step_of_not_ready {s : State} (h : s.cmdReady = false) : step s = .next (otherEvent s [] s.port.inputs) := by
  have hfetch : fetch s = .settled (otherEvent s [] s.port.inputs) := by
    cases hin : s.port.inputs with
    | nil => simp only [fetch, hin, otherEvent]
    | cons event rest => cases event <;> simp [fetch, hin, h]
  rw [step, hfetch]

theorem cmdReady_eq_false {s : State} {r : RspWord} (h : s.port.rsp = some r) : s.cmdReady = false := by
  rw [State.cmdReady, h, Option.isNone_some]

theorem cmdReady_eq_true {s : State} (h : s.port.rsp = none) : s.cmdReady = true := by
  rw [State.cmdReady, h, Option.isNone_none]

/-- Command words that stand before other events join the waiting ones in their order (R80). -/
theorem otherEvent_words (s : State) (waiting : List HostInput) (ws : List CmdWord) (l : List HostInput) :
    otherEvent s waiting (ws.map .command ++ l) = otherEvent s (waiting ++ ws.map .command) l := by
  induction ws generalizing waiting with
  | nil => simp
  | cons w ws ih => simp [otherEvent, ih]

/-- Words alone behind a pending response change nothing (R288). -/
theorem otherEvent_words_only (s : State) (ws : List CmdWord) : otherEvent s [] (ws.map .command) = s := by
  simpa [otherEvent] using otherEvent_words s [] ws []

/-- The response transfer is found behind any words that wait (R80). -/
theorem otherEvent_words_takeResponse (s : State) (ws : List CmdWord) (rest : List HostInput) :
    otherEvent s [] (ws.map .command ++ .takeResponse :: rest) =
      s.takeResponse.withInputs (ws.map .command ++ rest) :=
  otherEvent_words s [] ws _

/-- Settles O7. -/
theorem stepRunsTheDecodedCommand : Obligations.StepRunsTheDecodedCommand :=
  fun _ _ _ _ hin hrsp hw => step_of_transferred hin (cmdReady_eq_true hrsp) hw

/-- Settles O9: with no event the step settles at once; with a pending response it performs the first event that is no word. -/
theorem stepKeepsThePortProtocol : Obligations.StepKeepsThePortProtocol := by
  refine ⟨fun s hin => ?_, fun s ws r hin hrsp => ?_, fun s ws rest r hin hrsp => ?_, fun s rest hin _ => ?_⟩
  · have hfetch : fetch s = .settled s := by simp only [fetch, hin]
    rw [step, hfetch]
  · rw [step_of_not_ready (cmdReady_eq_false hrsp), hin, otherEvent_words_only]
  · rw [step_of_not_ready (cmdReady_eq_false hrsp), hin, otherEvent_words_takeResponse]
    rfl
  · have hfetch : fetch s = .settled (s.takeResponse.withInputs rest) := by
      simp only [fetch, hin, otherEvent, List.nil_append]
    rw [step, hfetch]
    rfl

end Sys2Proof.Machine
end

section
/-! Rounding (40_numerics.md R112): a real has one nearest value, what lies between two reals with the same nearest value has it
too, and the four operations on finite operands are their exact results, rounded once. -/

namespace Sys2Proof.Machine

/-! ## The nearest value -/

theorem value_eq_zero_iff {p : F32} : value p = 0 ↔ isZero p = true := by
  refine ⟨fun h => isZero_of_orderKey ?_, value_of_isZero⟩
  rw [← value_of_isZero (p := C_0) (by decide), value_eq_iff] at h
  exact h

/-- What is nearest to a binary32 value has that value. -/
theorem value_of_nearest_value {x p : F32} (hx : isFinite x = true) (h : Nearest ((value x : ℚ) : ℝ) p) :
    value p = value x := by
  obtain ⟨-, hdist, -⟩ := h.2.2 (abs_lt.2 ⟨neg_top_lt_value hx, value_lt_top hx⟩)
  have hle := hdist x hx
  rw [sub_self, abs_zero, abs_nonpos_iff, sub_eq_zero] at hle
  exact_mod_cast hle

/-- Apart from the two zeros, a pattern is nearest to its own value only. -/
theorem eq_of_nearest_value {x p : F32} (hx : isFinite x = true) (hz : isZero x = false)
    (h : Nearest ((value x : ℚ) : ℝ) p) : p = x := by
  refine eq_of_orderKey ((value_eq_iff _ _).1 (value_of_nearest_value hx h)) fun h0 => ?_
  rw [isZero_of_orderKey h0] at hz
  cases hz

/-- A real strictly between two reals that round to the same finite value rounds to it: distances to two values compare by their
midpoint, which lies on one side of both ends and so is no tie. -/
theorem nearest_between {r₁ r r₂ : ℝ} {p : F32} (hp : isFinite p = true) (hlo : r₁ < r) (hhi : r < r₂) (h₁ : Nearest r₁ p)
    (h₂ : Nearest r₂ p) : Nearest r p := by
  have hno : p ≠ NEG_INF ∧ p ≠ POS_INF := by
    constructor <;> rintro rfl <;> exact absurd hp (by decide)
  have htop : ¬ 2 ^ 128 - 2 ^ 103 ≤ r₂ := fun h => hno.2 (h₂.1 h)
  have hbot : ¬ r₁ ≤ -(2 ^ 128 - 2 ^ 103) := fun h => hno.1 (h₁.2.1 h)
  push Not at htop hbot
  obtain ⟨-, hd₁, -⟩ := h₁.2.2 (abs_lt.2 ⟨hbot, (hlo.trans hhi).trans htop⟩)
  obtain ⟨-, hd₂, -⟩ := h₂.2.2 (abs_lt.2 ⟨hbot.trans (hlo.trans hhi), htop⟩)
  have closer : ∀ q, isFinite q = true → value q ≠ value p →
      |((value p : ℚ) : ℝ) - r| < |((value q : ℚ) : ℝ) - r| := fun q hq hne => by
    have hm₁ := (abs_sub_le_iff_mid _ _ _).1 (hd₁ q hq)
    have hm₂ := (abs_sub_le_iff_mid _ _ _).1 (hd₂ q hq)
    rw [← not_le, abs_sub_le_iff_mid, not_le]
    have hne' : ((value q : ℚ) : ℝ) ≠ ((value p : ℚ) : ℝ) := by exact_mod_cast hne
    obtain hlt | hlt := lt_or_gt_of_ne hne' <;> nlinarith
  refine ⟨fun h => absurd (hhi.trans htop) (not_lt.2 h), fun h => absurd (hbot.trans hlo) (not_lt.2 h), fun _ =>
    ⟨hp, fun q hq => ?_, fun q hq hne he => absurd he (closer q hq hne).ne⟩⟩
  by_cases hv : value q = value p
  · rw [hv]
  · exact (closer q hq hv).le

/-! ## The four operations on finite operands -/

/-- The difference of finite operands is their exact difference, rounded once (R112). -/
theorem nearest_fsub {a b : F32} (ha : isFinite a = true) (hb : isFinite b = true) :
    Nearest ((value a - value b : ℚ) : ℝ) (fsub a b) := by
  have h := nearest_fadd ha (b := flipSign b) (by rw [isFinite_flipSign, hb])
  rwa [value_flipSign, ← sub_eq_add_neg] at h

theorem fmul_of_isFinite {a b : F32} (ha : isFinite a = true) (hb : isFinite b = true) :
    fmul a b = pack (sgn a != sgn b) (roundMag (mag a * mag b) (2 ^ 149)) := by
  simp [fmul, isNaN_of_isFinite ha, isNaN_of_isFinite hb, isInf_of_isFinite ha, isInf_of_isFinite hb]

theorem fdiv_of_isFinite {a b : F32} (ha : isFinite a = true) (hb : isFinite b = true) (hz : isZero b = false) :
    fdiv a b = pack (sgn a != sgn b) (roundMag (mag a * 2 ^ 149) (mag b)) := by
  simp [fdiv, isNaN_of_isFinite ha, isNaN_of_isFinite hb, isInf_of_isFinite ha, isInf_of_isFinite hb, hz]

theorem cast_mul_two_pow (n : Nat) : ((n * 2 ^ 149 : ℕ) : ℝ) = n * 2 ^ 149 := by
  rw [Nat.cast_mul, Nat.cast_pow, Nat.cast_ofNat]

/-- The quotient of finite operands is their exact quotient, rounded once (R112). -/
theorem nearest_fdiv {a b : F32} (ha : isFinite a = true) (hb : isFinite b = true) (hz : isZero b = false) :
    Nearest ((value a / value b : ℚ) : ℝ) (fdiv a b) := by
  have hmag : 0 < mag b := mag_pos_of_not_isZero (by simp [hz])
  rw [fdiv_of_isFinite ha hb hz]
  convert nearest_pack (sgn a != sgn b) (mag a * 2 ^ 149) hmag using 1
  have hmag' : (mag b : ℝ) ≠ 0 := by exact_mod_cast hmag.ne'
  rw [Rat.cast_div, value_eq_mag, value_eq_mag, cast_mul_two_pow]
  cases sgn a <;> cases sgn b <;> simp <;> field_simp

/-- Settles O41. -/
theorem arithmeticIsCorrectlyRounded : Obligations.ArithmeticIsCorrectlyRounded := by
  intro a b ha hb
  refine ⟨fun _ => nearest_fadd ha hb, fun _ => nearest_fsub ha hb, fun _ => ⟨nearest_fmul ha hb, ?_⟩, fun hv _ => ?_⟩
  · rw [fmul_of_isFinite ha hb, sgn_pack (roundMag_lt _ _)]
  · have hz : isZero b = false := by rwa [← Bool.not_eq_true, ← value_eq_zero_iff]
    refine ⟨nearest_fdiv ha hb hz, ?_⟩
    rw [fdiv_of_isFinite ha hb hz, sgn_pack (roundMag_lt _ _)]

/-! ## Naturals -/

/-- A natural number up to `2^24` has a pattern: shifted up to 24 bits it is a significand. -/
theorem exists_magNat_eq_mul {n : Nat} (hn : n ≤ 2 ^ 24) : ∃ m, m < 0x7F800000 ∧ magNat m = n * 2 ^ 149 := by
  obtain rfl | h0 := Nat.eq_zero_or_pos n
  · exact ⟨0, by norm_num, by rw [magNat_zero, Nat.zero_mul]⟩
  have hlo := Nat.log2_self_le h0.ne'
  have hhi := @Nat.lt_log2_self n
  obtain hlt | hge := Nat.lt_or_ge n (2 ^ 24)
  · have hl : n.log2 < 24 := (Nat.log2_lt h0.ne').2 hlt
    obtain ⟨j, hj⟩ : ∃ j, n.log2 + j = 23 := ⟨23 - n.log2, by omega⟩
    have hc1 : 2 ^ 23 ≤ n * 2 ^ j := by
      rw [← hj, pow_add]
      exact Nat.mul_le_mul_right _ hlo
    have hc2 : n * 2 ^ j < 2 ^ 24 := by
      rw [show (24 : ℕ) = n.log2 + 1 + j by omega, pow_add]
      exact (Nat.mul_lt_mul_right (Nat.two_pow_pos j)).2 hhi
    refine ⟨(149 - j) * 2 ^ 23 + n * 2 ^ j, by omega, ?_⟩
    rw [magNat_scaled hc2.le (.inr hc1), Nat.mul_assoc, ← pow_add, show j + (149 - j) = 149 by omega]
  · obtain rfl : n = 2 ^ 24 := by omega
    exact ⟨149 * 2 ^ 23 + 2 ^ 24, by norm_num, magNat_scaled le_rfl (.inr (by norm_num))⟩

theorem nearest_u2f (n : Nat) : Nearest (n : ℝ) (u2f n) := by
  have h := nearest_pack false (n * 2 ^ 149) one_pos
  have hr : (if false = true then (-1 : ℝ) else 1) * (((n * 2 ^ 149 : ℕ) : ℝ) / (1 : ℕ) / 2 ^ 149) = n := by
    rw [cast_mul_two_pow]
    simp
  rwa [hr] at h

/-- Settles O46. -/
theorem naturalsConvertToNearest : Obligations.NaturalsConvertToNearest := by
  refine fun n _ => ⟨nearest_u2f n, fun hn => ?_⟩
  obtain ⟨m, hm, hmag⟩ := exists_magNat_eq_mul hn
  have hval : value (pack false m) = (n : ℚ) := by
    rw [value_pack (by omega), hmag, Nat.cast_mul, Nat.cast_pow, Nat.cast_ofNat]
    simp
  rw [← hval]
  refine value_of_nearest_value (isFinite_pack hm) ?_
  rw [hval, Rat.cast_natCast]
  exact nearest_u2f n

/-! ## Constants -/

/-- A ratio `num / den` in `ℝ` with the bits its rounding evaluates to. -/
theorem nearest_ratio {num den : Nat} {p : F32} (hden : 0 < den) (h : pack false (roundMag (num * 2 ^ 149) den) = p) :
    Nearest ((num : ℝ) / den) p := by
  rw [← h]
  convert nearest_pack false (num * 2 ^ 149) hden using 1
  rw [cast_mul_two_pow]
  simp only [Bool.false_eq_true, if_false, one_mul]
  field_simp

theorem nearest_natCast {n : Nat} {p : F32} (h : u2f n = p) : Nearest (n : ℝ) p := h ▸ nearest_u2f n

/-- A real between two ratios that round to the same finite value rounds to it. -/
theorem nearest_between_ratios {lo hi den : Nat} {r : ℝ} {p : F32} (hden : 0 < den) (hp : isFinite p = true)
    (hlo : pack false (roundMag (lo * 2 ^ 149) den) = p) (hhi : pack false (roundMag (hi * 2 ^ 149) den) = p)
    (hr : (lo : ℝ) / den < r ∧ r < (hi : ℝ) / den) : Nearest r p :=
  nearest_between hp hr.1 hr.2 (nearest_ratio hden hlo) (nearest_ratio hden hhi)

/-- Eight decimals of `π`: its distance from the nearest midpoint of two values is above `10^-8`. -/
theorem pi_bounds : 3.14159265 < Real.pi ∧ Real.pi < 3.14159266 :=
  ⟨lt_trans (by norm_num) Real.pi_gt_d20, lt_trans Real.pi_lt_d20 (by norm_num)⟩

theorem nearest_pi : Nearest Real.pi PI := by
  obtain ⟨hlo, hhi⟩ := pi_bounds
  refine nearest_between_ratios (lo := 314159265) (hi := 314159266) (den := 10 ^ 8) (by norm_num) (by decide) (by decide)
    (by decide) ?_
  constructor <;> norm_num at * <;> linarith

theorem nearest_two_pi : Nearest (2 * Real.pi) TWO_PI := by
  obtain ⟨hlo, hhi⟩ := pi_bounds
  refine nearest_between_ratios (lo := 628318530) (hi := 628318532) (den := 10 ^ 8) (by norm_num) (by decide) (by decide)
    (by decide) ?_
  constructor <;> norm_num at * <;> linarith

/-- Settles O47: a literal is a ratio, whose rounding is evaluated. -/
theorem constantsAreNearestToLiterals : Obligations.ConstantsAreNearestToLiterals := by
  have hone : Nearest 1 C_1 := by exact_mod_cast nearest_natCast (n := 1) (by decide)
  refine ⟨rfl, nearest_zero (by decide), hone, nearest_neg hone, ?_, ?_, ?_, ?_, ?_, ?_, ?_, ?_, nearest_pi,
    nearest_two_pi, nearest_neg nearest_two_pi, by decide⟩
  · exact_mod_cast nearest_natCast (n := 2) (by decide)
  · exact_mod_cast nearest_natCast (n := 3) (by decide)
  · exact_mod_cast nearest_ratio (num := 1) (den := 2) two_pos (by decide)
  · exact_mod_cast nearest_ratio (num := 1) (den := 4) four_pos (by decide)
  · exact_mod_cast nearest_ratio (num := 1) (den := 10) (by norm_num) (by decide)
  · exact_mod_cast nearest_ratio (num := 1) (den := 100) (by norm_num) (by decide)
  · exact_mod_cast nearest_ratio (num := 1) (den := 10000) (by norm_num) (by decide)
  · have h : Nearest (69078 / 10000) (flipSign C_NEG_6_9078) := by
      exact_mod_cast nearest_ratio (num := 69078) (den := 10000) (by norm_num) (by decide)
    exact flipSign_flipSign C_NEG_6_9078 ▸ nearest_neg h

end Sys2Proof.Machine
end

section
/-! The special cases of the four operations (40_numerics.md R114 to R116): one equation per class of operands, and from them the
rows of R115 and the canonical NaN. -/

namespace Sys2Proof.Machine

/-! ## Classes of patterns -/

theorem isNaN_of_isInf {p : F32} (h : isInf p = true) : isNaN p = false := by
  simp only [isInf, isNaN, decide_eq_true_eq, decide_eq_false_iff_not] at *
  omega

theorem isZero_of_isInf {p : F32} (h : isInf p = true) : isZero p = false := by
  simp only [isInf, isZero, decide_eq_true_eq, decide_eq_false_iff_not] at *
  omega

@[simp] theorem isNaN_flipSign (p : F32) : isNaN (flipSign p) = isNaN p := by simp [isNaN]

@[simp] theorem isInf_flipSign (p : F32) : isInf (flipSign p) = isInf p := by simp [isInf]

theorem mag_of_isZero {p : F32} (h : isZero p = true) : mag p = 0 := by
  simp only [isZero, decide_eq_true_eq] at h
  rw [mag_eq, h, magNat_zero]

theorem roundMag_zero (den : Nat) : roundMag 0 den = 0 := by
  simp [roundMag, nearestEven, spacing]

/-- Bits up to those of an infinity are no NaN's. -/
theorem isNaN_pack {s : Bool} {m : Nat} (h : m ≤ 0x7F800000) : isNaN (pack s m) = false := by
  rw [isNaN, absBits_pack (by omega)]
  simpa using h

theorem roundMag_le (num den : Nat) : roundMag num den ≤ 0x7F800000 := min_le_right _ _

/-- An infinity whose sign is the exclusive or. -/
theorem pack_xor_inf (s t : Bool) : pack (s != t) 0x7F800000 = if s = t then POS_INF else NEG_INF := by
  revert s t
  decide

/-- A zero whose sign is the exclusive or. -/
theorem pack_xor_zero (s t : Bool) : pack (s != t) 0 = if s = t then C_0 else NEG_ZERO := by
  revert s t
  decide

/-! ## Addition and subtraction -/

section
variable {a b : F32}

theorem fadd_of_isNaN (h : (isNaN a || isNaN b) = true) : fadd a b = QNAN := by simp [fadd, h]

/-- An infinity absorbs every number but the opposite infinity. -/
theorem fadd_inf {i : F32} (hi : isInf i = true) (ha : isNaN a = false) (h : isInf a = true → a = i) :
    fadd i a = i ∧ fadd a i = i := by
  cases hinf : isInf a with
  | false => simp [fadd, isNaN_of_isInf hi, ha, hi, hinf]
  | true => simp [fadd, isNaN_of_isInf hi, hi, h hinf]

/-- A number and its opposite add up to `+0.0`. -/
theorem fadd_flipSign_self (ha : isFinite a = true) : fadd a (flipSign a) = C_0 := by
  have hsum : units a + units (flipSign a) = 0 := by
    rw [units_eq, units_eq, sgn_flipSign, absBits_flipSign]
    cases sgn a <;> simp
  simp [fadd, isNaN_of_isFinite ha, isInf_of_isFinite ha, hsum]

/-- Adding a zero on either side leaves a number that is not zero: its value is a binary32 value. -/
theorem fadd_zero {z : F32} (ha : isFinite a = true) (h0 : isZero a = false) (hz : isZero z = true) :
    fadd a z = a ∧ fadd z a = a := by
  have hzf := isFinite_of_isZero hz
  constructor <;> refine eq_of_nearest_value ha h0 ?_
  · simpa [value_of_isZero hz] using nearest_fadd ha hzf
  · simpa [value_of_isZero hz] using nearest_fadd hzf ha

end

/-! ## Multiplication -/

section
variable {a b : F32}

theorem fmul_comm (a b : F32) : fmul a b = fmul b a := by
  simp only [fmul, Bool.or_comm (isNaN a), Bool.or_comm (isInf a), Bool.or_comm (isZero a), bne_comm (a := sgn a),
    Nat.mul_comm (mag a)]

theorem fmul_of_isNaN (h : (isNaN a || isNaN b) = true) : fmul a b = QNAN := by simp [fmul, h]

theorem fmul_inf_zero {i z : F32} (hi : isInf i = true) (hz : isZero z = true) : fmul i z = QNAN := by
  simp [fmul, hi, hz]

theorem fmul_inf {i : F32} (hi : isInf i = true) (ha : isNaN a = false) (hz : isZero a = false) :
    fmul i a = if sgn i = sgn a then POS_INF else NEG_INF := by
  simp only [fmul, isNaN_of_isInf hi, ha, hi, isZero_of_isInf hi, hz, Bool.or_self, Bool.true_or, if_true,
    Bool.false_eq_true, if_false, pack_xor_inf]

theorem fmul_zero {z : F32} (hz : isZero z = true) (ha : isFinite a = true) :
    fmul z a = if sgn z = sgn a then C_0 else NEG_ZERO := by
  rw [fmul_of_isFinite (isFinite_of_isZero hz) ha, mag_of_isZero hz, Nat.zero_mul, roundMag_zero, pack_xor_zero]

end

/-! ## Division -/

section
variable {a b : F32}

theorem fdiv_of_isNaN (h : (isNaN a || isNaN b) = true) : fdiv a b = QNAN := by simp [fdiv, h]

theorem fdiv_zero_zero (ha : isZero a = true) (hb : isZero b = true) : fdiv a b = QNAN := by
  have hbf := isFinite_of_isZero hb
  simp [fdiv, isInf_of_isFinite (isFinite_of_isZero ha), isInf_of_isFinite hbf, ha, hb]

theorem fdiv_inf_inf (ha : isInf a = true) (hb : isInf b = true) : fdiv a b = QNAN := by simp [fdiv, ha, hb]

theorem fdiv_zero {z : F32} (hz : isZero z = true) (ha : isNaN a = false) (h0 : isZero a = false) :
    fdiv a z = if sgn a = sgn z then POS_INF else NEG_INF := by
  have hzf := isFinite_of_isZero hz
  simp only [fdiv, ha, isNaN_of_isFinite hzf, isInf_of_isFinite hzf, hz, h0, Bool.or_self, Bool.false_eq_true, if_false,
    if_true, ite_self, pack_xor_inf]

/-- A quotient that is zero without rounding: of a zero, or by an infinity. -/
theorem fdiv_eq_zero (hb : isNaN b = false) (h0 : isZero b = false) (ha : isFinite a = true)
    (h : isZero a = true ∨ isInf b = true) : fdiv a b = if sgn a = sgn b then C_0 else NEG_ZERO := by
  rw [← pack_xor_zero]
  obtain hbf | hbi := isFinite_or b hb
  · have haz : isZero a = true := h.resolve_right (by simp [isInf_of_isFinite hbf])
    rw [fdiv_of_isFinite ha hbf h0, mag_of_isZero haz, Nat.zero_mul, roundMag_zero]
  · simp [fdiv, isNaN_of_isFinite ha, hb, isInf_of_isFinite ha, hbi]

end

/-! ## Canonical NaNs -/

/-- A pattern that is `QNAN` if it is a NaN at all (R114). -/
def Canonical (p : F32) : Prop := isNaN p = true → p = QNAN

theorem canonical_qnan : Canonical QNAN := fun _ => rfl

theorem canonical_of_number {p : F32} (h : isNaN p = false) : Canonical p := fun hn => by
  rw [h] at hn
  cases hn

theorem canonical_pack {s : Bool} {m : Nat} (h : m ≤ 0x7F800000) : Canonical (pack s m) :=
  canonical_of_number (isNaN_pack h)

theorem canonical_ite {c : Prop} [Decidable c] {p q : F32} (hp : c → Canonical p) (hq : ¬ c → Canonical q) :
    Canonical (if c then p else q) := by
  split
  · next h => exact hp h
  · next h => exact hq h

/-- Past the test for NaN operands an operation answers an infinity, `QNAN`, a zero or a rounded value. -/
theorem canonical_fadd (a b : F32) : Canonical (fadd a b) := by
  refine canonical_ite (fun _ => canonical_qnan) fun hnan => ?_
  obtain ⟨ha, hb⟩ := Bool.or_eq_false_iff.1 (Bool.not_eq_true _ ▸ hnan)
  refine canonical_ite (fun _ => canonical_ite (fun _ => canonical_qnan) fun _ => canonical_of_number ha) fun _ =>
    canonical_ite (fun _ => canonical_of_number hb) fun _ => canonical_ite (fun _ => ?_) fun _ => canonical_pack (roundMag_le _ _)
  exact canonical_ite (fun _ => canonical_of_number (by decide)) fun _ => canonical_of_number (by decide)

theorem canonical_fmul (a b : F32) : Canonical (fmul a b) :=
  canonical_ite (fun _ => canonical_qnan) fun _ =>
    canonical_ite (fun _ => canonical_ite (fun _ => canonical_qnan) fun _ => canonical_pack le_rfl) fun _ =>
      canonical_pack (roundMag_le _ _)

theorem canonical_fdiv (a b : F32) : Canonical (fdiv a b) :=
  canonical_ite (fun _ => canonical_qnan) fun _ =>
    canonical_ite (fun _ => canonical_ite (fun _ => canonical_qnan) fun _ => canonical_pack le_rfl) fun _ =>
      canonical_ite (fun _ => canonical_pack (Nat.zero_le _)) fun _ =>
        canonical_ite (fun _ => canonical_ite (fun _ => canonical_qnan) fun _ => canonical_pack le_rfl) fun _ =>
          canonical_pack (roundMag_le _ _)

/-! ## The sign operations (R116) -/

theorem fneg_of_number {a : F32} (h : isNaN a = false) : fneg a = flipSign a := by simp [fneg, h]

/-- Clearing bit 31 is packing the low bits with sign 0. -/
theorem fabs_of_number {a : F32} (h : isNaN a = false) : fabs a = pack false (absBits a) := by
  apply BitVec.eq_of_toNat_eq
  rw [pack_toNat (absBits_lt a), absBits_eq]
  simp [fabs, h, Nat.and_two_pow_sub_one_eq_mod _ 31]

/-! ## The statements -/

/-- Settles O42: the rows that name no operand class are evaluated, every other row is an equation above. -/
theorem arithmeticSpecialCases : Obligations.ArithmeticSpecialCases := by
  refine ⟨fun a b h => ⟨fadd_of_isNaN h, fadd_of_isNaN (by simpa using h), fmul_of_isNaN h, fdiv_of_isNaN h⟩, by decide,
    fun a i hi ha h => ?_, fun z i hz hi => ⟨?_, fmul_inf_zero hi hz⟩, fun a i hi ha h0 => ⟨fmul_inf hi ha h0, ?_⟩,
    fun z y => fdiv_zero_zero, fun i j => fdiv_inf_inf, fun a z => fdiv_zero, fun a b => fdiv_eq_zero,
    fun z a hz ha => ⟨fmul_zero hz ha, ?_⟩, fun x hx _ => ⟨fadd_flipSign_self hx, fadd_flipSign_self hx⟩, by decide,
    fun x z hx h0 hz => ⟨(fadd_zero hx h0 hz).1, ?_, ?_⟩⟩
  · obtain ⟨hl, hr⟩ := fadd_inf hi ha h
    exact ⟨hl, hr, by rw [fsub, flipSign_flipSign, hl], by rw [fsub, flipSign_flipSign, hr]⟩
  · rw [fmul_comm, fmul_inf_zero hi hz]
  · rw [fmul_comm, fmul_inf hi ha h0]
  · rw [fmul_comm, fmul_zero hz ha]
  · exact (fadd_zero hx h0 (by simpa [isZero] using hz)).1
  · exact (fadd_zero (by rwa [isFinite_flipSign]) (by simpa [isZero] using h0) hz).2

end Sys2Proof.Machine
end

section
/-! The comparisons and `fclamp` (40_numerics.md R117, R121). -/

namespace Sys2Proof.Machine

/-- A finite number lies strictly between the infinities. -/
theorem infinities_outside {a : F32} (h : isFinite a = true) : flt NEG_INF a = true ∧ flt a POS_INF = true :=
  have hn := isNaN_of_isFinite h
  ⟨(not_fle_iff hn (by decide)).1 (not_fle_neg_inf h), (not_fle_iff (by decide) hn).1 (not_pos_inf_fle h)⟩

theorem not_flt_of_fle {a b : F32} (h : fle a b = true) : flt b a = false := by
  obtain ⟨ha, hb, -⟩ := fle_iff.1 h
  exact (not_flt_iff hb ha).2 h

theorem flt_of_fle_of_flt {a b c : F32} (h : fle a b = true) (h' : flt b c = true) : flt a c = true := by
  rw [fle_iff] at h
  rw [flt_iff] at h' ⊢
  exact ⟨h.1, h'.2.1, lt_of_le_of_lt h.2.2 h'.2.2⟩

/-- Settles O44. -/
theorem comparisonsAreOfValues : Obligations.ComparisonsAreOfValues := by
  refine ⟨fun a b ha hb => ⟨flt_iff_value ha hb, fle_iff_value ha hb⟩, fun a ha => ?_, by decide, fun a b h => ?_⟩
  · obtain ⟨hlo, hhi⟩ := infinities_outside ha
    exact ⟨hlo, hhi, not_flt_of_fle (fle_of_flt hlo), not_flt_of_fle (fle_of_flt hhi), fle_of_flt hlo, fle_of_flt hhi,
      not_fle_neg_inf ha, not_pos_inf_fle ha⟩
  · obtain ha | hb := Bool.or_eq_true_iff.1 h
    · exact ⟨flt_nan_left ha, fle_nan_left ha⟩
    · exact ⟨flt_nan_right hb, fle_nan_right hb⟩

/-! ## The clamp, by where the argument lies -/

section
variable {v lo hi : F32}

/-- The clamp is the upper bound's `fmin`, then the lower bound's `fmax` (R118, R119, R121). -/
theorem fclamp_eq_fmax_fmin (v lo hi : F32) : fclamp v lo hi = fmax (fmin v hi) lo := rfl

theorem fmin_eq_left (h : flt hi v = false) : fmin v hi = v := by rw [fmin, h, if_neg (by decide)]

theorem fmin_eq_right (h : flt hi v = true) : fmin v hi = hi := by rw [fmin, h, if_pos rfl]

theorem fmax_eq_left (h : flt v lo = false) : fmax v lo = v := by rw [fmax, h, if_neg (by decide)]

theorem fmax_eq_right (h : flt v lo = true) : fmax v lo = lo := by rw [fmax, h, if_pos rfl]

/-- Not above the upper bound: only the lower bound counts. -/
theorem fclamp_of_not_above (h : flt hi v = false) : fclamp v lo hi = fmax v lo := by
  rw [fclamp_eq_fmax_fmin, fmin_eq_left h]

theorem fclamp_of_inside (hlo : flt v lo = false) (hhi : flt hi v = false) : fclamp v lo hi = v := by
  rw [fclamp_of_not_above hhi, fmax_eq_left hlo]

theorem fclamp_of_above (h : flt hi v = true) (hb : flt hi lo = false) : fclamp v lo hi = hi := by
  rw [fclamp_eq_fmax_fmin, fmin_eq_right h, fmax_eq_left hb]

/-- Below the lower bound it is the lower bound, whatever the upper one is: either the argument or the upper bound, where it
replaced the argument, is below the lower bound. -/
theorem fclamp_of_below (h : flt v lo = true) : fclamp v lo hi = lo := by
  cases hhi : flt hi v with
  | false => rw [fclamp_of_not_above hhi, fmax_eq_right h]
  | true => rw [fclamp_eq_fmax_fmin, fmin_eq_right hhi, fmax_eq_right (flt_of_fle_of_flt (fle_of_flt hhi) h)]

/-- On an empty interval the lower bound wins. -/
theorem fclamp_of_empty (h : flt hi lo = true) (hv : isNaN v = false) : fclamp v lo hi = lo := by
  cases hhi : flt hi v with
  | false => exact fclamp_of_below (flt_of_fle_of_flt ((not_flt_iff (flt_iff.1 h).1 hv).1 hhi) h)
  | true => rw [fclamp_eq_fmax_fmin, fmin_eq_right hhi, fmax_eq_right h]

end

/-- Settles O45. -/
theorem clampConsequences : Obligations.ClampConsequences := by
  refine ⟨fun _ _ _ => rfl, fun v lo hi hb _ => ⟨fun hlo hhi => ?_, fclamp_of_below, fun hhi => ?_⟩,
    fun v lo hi hv => fclamp_nan hv lo hi, fun v lo hi => fclamp_of_empty, fun hi h => ?_, fun v lo hi hn => ?_,
    fun v lo hi hn => ?_⟩
  · exact fclamp_of_inside (not_flt_of_fle hlo) (not_flt_of_fle hhi)
  · exact fclamp_of_above hhi (not_flt_of_fle hb)
  · exact fclamp_of_inside (by decide) (not_flt_of_fle (fle_trans (by decide) h))
  · exact fclamp_of_not_above (flt_nan_left hn)
  · rw [fclamp_eq_fmax_fmin, fmax_eq_left (flt_nan_right hn)]

end Sys2Proof.Machine
end

section
/-! What R126 to R128 of 40_numerics.md give of every lawful record: faithful rounding keeps every bound that is a binary32 value,
so a range of the real function whose ends are binary32 values is a range of the record's function. -/

namespace Sys2Proof.Machine

/-! ## Faithful rounding keeps bounds -/

theorem isNaN_of_faithful {r : ℝ} {p : F32} (h : Faithful r p) : isNaN p = false := by
  obtain ⟨⟨⟨hf, -⟩, -⟩ | ⟨⟨hf, -⟩ | rfl, -⟩, -⟩ := h
  · exact isNaN_of_isFinite hf
  · exact isNaN_of_isFinite hf
  · decide

theorem faithful_le {r : ℝ} {p q : F32} (h : Faithful r p) (hq : isFinite q = true) (hr : r ≤ ((value q : ℚ) : ℝ)) :
    fle p q = true := by
  obtain ⟨⟨⟨hf, hp⟩, -⟩ | ⟨-, hleast⟩, -⟩ := h
  · rw [fle_iff_value hf hq]
    exact_mod_cast hp.trans hr
  · exact hleast q (.inl ⟨hq, hr⟩)

theorem le_faithful {r : ℝ} {p q : F32} (h : Faithful r p) (hq : isFinite q = true) (hr : ((value q : ℚ) : ℝ) ≤ r) :
    fle q p = true := by
  obtain ⟨⟨-, hgreatest⟩ | ⟨⟨hf, hp⟩ | rfl, -⟩, -⟩ := h
  · exact hgreatest q ⟨hq, hr⟩
  · rw [fle_iff_value hq hf]
    exact_mod_cast hr.trans hp
  · exact fle_pos_inf (isNaN_of_isFinite hq)

/-- A positive binary32 value is its own only faithful rounding. -/
theorem eq_of_faithful_value {p q : F32} (hp : isFinite p = true) (h0 : flt C_0 p = true)
    (h : Faithful ((value p : ℚ) : ℝ) q) : q = p := by
  have hle := (fle_iff.1 (faithful_le h hp le_rfl)).2.2
  have hge := (fle_iff.1 (le_faithful h hp le_rfl)).2.2
  have hpos : 0 < orderKey p := (flt_iff.1 h0).2.2
  exact eq_of_orderKey (le_antisymm hle hge) hpos.ne'

theorem value_C_0 : value C_0 = 0 := value_of_isZero (by decide)

theorem value_C_NEG1 : value C_NEG1 = -1 := by
  rw [show C_NEG1 = flipSign C_1 by decide, value_flipSign, value_C_1]

theorem value_two_pow_32 : value 0x4F800000#32 = 2 ^ 32 := by
  rw [value, show units 0x4F800000#32 = 2 ^ 181 by decide]
  push_cast
  norm_num

/-- `HALF_PI` is below `π`: on either side of zero the whole interval of (S5) lies where the sine has one sign. -/
theorem half_pi_le_pi : ((value HALF_PI : ℚ) : ℝ) ≤ Real.pi := by
  have hnear := half_pi_near.2
  have hpi := Real.pi_gt_three
  norm_num at hnear
  linarith

/-! ## The ranges -/

section
variable {n : NumRec} {x : F32}

theorem NumLawful.exp_C_0 (h : NumLawful n) : n.exp C_0 = C_1 := h.exp_zero _ (by decide)

theorem NumLawful.sin_C_0 (h : NumLawful n) : n.sin C_0 = C_0 := h.sin_zero _ (by decide)

theorem NumLawful.pow025_C_0 (h : NumLawful n) : n.pow025 C_0 = C_0 := h.pow025_zero _ (by decide)

theorem NumLawful.exp_not_nan (h : NumLawful n) (hx : isNaN x = false) : isNaN (n.exp x) = false :=
  (fle_iff.1 (h.exp_mono x x (fle_refl hx))).1

/-- `exp` rises from `+0.0` at `-inf` to `1.0` at zero. -/
theorem NumLawful.exp_of_nonpos (h : NumLawful n) (hx : fle x C_0 = true) :
    fle C_0 (n.exp x) = true ∧ fle (n.exp x) C_1 = true := by
  have hlo := h.exp_mono _ _ (neg_inf_fle (fle_iff.1 hx).1)
  have hhi := h.exp_mono _ _ hx
  rw [h.exp_negInf] at hlo
  rw [h.exp_C_0] at hhi
  exact ⟨hlo, hhi⟩

theorem NumLawful.exp_of_nonneg (h : NumLawful n) (hx : fle C_0 x = true) : fle C_1 (n.exp x) = true := by
  have hlo := h.exp_mono _ _ hx
  rwa [h.exp_C_0] at hlo

/-- `sin` of a finite number lies between any binary32 bounds of the real sine. -/
theorem NumLawful.sin_between (h : NumLawful n) (hx : isFinite x = true) {lo hi : F32} (hlf : isFinite lo = true)
    (hhf : isFinite hi = true) (hlo : ((value lo : ℚ) : ℝ) ≤ Real.sin ((value x : ℚ) : ℝ))
    (hhi : Real.sin ((value x : ℚ) : ℝ) ≤ ((value hi : ℚ) : ℝ)) :
    fle lo (n.sin x) = true ∧ fle (n.sin x) hi = true := by
  cases hz : isZero x with
  | false => exact ⟨le_faithful (h.sin_faithful x hx hz) hlf hlo, faithful_le (h.sin_faithful x hx hz) hhf hhi⟩
  | true =>
    have hsin : Real.sin ((value x : ℚ) : ℝ) = ((value x : ℚ) : ℝ) := by
      rw [value_of_isZero hz, Rat.cast_zero, Real.sin_zero]
    rw [hsin] at hlo hhi
    rw [h.sin_zero x hz, fle_iff_value hlf hx, fle_iff_value hx hhf]
    exact ⟨by exact_mod_cast hlo, by exact_mod_cast hhi⟩

theorem NumLawful.sin_not_nan (h : NumLawful n) (hx : isFinite x = true) : isNaN (n.sin x) = false := by
  cases hz : isZero x with
  | false => exact isNaN_of_faithful (h.sin_faithful x hx hz)
  | true => rw [h.sin_zero x hz]; exact isNaN_of_isFinite hx

theorem NumLawful.sin_range (h : NumLawful n) (hx : isFinite x = true) :
    fle C_NEG1 (n.sin x) = true ∧ fle (n.sin x) C_1 = true := by
  refine h.sin_between hx (by decide) (by decide) ?_ ?_
  · rw [value_C_NEG1]
    exact_mod_cast Real.neg_one_le_sin _
  · rw [value_C_1]
    exact_mod_cast Real.sin_le_one _

theorem NumLawful.sin_of_nonneg (h : NumLawful n) (h0 : fle C_0 x = true) (hH : fle x HALF_PI = true) :
    fle C_0 (n.sin x) = true ∧ fle (n.sin x) C_1 = true := by
  have hx := isFinite_of_fle (by decide) (by decide) h0 hH
  have hle := h.sin_mono _ _ (by decide) h0 hH
  rw [h.sin_C_0] at hle
  exact ⟨hle, (h.sin_range hx).2⟩

theorem NumLawful.sin_of_nonpos (h : NumLawful n) (hH : fle (fneg HALF_PI) x = true) (h0 : fle x C_0 = true) :
    fle C_NEG1 (n.sin x) = true ∧ fle (n.sin x) C_0 = true := by
  have hx := isFinite_of_fle (by decide) (by decide) hH h0
  rw [fneg_of_number (by decide), fle_iff_value (by decide) hx, value_flipSign] at hH
  rw [fle_iff_value hx (by decide), value_C_0] at h0
  have hlo : -((value HALF_PI : ℚ) : ℝ) ≤ ((value x : ℚ) : ℝ) := by exact_mod_cast hH
  have hsin : Real.sin ((value x : ℚ) : ℝ) ≤ 0 :=
    Real.sin_nonpos_of_nonpos_of_neg_pi_le (by exact_mod_cast h0) (by linarith [half_pi_le_pi])
  refine h.sin_between hx (by decide) (by decide) ?_ (by rwa [value_C_0, Rat.cast_zero])
  rw [value_C_NEG1]
  exact_mod_cast Real.neg_one_le_sin _

/-- The fourth root is exact wherever it is a binary32 value (R128). -/
theorem NumLawful.pow025_exact (h : NumLawful n) {p : F32} (hx : isFinite x = true) (hp : isFinite p = true)
    (h0 : flt C_0 p = true) (hpx : value p ^ 4 = value x) : n.pow025 x = p := by
  have hpos : 0 < value p := by rwa [flt_iff_value (by decide) hp, value_C_0] at h0
  have hx0 : flt C_0 x = true := by
    rw [flt_iff_value (by decide) hx, value_C_0, ← hpx]
    exact pow_pos hpos 4
  have hroot := h.pow025_faithful x hx hx0
  have hpos' : (0 : ℝ) ≤ ((value p : ℚ) : ℝ) := by exact_mod_cast hpos.le
  rw [← hpx, Rat.cast_pow, show 4 = 2 * 2 from rfl, pow_mul, Real.sqrt_sq (sq_nonneg _), Real.sqrt_sq hpos'] at hroot
  exact eq_of_faithful_value hp h0 hroot

theorem NumLawful.pow025_C_1 (h : NumLawful n) : n.pow025 C_1 = C_1 :=
  h.pow025_exact (by decide) (by decide) (by decide) (by rw [value_C_1, one_pow])

theorem NumLawful.pow025_not_nan (h : NumLawful n) (h0 : fle C_0 x = true) : isNaN (n.pow025 x) = false :=
  (fle_iff.1 (h.pow025_mono x x h0 (fle_refl (fle_iff.1 h0).2.1))).1

/-- The fourth root rises from `+0.0` at zero to `1.0` at `1.0`. -/
theorem NumLawful.pow025_of_le_one (h : NumLawful n) (h0 : fle C_0 x = true) (h1 : fle x C_1 = true) :
    fle C_0 (n.pow025 x) = true ∧ fle (n.pow025 x) C_1 = true := by
  have hlo := h.pow025_mono _ _ (by decide) h0
  have hhi := h.pow025_mono _ _ h0 h1
  rw [h.pow025_C_0] at hlo
  rw [h.pow025_C_1] at hhi
  exact ⟨hlo, hhi⟩

/-- From 1 on the fourth root is at least 1, and of a finite value it is at most `2^32`, the fourth root of `2^128`. -/
theorem NumLawful.pow025_of_one_le (h : NumLawful n) (hx : isFinite x = true) (h1 : fle C_1 x = true) :
    fle C_1 (n.pow025 x) = true ∧ fle (n.pow025 x) 0x4F800000#32 = true := by
  have hlo := h.pow025_mono _ _ (by decide) h1
  rw [h.pow025_C_1] at hlo
  refine ⟨hlo, faithful_le (h.pow025_faithful x hx (flt_iff.2 ?_)) (by decide) ?_⟩
  · obtain ⟨-, hn, hk⟩ := fle_iff.1 h1
    exact ⟨by decide, hn, lt_of_lt_of_le (by decide) hk⟩
  · rw [value_two_pow_32, Real.sqrt_le_left (by positivity), Real.sqrt_le_left (by positivity)]
    have htop := value_lt_top hx
    norm_num at htop ⊢
    linarith

/-- A NaN that a function of a lawful record answers is `QNAN` (R114). -/
theorem NumLawful.canonical (h : NumLawful n) (x : F32) :
    Canonical (n.exp x) ∧ Canonical (n.sin x) ∧ Canonical (n.pow025 x) := by
  cases hx : isNaN x with
  | true =>
    rw [h.exp_nan x hx, h.sin_special x (by simp [hx]), h.pow025_nan x hx]
    exact ⟨canonical_qnan, canonical_qnan, canonical_qnan⟩
  | false =>
    refine ⟨canonical_of_number (h.exp_not_nan hx), ?_, ?_⟩
    · obtain hf | hi := isFinite_or x hx
      · exact canonical_of_number (h.sin_not_nan hf)
      · rw [h.sin_special x (by simp [hi])]
        exact canonical_qnan
    · cases h0 : flt x C_0 with
      | true =>
        rw [h.pow025_neg x h0]
        exact canonical_qnan
      | false => exact canonical_of_number (h.pow025_not_nan ((not_flt_iff hx (by decide)).1 h0))

end

/-! ## The statements -/

/-- Settles O49. -/
theorem lawfulNumHasRangesAndExactRoots : Obligations.LawfulNumHasRangesAndExactRoots :=
  fun _ h => ⟨fun _ => h.exp_of_nonpos, fun _ => h.exp_of_nonneg, fun _ => h.sin_of_nonneg, fun _ => h.sin_of_nonpos,
    fun _ => h.pow025_of_le_one, fun _ => h.pow025_of_one_le, fun _ _ => h.pow025_exact⟩

/-- Settles O48: what the machine's record has by its type, and what every lawful record has. -/
theorem machineNumHasSpecialValuesAndRanges : Obligations.MachineNumHasSpecialValuesAndRanges := by
  have h := params.num_lawful
  refine ⟨h, fun x hx => ⟨h.exp_nan x hx, h.sin_special x (by simp [hx]), h.pow025_nan x hx⟩,
    ⟨h.exp_posInf, h.exp_negInf, h.exp_C_0, h.exp_zero _ (by decide)⟩, fun x hx => ⟨h.exp_not_nan hx, h.exp_nonneg x hx⟩,
    fun x => h.exp_of_nonpos, fun x => h.exp_of_nonneg, ?_, fun x => h.sin_range, ?_, h.pow025_neg, fun x => h.pow025_of_le_one⟩
  · exact ⟨h.sin_special _ (by decide), h.sin_special _ (by decide), h.sin_C_0, h.sin_zero _ (by decide)⟩
  · exact ⟨h.pow025_posInf, h.pow025_C_0, h.pow025_zero _ (by decide), h.pow025_C_1⟩

/-- Settles O43. -/
theorem nansAreCanonical : Obligations.NansAreCanonical := by
  refine ⟨fun a b => ⟨canonical_fadd a b, canonical_fadd a _, canonical_fmul a b, canonical_fdiv a b⟩,
    fun a => ⟨fun h => by simp [fneg, fabs, h], fun h => ?_⟩, params.num_lawful.canonical⟩
  rw [fneg_of_number h, fabs_of_number h, sgn_pack (absBits_lt a), absBits_pack (absBits_lt a)]
  exact ⟨sgn_flipSign a, absBits_flipSign a, rfl, rfl⟩

end Sys2Proof.Machine
end

section
/-! The delay law (41_delay_line.md R152, R153, R160). A delay line is a queue of `N` samples: read in the order in which the
cursor will come to them, a write takes the first out and puts its sample at the end, and `dl_read` looks at the first. -/

namespace Sys2Proof.Machine

/-! ## The samples in the order of the cursor -/

/-- The `N` samples of a delay line from the cursor on, around the end of the memory: the longest stored first. -/
def lineQueue (P : Params) (b : Buf) (d : DelayLine) : List F32 :=
  (List.range (P.len b)).map fun i => Memory.sample P b d.mem ((d.index.toNat + i) % P.len b)

@[simp] theorem length_lineQueue (P : Params) (b : Buf) (d : DelayLine) : (lineQueue P b d).length = P.len b := by
  simp [lineQueue]

theorem getElem?_lineQueue (P : Params) (b : Buf) (d : DelayLine) {i : Nat} (h : i < P.len b) :
    (lineQueue P b d)[i]? = some (Memory.sample P b d.mem ((d.index.toNat + i) % P.len b)) := by
  simp [lineQueue, h]

/-- `dl_read` looks at the first sample of the queue (R152). -/
theorem lineRead_iff_getElem? {P : Params} {b : Buf} {d : DelayLine} {v : F32} (hd : d.index.toNat < P.len b) :
    lineRead P b d = .ok v ↔ (lineQueue P b d)[0]? = some v := by
  rw [lineRead_ok_iff, getElem?_lineQueue P b d (P.len_pos b), Nat.add_zero, Nat.mod_eq_of_lt hd]
  simp [hd, eq_comm]

/-- Going up to once around, a cursor comes back to its place after `n` steps and not before. -/
theorem add_mod_eq_self_iff {n c j : Nat} (hc : c < n) (h0 : 0 < j) (hj : j ≤ n) : (c + j) % n = c ↔ j = n := by
  rcases lt_or_ge (c + j) n with h | h
  · rw [Nat.mod_eq_of_lt h]
    omega
  · rw [Nat.mod_eq_sub_mod h, Nat.mod_eq_of_lt (by omega)]
    omega

/-- `dl_write` takes the first sample out of the queue and puts its own at the end (R153): the cell it stores in is the one the
cursor will come to last. -/
theorem lineQueue_lineWrite {P : Params} {b : Buf} {d d' : DelayLine} {x : F32} (h : lineWrite P b d x = .ok d') :
    lineQueue P b d' = (lineQueue P b d ++ [x]).tail := by
  obtain ⟨hd, rfl⟩ := lineWrite_ok_iff.1 h
  refine List.ext_getElem? fun i => ?_
  rw [List.getElem?_tail]
  rcases lt_or_ge i (P.len b) with hi | hi
  · have hcell : ((nextIndex (P.len b) d.index).toNat + i) % P.len b = (d.index.toNat + (i + 1)) % P.len b := by
      rw [nextIndex_toNat (P.len_pos b) (P.len_lt b), Nat.mod_add_mod, Nat.add_right_comm, Nat.add_assoc]
    rw [getElem?_lineQueue _ _ _ hi, hcell, sample_store]
    simp only [add_mod_eq_self_iff (j := i + 1) hd i.succ_pos hi]
    split
    · next hlast =>
      rw [List.getElem?_append_right (by simp [hlast]), length_lineQueue, hlast, Nat.sub_self, List.getElem?_cons_zero]
    · next hlast =>
      have hi' : i + 1 < P.len b := by omega
      rw [List.getElem?_append_left (by simpa using hi'), getElem?_lineQueue _ _ _ hi']
  · rw [List.getElem?_eq_none (by simpa using hi), List.getElem?_eq_none (by simpa using hi)]

/-! ## Many writes -/

/-- Writes on a line with its cursor in range: each advances the cursor by one, and the queue moves on by as many samples. -/
theorem lineWrites_ok {P : Params} {b : Buf} {d : DelayLine} (hd : d.index.toNat < P.len b) (w : List F32) :
    ∃ d', lineWrites P b d w = .ok d' ∧ d'.index.toNat = (d.index.toNat + w.length) % P.len b ∧
      lineQueue P b d' = (lineQueue P b d ++ w).drop w.length := by
  induction w generalizing d with
  | nil => exact ⟨d, rfl, (Nat.mod_eq_of_lt hd).symm, by simp⟩
  | cons x w ih =>
    obtain ⟨d₁, hwrite⟩ := lineWrite_answers hd x
    have hindex : d₁.index.toNat = (d.index.toNat + 1) % P.len b := by
      obtain ⟨_, rfl⟩ := lineWrite_ok_iff.1 hwrite
      exact nextIndex_toNat (P.len_pos b) (P.len_lt b) _
    obtain ⟨d', hwrites, hindex', hqueue⟩ := ih (d := d₁) (hindex ▸ Nat.mod_lt _ (P.len_pos b))
    refine ⟨d', ?_, ?_, ?_⟩
    · simp only [lineWrites, hwrite, hwrites]
    · rw [hindex', hindex, Nat.mod_add_mod, List.length_cons, Nat.add_right_comm, Nat.add_assoc]
    · rw [hqueue, lineQueue_lineWrite hwrite, ← List.tail_append_of_ne_nil (by simp), List.drop_tail, List.append_assoc,
        List.singleton_append, List.length_cons]

/-- Settles O23: what is read after `k` writes stands at place `k` of the old queue followed by the samples written. -/
theorem delayLaw : Obligations.DelayLaw := by
  intro P b d w h0
  have hzero : d.index.toNat = 0 := by rw [h0]; rfl
  have hd : d.index.toNat < P.len b := hzero ▸ P.len_pos b
  obtain ⟨d', hwrites, hindex, hqueue⟩ := lineWrites_ok hd w
  have hd' : d'.index.toNat < P.len b := hindex ▸ Nat.mod_lt _ (P.len_pos b)
  have hread : ∀ v, (lineQueue P b d ++ w)[w.length]? = some v → lineRead P b d' = .ok v := by
    intro v hv
    rw [lineRead_iff_getElem? hd', hqueue, List.getElem?_drop, Nat.add_zero, hv]
  refine ⟨d', hwrites, by rw [hindex, hzero, Nat.zero_add], fun x hle hx => hread x ?_, fun hlt => hread _ ?_⟩
  · rw [List.getElem?_append_right (by simpa using hle), length_lineQueue, hx]
  · rw [List.getElem?_append_left (by simpa using hlt), getElem?_lineQueue _ _ _ hlt, hzero, Nat.zero_add,
      Nat.mod_eq_of_lt hlt]

end Sys2Proof.Machine
end

section
/-! The commands of unit `DL` (41_delay_line.md R155 to R159) and the NEW commands of the other units, command by command. -/

namespace Sys2Proof.Machine

/-! ## The words of the commands -/

/-- A word of a format `Z` row with an operand that is not zero is refused in the third step of R85. -/
theorem decode_formatZ_error {i : Instr} (hi : i.row.mask = maskZ) {d : BitVec 32} (hd : d ≠ 0#32) :
    decode (i.opc ++ d) = .error .operandNotZero := by
  rw [decode_append_opc, hi, readOperand_maskZ, decodeZ, if_neg hd]

/-- A command that completes with data zero is answered with the word of all zeros (R84). -/
theorem respond_zero (s : State) : s.respond 0#32 = s.answered 0x0000000000#40 := rfl

/-! ## The commands of `DL` on a live unit -/

/-- `DL.WRITE` stores at the old cursor, then advances it (R156). -/
theorem exec_dlWrite {s : State} (hl : s.dl.live = true) (hd : s.dl.line.index.toNat < params.len .dl) (x : F32) :
    exec (.dlWrite x) s = .next (({ s with
      dl := { live := true
              line := { index := nextIndex (params.len .dl) s.dl.line.index
                        mem := Memory.store params .dl s.dl.line.mem s.dl.line.index.toNat x } } } : State).respond 0#32) := by
  simp only [exec, execDlWrite, dlWrite, hl, requires_true, lineWrite_ok_iff.2 ⟨hd, rfl⟩, withSample_ok]

/-- `DL.READ` answers the sample at the cursor (R157). -/
theorem exec_dlRead {s : State} (hl : s.dl.live = true) (hd : s.dl.line.index.toNat < params.len .dl) :
    exec .dlRead s = .next (s.respond (Memory.sample params .dl s.dl.line.mem s.dl.line.index.toNat)) := by
  simp only [exec, execDlRead, dlRead, hl, requires_true, lineRead_ok_iff.2 ⟨hd, rfl⟩, withSample_ok]

/-- `DL.GET i` answers the sample at `i mod N_DL`, wherever the cursor is (R158). -/
theorem exec_dlGet {s : State} (hl : s.dl.live = true) (i : U32) :
    exec (.dlGet i) s = .next (s.respond (Memory.sample params .dl s.dl.line.mem (i.toNat % params.len .dl))) := by
  simp only [exec, execDlGet, dlGet, hl, requires_true, lineGet_eq, withSample_ok, operandNat]

/-- `DL.LEN` answers `N_DL` (R159). -/
theorem exec_dlLen {s : State} (hl : s.dl.live = true) :
    exec .dlLen s = .next (s.respond (BitVec.ofNat 32 (params.len .dl))) := by
  simp only [exec, execDlLen, dlLen, hl, requires_true, lineLen]

/-! ## The statements -/

/-- Settles O26. -/
theorem dlWriteStoresThenAdvances : Obligations.DlWriteStoresThenAdvances := by
  intro x s
  refine ⟨decodeOfEncodeIsIdentity (.dlWrite x) rfl, fun hl => exec_not_live rfl rfl hl, fun hl hd => ?_⟩
  refine ⟨_, exec_dlWrite hl hd x, ?_, ?_, rfl⟩
  · exact nextIndex_toNat (params.len_pos .dl) (params.len_lt .dl) s.dl.line.index
  · exact sample_store params .dl s.dl.line.mem s.dl.line.index.toNat x

/-- Settles O27. -/
theorem dlReadsAnswerAndChangeNothing : Obligations.DlReadsAnswerAndChangeNothing := by
  intro i s
  refine ⟨⟨?_, ?_, ?_, fun hi => ⟨?_, ?_⟩⟩, fun hl => ⟨?_, ?_, ?_⟩, fun hl => ⟨fun hd => ?_, ?_, ?_⟩⟩
  · exact decodeOfEncodeIsIdentity .dlRead rfl
  · exact decodeOfEncodeIsIdentity (.dlGet i) rfl
  · exact decodeOfEncodeIsIdentity .dlLen rfl
  · exact decode_formatZ_error (i := .dlRead) rfl hi
  · exact decode_formatZ_error (i := .dlLen) rfl hi
  · exact exec_not_live rfl rfl hl
  · exact exec_not_live rfl rfl hl
  · exact exec_not_live rfl rfl hl
  · exact exec_dlRead hl hd
  · exact exec_dlGet hl i
  · exact exec_dlLen hl

/-- Settles O25: the words are the encodings of the six commands, and each command is one update of its unit that completes with
data zero. -/
theorem newCommandsConstruct : Obligations.NewCommandsConstruct := by
  intro fs s
  refine ⟨⟨?_, fun hfs => ?_, ?_, ?_, ?_, ?_, ?_⟩, ?_, ?_, ?_, ?_, ?_, ?_⟩
  · exact decodeOfEncodeIsIdentity .dlNew rfl
  · exact decode_formatZ_error (i := .dlNew) rfl hfs
  · exact decodeOfEncodeIsIdentity (.lpNew fs) rfl
  · exact decodeOfEncodeIsIdentity (.svfNew fs) rfl
  · exact decodeOfEncodeIsIdentity (.apNew fs) rfl
  · exact decodeOfEncodeIsIdentity (.spNew fs) rfl
  · exact decodeOfEncodeIsIdentity (.oscNew fs) rfl
  -- what is left are the six commands, DL, LP, SVF, AP, SP, OSC
  all_goals exact congrArg Host.Outcome.next (respond_zero _)

end Sys2Proof.Machine
end

section
/-! The one-pole low-pass filter (42_one_pole.md R172 to R174), command by command, and the range of its coefficients; and the
setters of every unit, which executed twice leave what they leave once (R175). -/

namespace Sys2Proof.Machine

/-! ## The commands of `LP` on a live unit -/

/-- `LP.SET_FREQ` writes the two coefficients and nothing else (R172). -/
theorem exec_lpSetFreq {s : State} (hl : s.lp.live = true) (f : F32) :
    exec (.lpSetFreq f) s = .next ({ s with
      lp := { s.lp with
        b1 := some (lpCoefficient params f s.lp.fs)
        a0 := some (fsub C_1 (lpCoefficient params f s.lp.fs)) } }.respond 0#32) := by
  simp only [exec, execLpSetFreq, lpSetFreq, hl, requires_true]

/-- `LP.PROCESS` with both coefficients set stores and answers the recurrence (R173). -/
theorem exec_lpProcess {s : State} {a0 b1 : F32} (hl : s.lp.live = true) (ha : s.lp.a0 = some a0)
    (hb : s.lp.b1 = some b1) (x : F32) :
    exec (.lpProcess x) s = .next ({ s with
      lp := { s.lp with z1 := lpOutput x a0 s.lp.z1 b1 } }.respond (lpOutput x a0 s.lp.z1 b1)) := by
  simp only [exec, execLpProcess, lpProcess, hl, ha, hb, requires_true]

/-- `LP.PROCESS` without a coefficient is refused (R173). -/
theorem exec_lpProcess_unset {s : State} (hl : s.lp.live = true) (h : s.lp.a0 = none ∨ s.lp.b1 = none) (x : F32) :
    exec (.lpProcess x) s = .next (s.refuse .unset) := by
  simp only [exec, execLpProcess, lpProcess, hl, requires_true]
  split
  · next ha hb => simp [ha, hb] at h
  · rfl
  · rfl

/-- Settles O28. -/
theorem lpSetFreqComputesCoefficients : Obligations.LpSetFreqComputesCoefficients := fun f _ =>
  ⟨decodeOfEncodeIsIdentity (.lpSetFreq f) rfl, fun hl => exec_not_live rfl rfl hl, fun hl => exec_lpSetFreq hl f⟩

/-- Settles O29. -/
theorem lpProcessFollowsRecurrence : Obligations.LpProcessFollowsRecurrence := fun x _ =>
  ⟨decodeOfEncodeIsIdentity (.lpProcess x) rfl, fun hl => exec_not_live rfl rfl hl,
    fun hl hu => exec_lpProcess_unset hl hu x, fun _ _ hl ha hb => exec_lpProcess hl ha hb x⟩

/-! ## The range of the coefficients -/

/-- A number that is not below `+0.0` is finite or `+inf`. -/
theorem isFinite_or_eq_posInf {a : F32} (h : fle C_0 a = true) : isFinite a = true ∨ a = POS_INF := by
  obtain hf | rfl | hi := number_cases (fle_iff.1 h).2.1
  · exact .inl hf
  · exact absurd h (by decide)
  · exact .inr hi

/-- An infinity divided by a finite number is an infinity whose sign is the exclusive or (R115). -/
theorem fdiv_inf {i a : F32} (hi : isInf i = true) (ha : isFinite a = true) :
    fdiv i a = if sgn i = sgn a then POS_INF else NEG_INF := by
  simp only [fdiv, isNaN_of_isInf hi, isNaN_of_isFinite ha, hi, isInf_of_isFinite ha, Bool.or_self, Bool.false_eq_true,
    if_false, if_true, pack_xor_inf]

/-- A quotient of a number that is not below zero by a positive finite one is not below zero, though the dividend or the rounded
quotient may be `+inf`. -/
theorem zero_fle_fdiv {a b : F32} (ha : fle C_0 a = true) (hb : isFinite b = true) (h0 : flt C_0 b = true) :
    fle C_0 (fdiv a b) = true := by
  have hpos : 0 < value b := by rwa [flt_iff_value (by decide) hb, value_C_0] at h0
  obtain hf | rfl := isFinite_or_eq_posInf ha
  · have hz : isZero b = false := by rw [← Bool.not_eq_true, ← value_eq_zero_iff]; exact hpos.ne'
    exact zero_fle_of_nearest (nearest_fdiv hf hb hz) (div_nonneg ((zero_fle_iff hf).1 ha) hpos.le)
  · have hs : sgn b = false := sgn_of_zero_fle (fle_of_flt h0) fun e => absurd h0 (by rw [e]; decide)
    rw [fdiv_inf (by decide) hb, hs]
    decide

/-- The exponent of `LP.SET_FREQ` is not above zero; at `+inf` it is `-inf`. -/
theorem fmul_neg_two_pi_fle_zero {a : F32} (ha : fle C_0 a = true) : fle (fmul NEG_TWO_PI a) C_0 = true := by
  obtain hf | rfl := isFinite_or_eq_posInf ha
  · have hneg : value NEG_TWO_PI ≤ 0 := value_nonpos_of_sgn (by decide)
    have hprod := mul_nonpos_of_nonpos_of_nonneg hneg ((zero_fle_iff hf).1 ha)
    refine nearest_le (nearest_fmul (by decide) hf) (by decide) ?_
    rw [value_C_0]
    exact_mod_cast hprod
  · decide

/-- `1 - b` of a `b` in `[0, 1]` lies in `[0, 1]`: both ends are binary32 values. -/
theorem fsub_C_1_between {b : F32} (h0 : fle C_0 b = true) (h1 : fle b C_1 = true) :
    fle C_0 (fsub C_1 b) = true ∧ fle (fsub C_1 b) C_1 = true := by
  have hb := isFinite_of_fle (by decide) (by decide) h0 h1
  rw [zero_fle_iff hb] at h0
  rw [fle_iff_value hb (by decide), value_C_1] at h1
  have hdiff : Nearest _ (fsub C_1 b) := nearest_fsub (by decide) hb
  rw [value_C_1] at hdiff
  refine ⟨zero_fle_of_nearest hdiff (sub_nonneg.2 h1), nearest_le hdiff (by decide) ?_⟩
  rw [value_C_1]
  exact_mod_cast sub_le_self 1 h0

/-- The coefficient `b1` is the exponential of a number that is not above zero (R174). -/
theorem lpCoefficient_between {f fs : F32} (hfs : isFinite fs = true) (hpos : flt C_0 fs = true) (hf : fle C_0 f = true) :
    fle C_0 (lpCoefficient params f fs) = true ∧ fle (lpCoefficient params f fs) C_1 = true :=
  params.num_lawful.exp_of_nonpos (fmul_neg_two_pi_fle_zero (zero_fle_fdiv hf hfs hpos))

/-- Settles O50. -/
theorem lpCoefficientsLieInUnitInterval : Obligations.LpCoefficientsLieInUnitInterval := by
  intro f s hl hfs hpos hf
  obtain ⟨hb0, hb1⟩ := lpCoefficient_between hfs hpos hf
  obtain ⟨ha0, ha1⟩ := fsub_C_1_between hb0 hb1
  exact ⟨_, _, _, exec_lpSetFreq hl f, rfl, rfl, hb0, hb1, ha0, ha1⟩

/-! ## Idempotent setters -/

@[simp] theorem refuse_live (s : State) (st : Status) (u : UnitId) : (s.refuse st).live u = s.live u := by
  cases u <;> rfl

/-- Run again on the state it left, the meaning leaves that state. -/
def Idempotent (m : State → Result) : Prop := ∀ s t, m s = .next t → m t = .next t

/-- A refusal only presents its response (R271), so the second one presents it again. -/
theorem Idempotent.refuse (st : Status) : Idempotent fun s => .next (s.refuse st) := by
  rintro s _ ⟨⟩
  rfl

/-- A command that writes its unit where the unit is live, keeps it live, and in the state it left writes what stands there
already. What it writes may depend only on registers it does not change or changes back to themselves (R175). -/
theorem Idempotent.whenLive {u : UnitId} {f : State → State} {v : BitVec 32}
    (hlive : ∀ s : State, ((f s).respond v).live u = s.live u) (hf : ∀ s, f ((f s).respond v) = (f s).respond v) :
    Idempotent fun s => requires (s.live u) .notLive s (.next ((f s).respond v)) := by
  intro s t h
  dsimp only at h ⊢
  obtain ⟨hl, ht⟩ | ⟨hl, rfl⟩ := requires_next h
  · obtain rfl := Host.Outcome.next.inj ht
    rw [hlive, hl, hf]
    rfl
  · rw [refuse_live, hl]
    rfl

theorem oscSetWave_idempotent (w : U32) : Idempotent (oscSetWave w) := by
  unfold oscSetWave
  cases waveOfOperand w with
  | none => exact .refuse .illegal
  | some wave => exact .whenLive (u := .osc) (fun _ => rfl) fun _ => rfl

/-- Each setter computes from its operand, its unit's sample rate and registers that it leaves alone or has just written. -/
theorem exec_idempotent {i : Instr} (h : i.isSetter = true) : Idempotent (exec i) := by
  cases i with
  | lpSetFreq => exact .whenLive (u := .lp) (fun _ => rfl) fun _ => rfl
  | svfSetFreq | svfSetRes | svfSetDrive => exact .whenLive (u := .svf) (fun _ => rfl) fun _ => rfl
  | apSetFreq => exact .whenLive (u := .ap) (fun _ => rfl) fun _ => rfl
  | spSetFreq | spSetRt => exact .whenLive (u := .sp) (fun _ => rfl) fun _ => rfl
  | oscSetFreq | oscSetAmp | oscSetPhase => exact .whenLive (u := .osc) (fun _ => rfl) fun _ => rfl
  | oscSetWave w => exact oscSetWave_idempotent w
  | _ => cases h

/-- Settles O21. -/
theorem settersAreIdempotent : Obligations.SettersAreIdempotent := fun _ s t hset => exec_idempotent hset s t

end Sys2Proof.Machine
end

section
/-! The state-variable filter (43_svf.md R182 to R193), command by command, and the free order of its three setters (R198): each
setter is one update of the unit, and any two of the three updates commute. -/

namespace Sys2Proof.Machine

/-! ## The setters -/

theorem lift2_some_left (g : F32 → F32 → F32) (a : F32) (b : Option F32) : lift2 g (some a) b = b.map (g a) := by
  cases b <;> rfl

theorem lift2_some_right (g : F32 → F32 → F32) (a : Option F32) (b : F32) :
    lift2 g a (some b) = a.map fun x => g x b := by
  cases a <;> rfl

/-- What a setter of `SVF` makes of the unit's registers (R184 to R186); no other command is one. -/
def Svf.set (u : Svf) : Instr → Svf
  | .svfSetFreq f => svfDamp params { u with freq := some (svfFreqOf params f u.fs) }
  | .svfSetRes r => svfDrive (svfDamp params { u with resonance := some (fclamp r C_0 C_1) })
  | .svfSetDrive d => svfDrive { u with preDrive := some (preDriveOf d) }
  | _ => u

/-- On a live unit a setter is its update of the unit, completed with data zero (R184 to R186). -/
theorem exec_svfSetter {i : Instr} {s : State} (hset : i.isSetter = true) (hunit : i.unit = .svf) (hl : s.svf.live = true) :
    exec i s = .next ({ s with svf := s.svf.set i }.respond 0#32) := by
  cases i with
  | svfSetFreq f => simp only [exec, execSvfSetFreq, svfSetFreq, hl, requires_true, Svf.set]
  | svfSetRes r => simp only [exec, execSvfSetRes, svfSetRes, hl, requires_true, Svf.set]
  | svfSetDrive d => simp only [exec, execSvfSetDrive, svfSetDrive, hl, requires_true, Svf.set]
  | lpSetFreq | apSetFreq | spSetFreq | spSetRt | oscSetFreq | oscSetAmp | oscSetPhase | oscSetWave => cases hunit
  | _ => cases hset

/-- Settles O30: each setter computes one lifted operation with an operand that is set. -/
theorem svfSettersDeriveParameters : Obligations.SvfSettersDeriveParameters := by
  intro f r d s
  refine ⟨⟨?_, ?_, ?_⟩, fun hl => ⟨?_, ?_, ?_⟩, fun hl => ⟨?_, ?_, ?_⟩⟩
  · exact decodeOfEncodeIsIdentity (.svfSetFreq f) rfl
  · exact decodeOfEncodeIsIdentity (.svfSetRes r) rfl
  · exact decodeOfEncodeIsIdentity (.svfSetDrive d) rfl
  · exact exec_not_live rfl rfl hl
  · exact exec_not_live rfl rfl hl
  · exact exec_not_live rfl rfl hl
  · rw [exec_svfSetter rfl rfl hl, Svf.set, svfDamp, lift2_some_left]
    rfl
  · rw [exec_svfSetter rfl rfl hl, Svf.set, svfDrive, svfDamp, lift2_some_right, lift2_some_right]
    rfl
  · rw [exec_svfSetter rfl rfl hl, Svf.set, svfDrive, lift2_some_left]
    rfl

/-! ## Processing and the getters -/

/-- `SVF.PROCESS` with its coefficients set runs the two passes and publishes (R188). -/
theorem exec_svfProcess {s : State} {freq damp drive : F32} (hl : s.svf.live = true) (hf : s.svf.freq = some freq)
    (hd : s.svf.damp = some damp) (hv : s.svf.drive = some drive) (x : F32) :
    exec (.svfProcess x) s = .next ({ s with svf := svfTick freq damp drive x s.svf }.respond 0#32) := by
  simp only [exec, execSvfProcess, svfProcess, hl, hf, hd, hv, requires_true]

/-- `SVF.PROCESS` without one of its coefficients is refused (R188, R274). -/
theorem exec_svfProcess_unset {s : State} (hl : s.svf.live = true)
    (h : s.svf.freq = none ∨ s.svf.damp = none ∨ s.svf.drive = none) (x : F32) :
    exec (.svfProcess x) s = .next (s.refuse .unset) := by
  simp only [exec, execSvfProcess, svfProcess, hl, requires_true]
  split
  · next hf hd hv => simp [hf, hd, hv] at h
  · rfl
  · rfl
  · rfl

/-- Settles O31: `svfTick` is the eight statements of the two passes and the publishing, in their order. -/
theorem svfProcessRunsTwoPasses : Obligations.SvfProcessRunsTwoPasses := fun x _ =>
  ⟨decodeOfEncodeIsIdentity (.svfProcess x) rfl, fun hl => exec_not_live rfl rfl hl,
    fun hl hu => exec_svfProcess_unset hl hu x, fun _ _ _ hl hf hd hv => exec_svfProcess hl hf hd hv x⟩

/-- A getter of a live unit answers its register and changes nothing else (R189 to R193). -/
theorem svfGet_of_live {s : State} (hl : s.svf.live = true) (out : F32) : svfGet out s = .next (s.answered (0x00#8 ++ out)) := by
  rw [svfGet, hl, requires_true, respond_eq_answered]

/-- Settles O32: the five words are the encodings of the getters, and each getter is `svfGet` of its register. -/
theorem svfGettersArePureReads : Obligations.SvfGettersArePureReads := by
  intro s
  refine ⟨⟨?_, ?_, ?_, ?_, ?_, fun opc hopc d hd => ?_⟩, fun hl i hi => ?_, fun hl => ⟨?_, ?_, ?_, ?_, ?_⟩⟩
  · exact decodeOfEncodeIsIdentity .svfGetLow rfl
  · exact decodeOfEncodeIsIdentity .svfGetHigh rfl
  · exact decodeOfEncodeIsIdentity .svfGetBand rfl
  · exact decodeOfEncodeIsIdentity .svfGetNotch rfl
  · exact decodeOfEncodeIsIdentity .svfGetPeak rfl
  · simp only [List.mem_cons, List.not_mem_nil, or_false] at hopc
    obtain rfl | rfl | rfl | rfl | rfl := hopc
    · exact decode_formatZ_error (i := .svfGetLow) rfl hd
    · exact decode_formatZ_error (i := .svfGetHigh) rfl hd
    · exact decode_formatZ_error (i := .svfGetBand) rfl hd
    · exact decode_formatZ_error (i := .svfGetNotch) rfl hd
    · exact decode_formatZ_error (i := .svfGetPeak) rfl hd
  · simp only [List.mem_cons, List.not_mem_nil, or_false] at hi
    obtain rfl | rfl | rfl | rfl | rfl := hi <;> exact exec_not_live rfl rfl hl
  · exact svfGet_of_live hl s.svf.outLowPass
  · exact svfGet_of_live hl s.svf.outHighPass
  · exact svfGet_of_live hl s.svf.outBandPass
  · exact svfGet_of_live hl s.svf.outNotch
  · exact svfGet_of_live hl s.svf.outPeak

/-! ## The order of the setters -/

theorem Svf.set_live (u : Svf) (i : Instr) : (u.set i).live = u.live := by
  cases i <;> rfl

/-- A sequence of setters on a live unit is their updates one after the other, and one response with data zero: each setter reads
nothing outside its unit and replaces the response of the one before. -/
theorem execAll_svfSetters {i : Instr} {l : List Instr} {s : State}
    (hset : ∀ j ∈ i :: l, j.isSetter = true ∧ j.unit = .svf) (hl : s.svf.live = true) :
    execAll (i :: l) s = .next ({ s with svf := (i :: l).foldl Svf.set s.svf }.respond 0#32) := by
  induction l generalizing i s with
  | nil =>
    obtain ⟨hi, hu⟩ := hset i List.mem_cons_self
    simp only [execAll, exec_svfSetter hi hu hl, List.foldl]
  | cons j l ih =>
    obtain ⟨hi, hu⟩ := hset i List.mem_cons_self
    rw [execAll, exec_svfSetter hi hu hl]
    exact ih (fun k hk => hset k (List.mem_cons_of_mem i hk)) ((Svf.set_live s.svf i).trans hl)

/-- The three setters, one operand for each. -/
def svfSetters (f r d : F32) : List Instr := [.svfSetFreq f, .svfSetRes r, .svfSetDrive d]

theorem isSetter_of_mem_svfSetters {f r d : F32} {i : Instr} (h : i ∈ svfSetters f r d) :
    i.isSetter = true ∧ i.unit = .svf := by
  simp only [svfSetters, List.mem_cons, List.not_mem_nil, or_false] at h
  obtain rfl | rfl | rfl := h <;> exact ⟨rfl, rfl⟩

/-- Any two of the three updates commute: they store different inputs, and each derived register is recomputed by the later of
the updates that store its inputs, from both (R182, R183). -/
theorem svfSetters_comm {f r d : F32} {i j : Instr} (hi : i ∈ svfSetters f r d) (hj : j ∈ svfSetters f r d) (u : Svf) :
    (u.set i).set j = (u.set j).set i := by
  simp only [svfSetters, List.mem_cons, List.not_mem_nil, or_false] at hi hj
  obtain rfl | rfl | rfl := hi <;> obtain rfl | rfl | rfl := hj <;> simp only [Svf.set, svfDamp, svfDrive]

/-- Settles O51: in any order the updates compose to the same unit, in which all five parameters are set. -/
theorem svfSetterOrderIsFree : Obligations.SvfSetterOrderIsFree := by
  intro f r d s l hl hperm
  change l.Perm (svfSetters f r d) at hperm
  have hset : ∀ i ∈ l, i.isSetter = true ∧ i.unit = .svf := fun i hi => isSetter_of_mem_svfSetters (hperm.mem_iff.1 hi)
  have hfold : l.foldl Svf.set s.svf = (svfSetters f r d).foldl Svf.set s.svf :=
    hperm.foldl_eq' (fun i hi j hj u => svfSetters_comm (hperm.mem_iff.1 hi) (hperm.mem_iff.1 hj) u) s.svf
  refine ⟨{ s with svf := l.foldl Svf.set s.svf }.respond 0#32, ?_, ?_, ?_⟩
  · cases l with
    | nil => exact absurd hperm.length_eq (by simp [svfSetters])
    | cons i l => exact execAll_svfSetters hset hl
  · rw [hfold]
    exact execAll_svfSetters (fun i hi => isSetter_of_mem_svfSetters hi) hl
  · rw [hfold]
    rfl

end Sys2Proof.Machine
end

section
/-! Ranges and signs that the four operations keep (40_numerics.md R112), where the bounds are binary32 values; the relative error
of rounding; and the sine of a lawful record up to a bound (R127). -/

namespace Sys2Proof.Machine

/-! ## Numbers from zero up to a bound -/

/-- `p` lies in `[0, hi]`; a zero of either sign does. -/
def UpTo (hi p : F32) : Prop := fle C_0 p = true ∧ fle p hi = true

section
variable {a b c p hi : F32}

theorem isFinite_of_upTo (hhi : isFinite hi = true) (h : UpTo hi p) : isFinite p = true :=
  isFinite_of_fle (by decide) hhi h.1 h.2

theorem UpTo.trans {hi' : F32} (h : UpTo hi p) (hle : fle hi hi' = true) : UpTo hi' p := ⟨h.1, fle_trans h.2 hle⟩

theorem upTo_iff_value (hhi : isFinite hi = true) (hp : isFinite p = true) :
    UpTo hi p ↔ 0 ≤ value p ∧ value p ≤ value hi := by
  rw [UpTo, zero_fle_iff hp, fle_iff_value hp hhi]

theorem value_of_upTo (hhi : isFinite hi = true) (h : UpTo hi p) : 0 ≤ value p ∧ value p ≤ value hi :=
  (upTo_iff_value hhi (isFinite_of_upTo hhi h)).1 h

/-- A number from zero up that is no zero has a positive value. -/
theorem value_pos_of_upTo (hhi : isFinite hi = true) (h : UpTo hi p) (hz : isZero p = false) : 0 < value p := by
  refine lt_of_le_of_ne (value_of_upTo hhi h).1 fun e => ?_
  rw [value_eq_zero_iff.1 e.symm] at hz
  cases hz

/-- A number with sign bit 0 is not below zero. -/
theorem zero_fle_of_sgn (hp : isNaN p = false) (hs : sgn p = false) : fle C_0 p = true := by
  refine fle_of_key (by decide) hp ?_
  rw [show orderKey C_0 = 0 by decide, orderKey, hs]
  simp

theorem value_of_units {z : ℤ} (h : units p = z) : value p = z / 2 ^ 149 := by rw [value, h]

/-- A product of two numbers lies below the product of their bounds, where a binary32 value does. -/
theorem upTo_fmul {a' b' : F32} (ha : UpTo a' a) (hb : UpTo b' b)
    (hfin : isFinite a' = true ∧ isFinite b' = true ∧ isFinite c = true) (hle : units a' * units b' ≤ units c * 2 ^ 149) :
    UpTo c (fmul a b) := by
  obtain ⟨hfa, hfb, hfc⟩ := hfin
  obtain ⟨ha0, ha1⟩ := value_of_upTo hfa ha
  obtain ⟨hb0, hb1⟩ := value_of_upTo hfb hb
  have hends : value a' * value b' ≤ value c := by
    have hle' : (units a' : ℚ) * units b' ≤ units c * 2 ^ 149 := by exact_mod_cast hle
    rw [value_of_units rfl, value_of_units rfl, value_of_units (p := c) rfl, div_mul_div_comm,
      div_le_div_iff₀ (by positivity) (by positivity)]
    nlinarith
  have hprod := nearest_fmul (isFinite_of_upTo hfa ha) (isFinite_of_upTo hfb hb)
  refine ⟨zero_fle_of_nearest hprod (mul_nonneg ha0 hb0), nearest_le hprod hfc ?_⟩
  exact_mod_cast (mul_le_mul ha1 hb1 hb0 (ha0.trans ha1)).trans hends

/-- A difference is not below zero where the operands are in order, though the first may be `+inf`. -/
theorem zero_fle_fsub (hb : isFinite b = true) (hz : fle C_0 b = true) (h : fle b a = true) : fle C_0 (fsub a b) = true := by
  obtain ha | rfl := isFinite_or_eq_posInf (fle_trans hz h)
  · rw [fle_iff_value hb ha] at h
    exact zero_fle_of_nearest (nearest_fsub ha hb) (sub_nonneg.2 h)
  · have hinf := (fadd_inf (i := POS_INF) (by decide) (isNaN_flipSign b ▸ isNaN_of_isFinite hb)
      (by simp [isInf_of_isFinite hb])).1
    rw [fsub, hinf]
    decide

/-! ## Signs -/

theorem sgn_fmul (ha : isFinite a = true) (hb : isFinite b = true) : sgn (fmul a b) = (sgn a != sgn b) := by
  rw [fmul_of_isFinite ha hb, sgn_pack (roundMag_lt _ _)]

theorem sgn_fdiv (ha : isFinite a = true) (hb : isFinite b = true) (hz : isZero b = false) :
    sgn (fdiv a b) = (sgn a != sgn b) := by
  rw [fdiv_of_isFinite ha hb hz, sgn_pack (roundMag_lt _ _)]

theorem sgn_of_pos (h : flt C_0 p = true) : sgn p = false :=
  sgn_of_zero_fle (fle_of_flt h) fun e => absurd h (by rw [e]; decide)

theorem isZero_of_pos (h : flt C_0 p = true) : isZero p = false := by
  rw [← Bool.not_eq_true]
  intro hz
  have hk := (flt_iff.1 h).2.2
  rw [orderKey_of_isZero hz] at hk
  exact absurd hk (by decide)

theorem flt_of_flt_of_fle (h : flt a b = true) (h' : fle b c = true) : flt a c = true := by
  rw [flt_iff] at h ⊢
  rw [fle_iff] at h'
  exact ⟨h.1, h'.2.1, lt_of_lt_of_le h.2.2 h'.2.2⟩

/-- A quotient by a positive number keeps the sign bit 0 of a finite dividend, also where the divisor is `+inf`. -/
theorem sgn_fdiv_of_pos (ha : isFinite a = true) (hs : sgn a = false) (hb : flt C_0 b = true) : sgn (fdiv a b) = false := by
  obtain hf | rfl := isFinite_or_eq_posInf (fle_of_flt hb)
  · rw [sgn_fdiv ha hf (isZero_of_pos hb), hs, sgn_of_pos hb]
    rfl
  · rw [fdiv_eq_zero (by decide) (by decide) ha (.inr (by decide)), hs]
    rfl

/-- A clamp answers one of its operands (R121). -/
theorem fclamp_cases (v lo hi : F32) : fclamp v lo hi = v ∨ fclamp v lo hi = lo ∨ fclamp v lo hi = hi := by
  unfold fclamp
  cases flt hi v <;> simp only [Bool.false_eq_true, if_false, if_true] <;> split <;> simp

/-- A clamp from `+0.0` to a number with sign bit 0 has sign bit 0, unless its argument is `-0.0` (R121). -/
theorem sgn_fclamp {v : F32} (hv : isNaN v = false) (hz : v ≠ NEG_ZERO) (hhi : sgn hi = false) :
    sgn (fclamp v C_0 hi) = false := by
  refine sgn_of_zero_fle (le_fclamp hv (by decide) hi) ?_
  obtain h | h | h := fclamp_cases v C_0 hi <;> rw [h]
  · exact hz
  · decide
  · rintro rfl
    exact absurd hhi (by decide)

theorem sgn_fmin (ha : sgn a = false) (hb : sgn b = false) : sgn (fmin a b) = false := by
  obtain ⟨h, -⟩ | ⟨h, -⟩ := fmin_cases a b <;> rwa [h]

/-- `fmin` of a bound and a number that is not below zero lies from zero up to the bound. -/
theorem upTo_fmin (hhi : fle C_0 hi = true) (hp : fle C_0 p = true) : UpTo hi (fmin hi p) :=
  ⟨le_fmin hhi hp, (fmin_le (fle_iff.1 hhi).2.1 (fle_iff.1 hp).2.1).1⟩

end

/-! ## Doubling is exact -/

/-- Twice a magnitude is a magnitude: one more in the exponent, or a subnormal shifted. -/
theorem exists_magNat_double (m : Nat) : ∃ m', magNat m' = 2 * magNat m := by
  obtain ⟨k, c, rfl, hc, hk⟩ := exists_scaled m
  rw [magNat_scaled hc.le hk]
  by_cases h : 2 ^ 23 ≤ c
  · refine ⟨(k + 1) * 2 ^ 23 + c, ?_⟩
    rw [magNat_scaled hc.le (.inr h), pow_succ]
    ring
  · obtain rfl : k = 0 := by omega
    refine ⟨0 * 2 ^ 23 + 2 * c, ?_⟩
    rw [magNat_scaled (by omega) (.inl rfl)]
    ring

theorem value_C_2 : value C_2 = 2 := by
  rw [value_of_units (z := 2 * 2 ^ 149) (by decide)]
  push_cast
  norm_num

/-- Twice a number is exact unless it overflows. -/
theorem value_fmul_two {a : F32} (ha : isFinite a = true) (hs : sgn a = false) (h2 : isFinite (fmul C_2 a) = true) :
    value (fmul C_2 a) = 2 * value a := by
  have hprod := nearest_fmul (a := C_2) (by decide) ha
  obtain ⟨m, hm⟩ := exists_magNat_double (absBits a)
  have hval : value C_2 * value a = (magNat m : ℚ) / 2 ^ 149 := by
    rw [value_C_2, value_nonneg_of_sgn hs, hm]
    push_cast
    ring
  by_cases hlt : m < 0x7F800000
  · have hpat : value (pack false m) = 2 * value a := by
      rw [value_pack (by omega), if_neg (by decide), ← hval, value_C_2]
    rw [← hpat]
    refine value_of_nearest_value (isFinite_pack hlt) ?_
    rwa [hpat, ← value_C_2]
  · have hge : 2 ^ 24 * 2 ^ 253 ≤ magNat m := magNat_inf ▸ magNat_strictMono.monotone (not_lt.1 hlt)
    have hover : (2 ^ 128 - 2 ^ 103 : ℝ) ≤ ((value C_2 * value a : ℚ) : ℝ) := by
      have hge' : ((2 ^ 24 * 2 ^ 253 : ℕ) : ℝ) ≤ magNat m := by exact_mod_cast hge
      rw [hval]
      push_cast at hge' ⊢
      rw [le_div_iff₀ (by positivity)]
      refine le_trans ?_ hge'
      norm_num
    rw [hprod.1 hover] at h2
    exact absurd h2 (by decide)

/-! ## The relative error of rounding -/

/-- In the range of the normal numbers a real has a binary32 value within one part in `2^24`: a significand of 24 bits. -/
theorem exists_value_near {r : ℝ} (hlo : 1 / 2 ^ 126 ≤ r) (hhi : r < 2 ^ 127) :
    ∃ q, isFinite q = true ∧ |((value q : ℚ) : ℝ) - r| ≤ r / 2 ^ 24 := by
  obtain ⟨k, hk, hk'⟩ := exists_nat_pow_near (x := r * 2 ^ 126) (y := 2)
    (by rwa [← div_le_iff₀ (by positivity)]) one_lt_two
  have hk253 : k < 253 := by
    have hlt : (2 : ℝ) ^ k < 2 ^ 127 * 2 ^ 126 := lt_of_le_of_lt hk (mul_lt_mul_of_pos_right hhi (by positivity))
    rw [← pow_add] at hlt
    exact (pow_lt_pow_iff_right₀ one_lt_two).1 hlt
  have hpow : (0 : ℝ) < 2 ^ k := by positivity
  obtain ⟨y, hy⟩ : ∃ y, r * 2 ^ 126 = y * 2 ^ k := ⟨r * 2 ^ 126 / 2 ^ k, by field_simp⟩
  have hy1 : 1 ≤ y := by
    rw [hy] at hk
    exact (le_mul_iff_one_le_left hpow).1 hk
  have hy2 : y < 2 := by
    rw [hy, pow_succ'] at hk'
    exact lt_of_mul_lt_mul_right hk' hpow.le
  have hc1 := Nat.floor_le (a := y * 2 ^ 23 + 1 / 2) (by positivity)
  have hc2 := Nat.lt_floor_add_one (y * 2 ^ 23 + 1 / 2)
  have hlow : 2 ^ 23 ≤ ⌊y * 2 ^ 23 + 1 / 2⌋₊ := Nat.le_floor (by push_cast; linarith)
  generalize ⌊y * 2 ^ 23 + 1 / 2⌋₊ = c at *
  have hhigh : c ≤ 2 ^ 24 := by
    refine Nat.lt_succ_iff.1 ?_
    rw [← Nat.cast_lt (α := ℝ)]
    push_cast
    linarith
  refine ⟨pack false (k * 2 ^ 23 + c), isFinite_pack (by omega), ?_⟩
  have hval : ((value (pack false (k * 2 ^ 23 + c)) : ℚ) : ℝ) = c * 2 ^ k / 2 ^ 149 := by
    rw [value_pack (by omega), if_neg (by decide), magNat_scaled hhigh (.inr hlow)]
    push_cast
    ring
  have hr : r = y * 2 ^ 23 * 2 ^ k / 2 ^ 149 := by
    rw [eq_div_iff (by positivity), mul_right_comm, ← hy]
    ring
  have hdist : |(c : ℝ) - y * 2 ^ 23| ≤ y * 2 ^ 23 / 2 ^ 24 := by
    rw [abs_le]
    constructor <;> linarith
  have hunit : (0 : ℝ) < 2 ^ k / 2 ^ 149 := by positivity
  have hdiff : ((value (pack false (k * 2 ^ 23 + c)) : ℚ) : ℝ) - r = (c - y * 2 ^ 23) * (2 ^ k / 2 ^ 149) := by
    rw [hval, hr]
    ring
  calc |((value (pack false (k * 2 ^ 23 + c)) : ℚ) : ℝ) - r|
      = |(c : ℝ) - y * 2 ^ 23| * (2 ^ k / 2 ^ 149) := by rw [hdiff, abs_mul, abs_of_pos hunit]
    _ ≤ y * 2 ^ 23 / 2 ^ 24 * (2 ^ k / 2 ^ 149) := mul_le_mul_of_nonneg_right hdist hunit.le
    _ = r / 2 ^ 24 := by
        rw [hr]
        ring

/-- So rounding to nearest moves it by no more. -/
theorem nearest_rel_error {r : ℝ} {p : F32} (h : Nearest r p) (hlo : 1 / 2 ^ 126 ≤ r) (hhi : r < 2 ^ 127) :
    |((value p : ℚ) : ℝ) - r| ≤ r / 2 ^ 24 := by
  obtain ⟨q, hq, hnear⟩ := exists_value_near hlo hhi
  have habs : |r| < 2 ^ 128 - 2 ^ 103 := by
    rw [abs_of_nonneg (le_trans (by positivity) hlo)]
    exact hhi.trans (by norm_num)
  exact ((h.2.2 habs).2.1 q hq).trans hnear

/-! ## The sine up to a bound -/

section
variable {n : NumRec} {x B S : F32}

/-- `sin` of a number from zero up to `B` is at most any binary32 value above the real sine of `B`. -/
theorem NumLawful.sin_le (h : NumLawful n) (hx : UpTo B x) (hB : fle B HALF_PI = true) (hS : isFinite S = true)
    (hle : Real.sin ((value B : ℚ) : ℝ) ≤ ((value S : ℚ) : ℝ)) : fle (n.sin x) S = true := by
  have hBf : isFinite B = true := isFinite_of_fle (by decide) (by decide) (fle_trans hx.1 hx.2) hB
  have hlow : ((value C_NEG1 : ℚ) : ℝ) ≤ Real.sin ((value B : ℚ) : ℝ) := by
    rw [value_C_NEG1]
    exact_mod_cast Real.neg_one_le_sin _
  exact fle_trans (h.sin_mono x B hx.1 hx.2 hB) (h.sin_between hBf (by decide) hS hlow hle).2

/-- `sin` keeps the sign bit 0 up to `HALF_PI`: at `+0.0` it is `+0.0`, and above zero the real sine is positive (log 8). -/
theorem NumLawful.sgn_sin (h : NumLawful n) (hx : UpTo HALF_PI x) (hs : sgn x = false) : sgn (n.sin x) = false := by
  refine sgn_of_zero_fle (h.sin_of_nonneg hx.1 hx.2).1 ?_
  have hf := isFinite_of_upTo (by decide) hx
  cases hz : isZero x with
  | true =>
    rw [h.sin_zero x hz]
    rintro rfl
    exact absurd hs (by decide)
  | false =>
    have hpos : (0 : ℝ) < ((value x : ℚ) : ℝ) := by exact_mod_cast value_pos_of_upTo (by decide) hx hz
    have hle : ((value x : ℚ) : ℝ) ≤ ((value HALF_PI : ℚ) : ℝ) := by exact_mod_cast (value_of_upTo (by decide) hx).2
    have hnear := half_pi_near.2
    have hpi := Real.pi_gt_three
    norm_num at hnear
    exact (h.sin_faithful x hf hz).2 (Real.sin_pos_of_pos_of_lt_pi hpos (by linarith))

end

end Sys2Proof.Machine
end

section
/-! The ranges of the parameters of the state-variable filter (43_svf.md R195) and the negative-zero corner (R196). The coefficient
`freq` of R184 is followed step by step: the limit `fs/3`, the clamp, the normalised cutoff `m`, the sine. -/

namespace Sys2Proof.Machine

/-! ## `damp` and `drive` -/

/-- The bound of `damp` by the resonance, `2·(1 - resonance^0.25)`, lies in `[0, 2]` (R182, R195). -/
theorem upTo_dampByResonance {res : F32} (h : UpTo C_1 res) : UpTo C_2 (fmul C_2 (fsub C_1 (params.num.pow025 res))) := by
  obtain ⟨hp0, hp1⟩ := params.num_lawful.pow025_of_le_one h.1 h.2
  exact upTo_fmul (a' := C_2) (b' := C_1) ⟨by decide, by decide⟩ (fsub_C_1_between hp0 hp1) (by decide) (by decide)

/-- The bound of `damp` by the coefficient, `2/freq - freq/2`, is not below zero up to `freq = 2`: the first term is at least 1,
`+inf` at `+0.0`, and the second at most 1 (R182, R195). -/
theorem zero_fle_dampByFreq {freq : F32} (hs : sgn freq = false) (h : UpTo C_2 freq) :
    fle C_0 (fsub (fdiv C_2 freq) (fmul freq C_0_5)) = true := by
  have hf := isFinite_of_upTo (by decide) h
  have hhalf : UpTo C_1 (fmul freq C_0_5) := upTo_fmul (b' := C_0_5) h ⟨by decide, by decide⟩ (by decide) (by decide)
  have hquot : fle C_1 (fdiv C_2 freq) = true := by
    cases hz : isZero freq with
    | true =>
      rw [fdiv_zero hz (by decide) (by decide), hs]
      decide
    | false =>
      have hle : value C_1 ≤ value C_2 / value freq := by
        rw [value_C_1, one_le_div (value_pos_of_upTo (by decide) h hz)]
        exact (value_of_upTo (by decide) h).2
      exact le_nearest (nearest_fdiv (by decide) hf hz) (by decide) (by exact_mod_cast hle)
  exact zero_fle_fsub (isFinite_of_upTo (by decide) hhalf) hhalf.1 (fle_trans hhalf.2 hquot)

/-- `damp` lies in `[0, 2]` for every `freq` in `[+0.0, 2]` and resonance in `[0, 1]` (R195). -/
theorem upTo_dampOf {freq res : F32} (hs : sgn freq = false) (hf : UpTo C_2 freq) (hr : UpTo C_1 res) :
    UpTo C_2 (dampOf params freq res) := by
  have ha := upTo_dampByResonance hr
  have hb : UpTo C_2 (fmin C_2 _) := upTo_fmin (by decide) (zero_fle_dampByFreq hs hf)
  exact ⟨le_fmin ha.1 hb.1, fle_trans (fmin_le (fle_iff.1 ha.1).2.1 (fle_iff.1 hb.1).2.1).1 ha.2⟩

/-- `drive` lies in `[0, 0.1]` (R195). -/
theorem upTo_drive {pre res : F32} (hp : UpTo C_0_1 pre) (hr : UpTo C_1 res) : UpTo C_0_1 (fmul pre res) :=
  upTo_fmul hp hr (by decide) (by decide)

/-- Settles O53. -/
theorem svfDampAndDriveRanges : Obligations.SvfDampAndDriveRanges := by
  intro freq res pre hs hf hr0 hr1 hp0 hp1
  have hfin : isNaN freq = false := (fle_iff.1 hf).1
  have hfreq : UpTo C_2 freq := ⟨zero_fle_of_sgn hfin hs, fle_trans hf (by decide)⟩
  exact ⟨upTo_dampOf hs hfreq ⟨hr0, hr1⟩, upTo_drive ⟨hp0, hp1⟩ ⟨hr0, hr1⟩⟩

/-! ## The normalised cutoff -/

/-- The limit `fs/3` of the cutoff (R184). -/
def cutoffLimit (fs : F32) : F32 := fdiv fs C_3

/-- The clamped cutoff of `SVF.SET_FREQ f` over twice the sample rate, `x` of R184. -/
def cutoffQuotient (f fs : F32) : F32 := fdiv (fclamp f C_0 (cutoffLimit fs)) (fmul C_2 fs)

/-- `m` of R184. -/
def normCutoff (f fs : F32) : F32 := fmin C_0_25 (cutoffQuotient f fs)

theorem svfFreqOf_eq (P : Params) (f fs : F32) : svfFreqOf P f fs = fmul C_2 (P.num.sin (fmul PI (normCutoff f fs))) := rfl

theorem value_C_3 : value C_3 = 3 := by
  rw [value_of_units (z := 3 * 2 ^ 149) (by decide)]
  push_cast
  norm_num

/-- The binary32 value nearest to `1/6`. -/
def SIXTH : F32 := 0x3E2AAAAB#32

section
variable {f fs : F32} (hfs : isFinite fs = true)
include hfs

theorem nearest_cutoffLimit : Nearest ((value fs / 3 : ℚ) : ℝ) (cutoffLimit fs) :=
  value_C_3 ▸ nearest_fdiv hfs (by decide) (by decide)

/-- From `fs = 2^-124` on, `fs/3` is a normal number and rounds to at most one part in `2^24` above. -/
theorem cutoffLimit_le (hmin : fle 0x01800000#32 fs = true) :
    ((value (cutoffLimit fs) : ℚ) : ℝ) ≤ ((value fs : ℚ) : ℝ) / 3 * (1 + 1 / 2 ^ 24) := by
  have hlow : ((1 / 2 ^ 124 : ℚ) : ℝ) ≤ ((value fs : ℚ) : ℝ) := by
    rw [fle_iff_value (by decide) hfs, value_of_units (z := 2 ^ 25) (by decide)] at hmin
    refine Rat.cast_le.2 (le_trans (le_of_eq ?_) hmin)
    norm_num
  have htop := value_lt_top hfs
  have hnear := nearest_cutoffLimit hfs
  push_cast at hlow hnear
  have herr := (abs_le.1 (nearest_rel_error hnear (by norm_num at hlow ⊢; linarith) (by norm_num at htop ⊢; linarith))).2
  linarith

variable (hpos : flt C_0 fs = true)
include hpos

theorem value_pos_of_flt : 0 < value fs := by
  rwa [flt_iff_value (by decide) hfs, value_C_0] at hpos

theorem upTo_cutoffLimit : UpTo fs (cutoffLimit fs) := by
  have hle : value fs / 3 ≤ value fs := by linarith [value_pos_of_flt hfs hpos]
  exact ⟨zero_fle_fdiv (fle_of_flt hpos) (by decide) (by decide),
    nearest_le (nearest_cutoffLimit hfs) hfs (by exact_mod_cast hle)⟩

theorem isFinite_cutoffLimit : isFinite (cutoffLimit fs) = true := isFinite_of_upTo hfs (upTo_cutoffLimit hfs hpos)

theorem sgn_cutoffLimit : sgn (cutoffLimit fs) = false := by
  rw [cutoffLimit, sgn_fdiv hfs (by decide) (by decide), sgn_of_pos hpos]
  rfl

/-- Twice the sample rate is positive, though it may be `+inf`. -/
theorem fmul_two_pos : flt C_0 (fmul C_2 fs) = true := by
  have hle : value fs ≤ value C_2 * value fs := by
    rw [value_C_2]
    linarith [value_pos_of_flt hfs hpos]
  exact flt_of_flt_of_fle hpos (le_nearest (nearest_fmul (by decide) hfs) hfs (by exact_mod_cast hle))

variable (hf : isNaN f = false)
include hf

theorem upTo_clampedCutoff : UpTo (cutoffLimit fs) (fclamp f C_0 (cutoffLimit fs)) :=
  ⟨le_fclamp hf (by decide) _, fclamp_le hf (upTo_cutoffLimit hfs hpos).1⟩

theorem isFinite_clampedCutoff : isFinite (fclamp f C_0 (cutoffLimit fs)) = true :=
  isFinite_of_upTo (isFinite_cutoffLimit hfs hpos) (upTo_clampedCutoff hfs hpos hf)

/-- Where twice the sample rate overflows, the quotient is a zero. -/
theorem cutoffQuotient_of_overflow (h : fmul C_2 fs = POS_INF) :
    cutoffQuotient f fs = C_0 ∨ cutoffQuotient f fs = NEG_ZERO := by
  rw [cutoffQuotient, h, fdiv_eq_zero (by decide) (by decide) (isFinite_clampedCutoff hfs hpos hf) (.inr (by decide))]
  split <;> simp

theorem zero_fle_cutoffQuotient : fle C_0 (cutoffQuotient f fs) = true := by
  have htwo := fmul_two_pos hfs hpos
  obtain h2 | h2 := isFinite_or_eq_posInf (fle_of_flt htwo)
  · exact zero_fle_fdiv (upTo_clampedCutoff hfs hpos hf).1 h2 htwo
  · obtain h | h := cutoffQuotient_of_overflow hfs hpos hf h2 <;> rw [h] <;> decide

/-- From `fs = 2^-124` on, the exact quotient is at most `(1 + 2^-24)/6`, since doubling `fs` is exact where it does not overflow;
that rounds to no more than `1/6` does. -/
theorem cutoffQuotient_le_sixth (hmin : fle 0x01800000#32 fs = true) : fle (cutoffQuotient f fs) SIXTH = true := by
  have htwo := fmul_two_pos hfs hpos
  obtain h2 | h2 := isFinite_or_eq_posInf (fle_of_flt htwo)
  · have hquot := nearest_fdiv (isFinite_clampedCutoff hfs hpos hf) h2 (isZero_of_pos htwo)
    rw [value_fmul_two hfs (sgn_of_pos hpos) h2] at hquot
    refine nearest_mono ?_ hquot (nearest_ratio (num := 166666677) (den := 10 ^ 9) (by norm_num) (by decide))
    have hv : (0 : ℝ) < ((value fs : ℚ) : ℝ) := by exact_mod_cast value_pos_of_flt hfs hpos
    have hclamp : ((value (fclamp f C_0 (cutoffLimit fs)) : ℚ) : ℝ) ≤ ((value (cutoffLimit fs) : ℚ) : ℝ) := by
      exact_mod_cast (value_of_upTo (isFinite_cutoffLimit hfs hpos) (upTo_clampedCutoff hfs hpos hf)).2
    have hbound := hclamp.trans (cutoffLimit_le hfs hmin)
    push_cast
    rw [div_lt_iff₀ (by linarith)]
    norm_num at hbound ⊢
    linarith
  · obtain h | h := cutoffQuotient_of_overflow hfs hpos hf h2 <;> rw [h] <;> decide

theorem upTo_normCutoff : UpTo C_0_25 (normCutoff f fs) :=
  upTo_fmin (by decide) (zero_fle_cutoffQuotient hfs hpos hf)

theorem upTo_normCutoff_sixth (hmin : fle 0x01800000#32 fs = true) : UpTo SIXTH (normCutoff f fs) := by
  have hquot := zero_fle_cutoffQuotient hfs hpos hf
  exact ⟨(upTo_normCutoff hfs hpos hf).1,
    fle_trans (fmin_le (by decide) (fle_iff.1 hquot).2.1).2 (cutoffQuotient_le_sixth hfs hpos hf hmin)⟩

/-- `m` has no sign for an operand that is neither a NaN nor `-0.0`. -/
theorem sgn_normCutoff (hz : f ≠ NEG_ZERO) : sgn (normCutoff f fs) = false := by
  have hquot : sgn (cutoffQuotient f fs) = false :=
    sgn_fdiv_of_pos (isFinite_clampedCutoff hfs hpos hf) (sgn_fclamp hf hz (sgn_cutoffLimit hfs hpos)) (fmul_two_pos hfs hpos)
  exact sgn_fmin (by decide) hquot

end

/-! ## The coefficient -/

/-- `PI/4`, the argument of the sine at `m = 0.25`. -/
def QUARTER_PI : F32 := 0x3F490FDB#32

/-- The binary32 product of `PI` and `1/6`, the argument of the sine at `m = SIXTH`. -/
def SIXTH_PI : F32 := 0x3F060A92#32

theorem value_PI : value PI = 13176795 / 2 ^ 22 := by
  rw [value_of_units (z := 13176795 * 2 ^ 127) (by decide)]
  push_cast
  norm_num

theorem value_SIXTH : value SIXTH = 11184811 / 2 ^ 26 := by
  rw [value_of_units (z := 11184811 * 2 ^ 123) (by decide)]
  push_cast
  norm_num

theorem upTo_quarterPi {m : F32} (h : UpTo C_0_25 m) : UpTo QUARTER_PI (fmul PI m) :=
  upTo_fmul (a' := PI) ⟨by decide, by decide⟩ h (by decide) (by decide)

theorem upTo_sixthPi {m : F32} (h : UpTo SIXTH m) : UpTo SIXTH_PI (fmul PI m) := by
  obtain ⟨h0, h1⟩ := value_of_upTo (by decide) h
  have hprod := nearest_fmul (a := PI) (by decide) (isFinite_of_upTo (by decide) h)
  rw [value_PI] at hprod
  refine ⟨zero_fle_of_nearest hprod (by positivity), ?_⟩
  refine nearest_mono ?_ hprod (nearest_ratio (num := 52359881) (den := 10 ^ 8) (by norm_num) (by decide))
  rw [value_SIXTH, ← Rat.cast_le (K := ℝ)] at h1
  push_cast at h1 ⊢
  norm_num at h1 ⊢
  linarith

/-- The sine is at most the sine of a point near by and the distance. -/
theorem sin_le_of_near {x y d s : ℝ} (hd : |x - y| ≤ d) (hs : Real.sin y + d ≤ s) : Real.sin x ≤ s := by
  have h := (abs_le.1 (Real.abs_sin_sub_sin_le x y)).2
  linarith

/-- `sin` of `QUARTER_PI` is below the binary32 value above `√2/2`. -/
theorem sin_quarterPi_le : Real.sin ((value QUARTER_PI : ℚ) : ℝ) ≤ ((value 0x3F3504F4#32 : ℚ) : ℝ) := by
  obtain ⟨hlo, hhi⟩ := pi_bounds
  have hsqrt : √2 ≤ 1.41421357 := Real.sqrt_le_iff.2 ⟨by norm_num, by norm_num⟩
  rw [value_of_units (p := QUARTER_PI) (z := 13176795 * 2 ^ 125) (by decide),
    value_of_units (p := 0x3F3504F4#32) (z := 11863284 * 2 ^ 125) (by decide)]
  push_cast
  refine sin_le_of_near (y := Real.pi / 4) (d := 0.000000024) (abs_le.2 ?_) ?_
  · constructor <;> norm_num at hlo hhi ⊢ <;> linarith
  · rw [Real.sin_pi_div_four]
    norm_num at hsqrt ⊢
    linarith

/-- `sin` of `SIXTH_PI` is below the binary32 value above `1/2`. -/
theorem sin_sixthPi_le : Real.sin ((value SIXTH_PI : ℚ) : ℝ) ≤ ((value 0x3F000001#32 : ℚ) : ℝ) := by
  obtain ⟨hlo, hhi⟩ := pi_bounds
  rw [value_of_units (p := SIXTH_PI) (z := 8784530 * 2 ^ 125) (by decide),
    value_of_units (p := 0x3F000001#32) (z := 8388609 * 2 ^ 125) (by decide)]
  push_cast
  refine sin_le_of_near (y := Real.pi / 6) (d := 0.00000002) (abs_le.2 ?_) ?_
  · constructor <;> norm_num at hlo hhi ⊢ <;> linarith
  · rw [Real.sin_pi_div_six]
    norm_num

section
variable {f fs : F32}

/-- What bounds the argument of the sine bounds `freq` by twice a value above the sine of that bound (R184). -/
theorem upTo_svfFreqOf_of_arg {B S c : F32} (harg : UpTo B (fmul PI (normCutoff f fs)))
    (hfin : fle B HALF_PI = true ∧ isFinite S = true ∧ isFinite c = true)
    (hdouble : units C_2 * units S ≤ units c * 2 ^ 149)
    (hsin : Real.sin ((value B : ℚ) : ℝ) ≤ ((value S : ℚ) : ℝ)) : UpTo c (svfFreqOf params f fs) := by
  obtain ⟨hB, hS, hc⟩ := hfin
  have h : UpTo S (params.num.sin (fmul PI (normCutoff f fs))) :=
    ⟨(params.num_lawful.sin_of_nonneg harg.1 (fle_trans harg.2 hB)).1, params.num_lawful.sin_le harg hB hS hsin⟩
  exact upTo_fmul (a' := C_2) ⟨by decide, by decide⟩ h ⟨by decide, hS, hc⟩ hdouble

variable (hfs : isFinite fs = true) (hpos : flt C_0 fs = true) (hf : isNaN f = false)
include hfs hpos hf

/-- `freq` is at most `2·sin(π/4)` up to the last place (R184). -/
theorem upTo_svfFreqOf : UpTo 0x3FB504F4#32 (svfFreqOf params f fs) :=
  upTo_svfFreqOf_of_arg (upTo_quarterPi (upTo_normCutoff hfs hpos hf)) (by decide) (by decide) sin_quarterPi_le

/-- From `fs = 2^-124` on, `freq` is at most `2·sin(π/6) = 1` up to the last place (R195). -/
theorem upTo_svfFreqOf_one (hmin : fle 0x01800000#32 fs = true) : UpTo 0x3F800001#32 (svfFreqOf params f fs) :=
  upTo_svfFreqOf_of_arg (upTo_sixthPi (upTo_normCutoff_sixth hfs hpos hf hmin)) (by decide) (by decide) sin_sixthPi_le

/-- `freq` has no sign for an operand that is neither a NaN nor `-0.0` (R195, log 8). -/
theorem sgn_svfFreqOf (hz : f ≠ NEG_ZERO) : sgn (svfFreqOf params f fs) = false := by
  have hm := upTo_normCutoff hfs hpos hf
  have harg : UpTo HALF_PI (fmul PI (normCutoff f fs)) := (upTo_quarterPi hm).trans (by decide)
  have hargSgn : sgn (fmul PI (normCutoff f fs)) = false := by
    rw [sgn_fmul (by decide) (isFinite_of_upTo (by decide) hm), sgn_normCutoff hfs hpos hf hz]
    rfl
  have hsin : UpTo C_1 _ := params.num_lawful.sin_of_nonneg harg.1 harg.2
  rw [svfFreqOf_eq, sgn_fmul (by decide) (isFinite_of_upTo (by decide) hsin), params.num_lawful.sgn_sin harg hargSgn]
  rfl

end

/-! ## The negative-zero cutoff -/

/-- `-0.0` passes the clamp, and every step of R184 keeps it (R196). -/
theorem svfFreqOf_neg_zero {fs : F32} (hfs : isFinite fs = true) (hpos : flt C_0 fs = true) :
    svfFreqOf params NEG_ZERO fs = NEG_ZERO := by
  have hclamp : fclamp NEG_ZERO C_0 (cutoffLimit fs) = NEG_ZERO :=
    fclamp_of_inside (by decide) (not_flt_of_fle (fle_trans (by decide) (upTo_cutoffLimit hfs hpos).1))
  have htwo := fmul_two_pos hfs hpos
  have hquot : fdiv NEG_ZERO (fmul C_2 fs) = NEG_ZERO := by
    rw [fdiv_eq_zero (flt_iff.1 htwo).2.1 (isZero_of_pos htwo) (by decide) (.inl (by decide)), sgn_of_pos htwo]
    decide
  have harg : fmul PI (fmin C_0_25 NEG_ZERO) = NEG_ZERO := by decide
  rw [svfFreqOf_eq, normCutoff, cutoffQuotient, hclamp, hquot, harg, params.num_lawful.sin_zero NEG_ZERO (by decide)]
  decide

/-- At `freq = -0.0` the bound `2/freq - freq/2` is `-inf`, and so is `damp` (R196). -/
theorem dampOf_neg_zero {res : F32} (hr : UpTo C_1 res) : dampOf params NEG_ZERO res = NEG_INF := by
  have ha := isFinite_of_upTo (by decide) (upTo_dampByResonance hr)
  have hb : fmin C_2 (fsub (fdiv C_2 NEG_ZERO) (fmul NEG_ZERO C_0_5)) = NEG_INF := by decide
  rw [dampOf, hb]
  exact fmin_eq_right (infinities_outside ha).1

/-! ## What the setters store -/

section
variable {u : Svf} {a : F32}

theorem Svf.set_freq_damp (h : u.resonance = some a) (f : F32) :
    (u.set (.svfSetFreq f)).damp = some (dampOf params (svfFreqOf params f u.fs) a) := by
  simp only [Svf.set, svfDamp, h, lift2]

theorem Svf.set_res_damp (h : u.freq = some a) (r : F32) :
    (u.set (.svfSetRes r)).damp = some (dampOf params a (fclamp r C_0 C_1)) := by
  simp only [Svf.set, svfDamp, svfDrive, h, lift2]

theorem Svf.set_res_drive (h : u.preDrive = some a) (r : F32) :
    (u.set (.svfSetRes r)).drive = some (fmul a (fclamp r C_0 C_1)) := by
  simp only [Svf.set, svfDamp, svfDrive, h, lift2]

theorem Svf.set_drive_drive (h : u.resonance = some a) (d : F32) :
    (u.set (.svfSetDrive d)).drive = some (fmul (preDriveOf d) a) := by
  simp only [Svf.set, svfDrive, h, lift2]

end

/-- The clamp of a setter puts every number into its interval (R185, R186). -/
theorem upTo_fclamp {v hi : F32} (hv : isNaN v = false) (hhi : fle C_0 hi = true) : UpTo hi (fclamp v C_0 hi) :=
  ⟨le_fclamp hv (by decide) hi, fclamp_le hv hhi⟩

/-- The scaled pre-drive is a number: a NaN comes only of a NaN, `0.1` being neither a zero nor an infinity (R115). -/
theorem isNaN_fmul_tenth {d : F32} (hd : isNaN d = false) : isNaN (fmul d C_0_1) = false := by
  obtain hf | hi := isFinite_or d hd
  · exact nearest_not_nan (nearest_fmul hf (by decide))
  · rw [fmul_inf hi (by decide) (by decide)]
    split <;> decide

/-- Settles O52. -/
theorem svfNegativeZeroCutoff : Obligations.SvfNegativeZeroCutoff := by
  intro s hl hfs hpos
  have hfreq := svfFreqOf_neg_zero hfs hpos
  refine ⟨_, exec_svfSetter (i := .svfSetFreq NEG_ZERO) rfl rfl hl, congrArg some hfreq, fun r hr h0 h1 => ?_⟩
  rw [respond_svf, Svf.set_freq_damp hr, hfreq, dampOf_neg_zero ⟨h0, h1⟩]

/-- Settles O60: each setter stores a value in range, and what it derives from that and a register in range is in range. -/
theorem svfParameterRanges : Obligations.SvfParameterRanges := by
  intro s hl hfs hpos
  refine ⟨fun f hf hz => ?_, fun r hr _ => ?_, fun d hd _ => ?_⟩
  · have hs := sgn_svfFreqOf hfs hpos hf hz
    have hfreq := upTo_svfFreqOf hfs hpos hf
    refine ⟨_, _, exec_svfSetter (i := .svfSetFreq f) rfl rfl hl, rfl, hs, hfreq.1, hfreq.2,
      fun hmin => (upTo_svfFreqOf_one hfs hpos hf hmin).2, fun r hr h0 h1 => ?_⟩
    exact ⟨_, Svf.set_freq_damp hr f, upTo_dampOf hs (hfreq.trans (by decide)) ⟨h0, h1⟩⟩
  · have hres : UpTo C_1 (fclamp r C_0 C_1) := upTo_fclamp hr (by decide)
    refine ⟨_, _, exec_svfSetter (i := .svfSetRes r) rfl rfl hl, rfl, hres.1, hres.2, fun freq hfreq hs hle => ?_,
      fun p hp h0 h1 => ?_⟩
    · have hnan : isNaN freq = false := (fle_iff.1 hle).1
      have hrange : UpTo C_2 freq := ⟨zero_fle_of_sgn hnan hs, fle_trans hle (by decide)⟩
      exact ⟨_, Svf.set_res_damp hfreq r, upTo_dampOf hs hrange hres⟩
    · exact ⟨_, Svf.set_res_drive hp r, upTo_drive ⟨h0, h1⟩ hres⟩
  · have hpre : UpTo C_0_1 (preDriveOf d) := upTo_fclamp (isNaN_fmul_tenth hd) (by decide)
    refine ⟨_, _, exec_svfSetter (i := .svfSetDrive d) rfl rfl hl, rfl, hpre.1, hpre.2, fun r hr h0 h1 => ?_⟩
    exact ⟨_, Svf.set_drive_drive hr d, upTo_drive hpre ⟨h0, h1⟩⟩

end Sys2Proof.Machine
end

section
/-! The all-pass diffusers (44_allpass.md R212 to R218, R221), command by command. `AP.PROCESS` and `SP.PROCESS` run one
recurrence, so what it leaves in a delay line is said once for both. -/

namespace Sys2Proof.Machine

/-! ## The recurrence of `AP` and `SP` -/

/-- One sample with the cursor in range stores `out` under the old cursor, keeps every other sample, advances the cursor and
answers `z - k·out` (R213, R218). -/
theorem allpassTick_stores {P : Params} {b : Buf} {d : DelayLine} (hd : d.index.toNat < P.len b) (k x : F32) :
    let z := Memory.sample P b d.mem d.index.toNat
    let out := fadd (fmul k z) x
    ∃ d', allpassTick P b d k x = .ok (d', fsub z (fmul k out)) ∧ d'.index.toNat = (d.index.toNat + 1) % P.len b ∧
      ∀ a, Memory.sample P b d'.mem a = if a = d.index.toNat then out else Memory.sample P b d.mem a :=
  ⟨_, allpassTick_eq hd k x, nextIndex_toNat (P.len_pos b) (P.len_lt b) d.index, sample_store P b d.mem d.index.toNat _⟩

/-! ## The commands of `AP` on a live unit -/

/-- `AP.SET_FREQ` writes the coefficient and nothing else (R212). -/
theorem exec_apSetFreq {s : State} (hl : s.ap.live = true) (f : F32) :
    exec (.apSetFreq f) s = .next ({ s with ap := { s.ap with k1 := some (apCoefficient f s.ap.fs) } }.respond 0#32) := by
  simp only [exec, execApSetFreq, apSetFreq, hl, requires_true]

/-- `AP.PROCESS` with its coefficient set keeps the line of the recurrence and answers its sample (R213). -/
theorem exec_apProcess {s : State} {k1 x : F32} {r : DelayLine × F32} (hl : s.ap.live = true) (hk : s.ap.k1 = some k1)
    (ht : allpassTick params .ap s.ap.line k1 x = .ok r) :
    exec (.apProcess x) s = .next ({ s with ap := { s.ap with line := r.1 } }.respond r.2) := by
  simp only [exec, execApProcess, apProcess, hl, hk, ht, requires_true, withSample_ok]

/-- `AP.PROCESS` without its coefficient is refused (R213, R274). -/
theorem exec_apProcess_unset {s : State} (hl : s.ap.live = true) (hk : s.ap.k1 = none) (x : F32) :
    exec (.apProcess x) s = .next (s.refuse .unset) := by
  simp only [exec, execApProcess, apProcess, hl, hk, requires_true]

/-- Settles O33. -/
theorem apSetFreqComputesCoefficient : Obligations.ApSetFreqComputesCoefficient := fun f _ =>
  ⟨decodeOfEncodeIsIdentity (.apSetFreq f) rfl, fun hl => exec_not_live rfl rfl hl, fun hl => exec_apSetFreq hl f⟩

/-- Settles O34. -/
theorem apProcessFollowsRecurrence : Obligations.ApProcessFollowsRecurrence := by
  intro x s
  refine ⟨decodeOfEncodeIsIdentity (.apProcess x) rfl, fun hl => exec_not_live rfl rfl hl,
    fun hl hk => exec_apProcess_unset hl hk x, fun k1 hl hk hd => ?_⟩
  obtain ⟨d', htick, hindex, hsample⟩ := allpassTick_stores hd k1 x
  exact ⟨_, exec_apProcess hl hk htick, hindex, hsample, rfl⟩

/-! ## The commands of `SP` on a live unit -/

/-- `SP.SET_FREQ` writes the clamped loop time and nothing else; `coef` stays (R216). -/
theorem exec_spSetFreq {s : State} (hl : s.sp.live = true) (t : F32) :
    exec (.spSetFreq t) s = .next ({ s with
      sp := { s.sp with loopTime := some (fclamp t C_1EM4 s.sp.maxLoopTime) } }.respond 0#32) := by
  simp only [exec, execSpSetFreq, spSetFreq, hl, requires_true]

/-- `SP.SET_RT` writes the decay target and the coefficient, which is unset while the loop time is (R217). -/
theorem exec_spSetRt {s : State} (hl : s.sp.live = true) (rt : F32) :
    exec (.spSetRt rt) s = .next ({ s with
      sp := { s.sp with
        reverbTime := some rt
        coef := s.sp.loopTime.map fun lt => spCoefficient params lt rt } }.respond 0#32) := by
  simp only [exec, execSpSetRt, spSetRt, hl, requires_true]

/-- `SP.PROCESS` with its coefficient set keeps the line of the recurrence and answers its sample (R218). -/
theorem exec_spProcess {s : State} {coef x : F32} {r : DelayLine × F32} (hl : s.sp.live = true)
    (hc : s.sp.coef = some coef) (ht : allpassTick params .sp s.sp.line coef x = .ok r) :
    exec (.spProcess x) s = .next ({ s with sp := { s.sp with line := r.1 } }.respond r.2) := by
  simp only [exec, execSpProcess, spProcess, hl, hc, ht, requires_true, withSample_ok]

/-- `SP.PROCESS` without its coefficient is refused (R218, R274). -/
theorem exec_spProcess_unset {s : State} (hl : s.sp.live = true) (hc : s.sp.coef = none) (x : F32) :
    exec (.spProcess x) s = .next (s.refuse .unset) := by
  simp only [exec, execSpProcess, spProcess, hl, hc, requires_true]

/-- Settles O35. -/
theorem spSetFreqClampsLoopTime : Obligations.SpSetFreqClampsLoopTime := fun x _ =>
  ⟨decodeOfEncodeIsIdentity (.spSetFreq x) rfl, fun hl => exec_not_live rfl rfl hl, fun hl => exec_spSetFreq hl x⟩

/-- Settles O36: the coefficient follows the loop time, unset or set. -/
theorem spSetRtComputesCoefficient : Obligations.SpSetRtComputesCoefficient := by
  intro rt s
  refine ⟨decodeOfEncodeIsIdentity (.spSetRt rt) rfl, fun hl => exec_not_live rfl rfl hl, fun hl hu => ?_,
    fun lt hl hs => ?_⟩
  · rw [exec_spSetRt hl, hu, respond_zero, Option.map_none]
  · rw [exec_spSetRt hl, hs, respond_zero, Option.map_some, spCoefficient]

/-- Settles O37. -/
theorem spProcessFollowsRecurrence : Obligations.SpProcessFollowsRecurrence := by
  intro x s
  refine ⟨decodeOfEncodeIsIdentity (.spProcess x) rfl, fun hl => exec_not_live rfl rfl hl,
    fun hl hc => exec_spProcess_unset hl hc x, fun coef hl hc hd => ?_⟩
  obtain ⟨d', htick, hindex, hsample⟩ := allpassTick_stores hd coef x
  exact ⟨_, exec_spProcess hl hc htick, hindex, hsample, rfl⟩

/-! ## A reverb time of zero -/

theorem sgn_of_neg {p : F32} (h : flt p C_0 = true) : sgn p = true := by
  have hkey : orderKey p < 0 := (flt_iff.1 h).2.2
  by_contra hs
  rw [orderKey, if_neg hs] at hkey
  omega

theorem isZero_of_neg {p : F32} (h : flt p C_0 = true) : isZero p = false := by
  have hkey : orderKey p < 0 := (flt_iff.1 h).2.2
  rw [← Bool.not_eq_true]
  exact fun hz => hkey.ne (orderKey_of_isZero hz)

/-- A negative number, finite or `-inf`, divided by a zero is the infinity of the sign that is not the zero's (R115). -/
theorem fdiv_neg_zero {p z : F32} (hp : flt p C_0 = true) (hz : isZero z = true) :
    fdiv p z = if sgn z = true then POS_INF else NEG_INF := by
  rw [fdiv_zero hz (flt_iff.1 hp).1 (isZero_of_neg hp), sgn_of_neg hp]
  simp only [eq_comm]

/-- The dividend of R217's exponent is negative: the product lies at or below `-0.0001`, so it does not round to a zero. -/
theorem decayExponent_neg {lt : F32} (hf : isFinite lt = true) (h : fle C_1EM4 lt = true) :
    flt (fmul C_NEG_6_9078 lt) C_0 = true := by
  have hlt : value C_1EM4 ≤ value lt := (fle_iff_value (by decide) hf).1 h
  have hpos : value C_0 ≤ value C_1EM4 := (fle_iff_value (by decide) (by decide)).1 (by decide)
  have hfactor : value C_NEG_6_9078 ≤ value C_NEG1 := (fle_iff_value (by decide) (by decide)).1 (by decide)
  rw [value_C_0] at hpos
  rw [value_C_NEG1] at hfactor
  have hprod : value C_NEG_6_9078 * value lt ≤ value (flipSign C_1EM4) := by
    rw [value_flipSign]
    nlinarith
  have hle : fle (fmul C_NEG_6_9078 lt) (flipSign C_1EM4) = true :=
    nearest_le (nearest_fmul (by decide) hf) (by decide) (by exact_mod_cast hprod)
  exact flt_of_fle_of_flt hle (by decide)

/-- With a reverb time of zero the exponent is an infinity of the sign that is not the zero's, so `coef` is one of the limits of
`exp` (R126, R221). -/
theorem spCoefficient_zero {lt z : F32} (hf : isFinite lt = true) (h : fle C_1EM4 lt = true) (hz : isZero z = true) :
    spCoefficient params lt z = if sgn z = true then POS_INF else C_0 := by
  rw [spCoefficient, fdiv_neg_zero (decayExponent_neg hf h) hz, apply_ite params.num.exp, params.num_lawful.exp_posInf,
    params.num_lawful.exp_negInf]

/-- Settles O55. -/
theorem spZeroReverbTime : Obligations.SpZeroReverbTime := by
  intro s lt hl hs hf h
  have hcoef : ∀ z, isZero z = true →
      ∃ t, exec (.spSetRt z) s = .next t ∧ t.sp.coef = some (if sgn z = true then POS_INF else C_0) := by
    intro z hz
    refine ⟨_, exec_spSetRt hl z, ?_⟩
    rw [respond_sp, hs, Option.map_some, spCoefficient_zero hf h hz]
  exact ⟨hcoef C_0 (by decide), hcoef NEG_ZERO (by decide)⟩

end Sys2Proof.Machine
end

section
/-! The oscillator (45_oscillator.md R232 to R240), command by command. -/

namespace Sys2Proof.Machine

/-! ## The words and the wave codes -/

/-- A word of the format `W` row with an operand above 7 is refused in the fourth step of R85. -/
theorem decode_formatW_error {i : Instr} (hi : i.row.mask = maskW) {d : BitVec 32} (hd : 7 < d.toNat) :
    decode (i.opc ++ d) = .error .waveAboveSeven := by
  have hforbidden : d &&& cmdOperand maskW ≠ 0#32 := fun h => (not_le.2 hd) ((and_maskW d).1 h)
  rw [decode_append_opc, hi, readOperand, if_neg hforbidden]
  rfl

/-- The operand that is the code of a wave type names it (R236). -/
theorem waveOfOperand_of_code {w : U32} {wave : Wave} (h : w.toNat = (waveCode wave).toNat) :
    waveOfOperand w = some wave := by
  unfold waveOfOperand
  rw [h]
  cases wave <;> rfl

/-! ## The commands on a live unit -/

section
variable {s : State} (hl : s.osc.live = true)
include hl

/-- `OSC.SET_FREQ` writes the increment and nothing else (R232). -/
theorem exec_oscSetFreq (f : F32) :
    exec (.oscSetFreq f) s = .next ({ s with
      osc := { s.osc with phaseIncrement := some (incrementOf f s.osc.fs) } }.respond 0#32) := by
  simp only [exec, execOscSetFreq, oscSetFreq, hl, requires_true]

/-- `OSC.SET_AMP` writes the amplitude and nothing else (R233). -/
theorem exec_oscSetAmp (a : F32) :
    exec (.oscSetAmp a) s = .next ({ s with osc := { s.osc with amplitude := some a } }.respond 0#32) := by
  simp only [exec, execOscSetAmp, oscSetAmp, hl, requires_true]

/-- `OSC.SET_WAVE` writes the wave type of its operand and nothing else (R235). -/
theorem exec_oscSetWave {w : U32} {wave : Wave} (hw : waveOfOperand w = some wave) :
    exec (.oscSetWave w) s = .next ({ s with osc := { s.osc with wave := some wave } }.respond 0#32) := by
  simp only [exec, execOscSetWave, oscSetWave, hw, hl, requires_true]

/-- `OSC.PROCESS` with its three parameters set answers the sample of the old phase and advances the phase (R237). -/
theorem exec_oscProcess {inc amp : F32} {w : Wave} (hi : s.osc.phaseIncrement = some inc)
    (ha : s.osc.amplitude = some amp) (hw : s.osc.wave = some w) :
    exec .oscProcess s = .next ({ s with
      osc := { s.osc with
        last := (shape params.shape w s.osc.phase inc s.osc.last).2
        phase := advancePhase s.osc.phase inc } }.respond
          (fmul (shape params.shape w s.osc.phase inc s.osc.last).1 amp)) := by
  simp only [exec, execOscProcess, oscProcess, hl, hi, ha, hw, requires_true]

/-- `OSC.PROCESS` without one of its parameters is refused (R237, R274). -/
theorem exec_oscProcess_unset
    (h : s.osc.phaseIncrement = none ∨ s.osc.amplitude = none ∨ s.osc.wave = none) :
    exec .oscProcess s = .next (s.refuse .unset) := by
  simp only [exec, execOscProcess, oscProcess, hl, requires_true]
  split
  · next hi ha hw => simp [hi, ha, hw] at h
  · rfl
  · rfl
  · rfl

end

/-! ## The statements -/

/-- Settles O38: the words are the encodings of the four setters, and each setter is one update of the unit. -/
theorem oscSettersStoreParameters : Obligations.OscSettersStoreParameters := by
  intro v w s
  have hwf : w.toNat ≤ 7 → (Instr.oscSetWave w).wf = true := decide_eq_true
  refine ⟨⟨?_, ?_, ?_, fun hw => ?_, fun hw => ?_⟩, fun hl => ⟨?_, ?_, ?_, fun hw => ?_⟩,
    fun hl => ⟨?_, ?_, ?_, fun wave hw => ?_⟩⟩
  · exact decodeOfEncodeIsIdentity (.oscSetFreq v) rfl
  · exact decodeOfEncodeIsIdentity (.oscSetAmp v) rfl
  · exact decodeOfEncodeIsIdentity (.oscSetPhase v) rfl
  · exact decodeOfEncodeIsIdentity (.oscSetWave w) (hwf hw)
  · exact decode_formatW_error (i := .oscSetWave w) rfl hw
  · exact exec_not_live rfl rfl hl
  · exact exec_not_live rfl rfl hl
  · exact exec_not_live rfl rfl hl
  · exact exec_not_live (hwf hw) rfl hl
  · exact exec_oscSetFreq hl v
  · exact exec_oscSetAmp hl v
  · exact exec_oscSetPhase hl v
  · exact exec_oscSetWave hl (waveOfOperand_of_code hw)

/-- Settles O39: each wave type is one branch of `shape`. -/
theorem shapeOfEachWave : Obligations.ShapeOfEachWave :=
  fun _ _ _ _ => ⟨rfl, rfl, rfl, rfl, rfl, rfl, rfl, rfl⟩

/-- Settles O40. -/
theorem oscProcessSamplesThenAdvances : Obligations.OscProcessSamplesThenAdvances := fun _ =>
  ⟨⟨decodeOfEncodeIsIdentity .oscProcess rfl, fun _ hd => decode_formatZ_error (i := .oscProcess) rfl hd⟩,
    fun hl => exec_not_live rfl rfl hl, fun hl hu => exec_oscProcess_unset hl hu,
    fun _ _ _ hl hi ha hw => exec_oscProcess hl hi ha hw⟩

end Sys2Proof.Machine
end

section
/-! The default instance of `OSC_SHAPE` (45_oscillator.md R241 to R250): the ranges of the plain shapes (R255) and the correction
of a zero increment (R243). Each shape is a chain of operations, and rounding keeps the bounds after each one, because they are
binary32 values; so no slack in the last place is needed. -/

namespace Sys2Proof.Machine

/-! ## Numbers between two bounds -/

/-- `p` lies in `[lo, hi]`. -/
def Within (lo hi p : F32) : Prop := fle lo p = true ∧ fle p hi = true

theorem upTo_iff_within {hi p : F32} : UpTo hi p ↔ Within C_0 hi p := Iff.rfl

section
variable {lo hi p : F32}

theorem isFinite_of_within (hlo : isFinite lo = true) (hhi : isFinite hi = true) (h : Within lo hi p) :
    isFinite p = true :=
  isFinite_of_fle hlo hhi h.1 h.2

theorem value_of_within (hlo : isFinite lo = true) (hhi : isFinite hi = true) (h : Within lo hi p) :
    value lo ≤ value p ∧ value p ≤ value hi :=
  have hp := isFinite_of_within hlo hhi h
  ⟨(fle_iff_value hlo hp).1 h.1, (fle_iff_value hp hhi).1 h.2⟩

/-- The rounding of a real between two binary32 values lies between them. -/
theorem within_of_nearest {r : ℚ} (h : Nearest (r : ℝ) p) (hlo : isFinite lo = true) (hhi : isFinite hi = true)
    (hr : value lo ≤ r ∧ r ≤ value hi) : Within lo hi p :=
  ⟨le_nearest h hlo (by exact_mod_cast hr.1), nearest_le h hhi (by exact_mod_cast hr.2)⟩

/-- Changing the sign mirrors the bounds. -/
theorem within_fneg (h : Within lo hi p) : Within (flipSign hi) (flipSign lo) (fneg p) := by
  rw [fneg_of_number (fle_iff.1 h.1).2.1]
  exact ⟨flipSign_fle.trans h.2, flipSign_fle.trans h.1⟩

end

/-- The values of the numbers in `[-1, 1]`. -/
theorem value_of_within_unit {p : F32} (h : Within C_NEG1 C_1 p) : -1 ≤ value p ∧ value p ≤ 1 := by
  have hv := value_of_within (by decide) (by decide) h
  rwa [value_C_NEG1, value_C_1] at hv

/-- The rounding of a real in `[-1, 1]` lies there. -/
theorem within_unit_of_nearest {r : ℚ} {p : F32} (h : Nearest (r : ℝ) p) (hlo : -1 ≤ r) (hhi : r ≤ 1) :
    Within C_NEG1 C_1 p :=
  within_of_nearest h (by decide) (by decide) (by rw [value_C_NEG1, value_C_1]; exact ⟨hlo, hhi⟩)

theorem value_C_0_5 : value C_0_5 = 1 / 2 := by
  rw [value_of_units (z := 2 ^ 148) (by decide)]
  push_cast
  norm_num

theorem value_fabs {p : F32} (h : isNaN p = false) : value (fabs p) = |value p| := by
  rw [fabs_of_number h, value_pack (absBits_lt p), if_neg (by decide), value, units_eq, abs_div,
    abs_of_pos (by positivity : (0 : ℚ) < 2 ^ 149)]
  split <;> simp

theorem isFinite_fabs {p : F32} (h : isFinite p = true) : isFinite (fabs p) = true := by
  rw [fabs_of_number (isNaN_of_isFinite h)]
  exact isFinite_pack (of_decide_eq_true h)

/-! ## The plain shapes -/

/-- The values of the numbers in `[0, 2]`. -/
theorem value_of_upTo_two {d : F32} (h : UpTo C_2 d) : 0 ≤ value d ∧ value d ≤ 2 := by
  have hv := value_of_upTo (by decide) h
  rwa [value_C_2] at hv

/-- `-1 + d` of a `d` in `[0, 2]`, the first step of the triangle (R247). -/
theorem within_fadd_C_NEG1 {d : F32} (h : UpTo C_2 d) : Within C_NEG1 C_1 (fadd C_NEG1 d) := by
  obtain ⟨h0, h2⟩ := value_of_upTo_two h
  have hsum := nearest_fadd (a := C_NEG1) (by decide) (isFinite_of_upTo (by decide) h)
  rw [value_C_NEG1] at hsum
  exact within_unit_of_nearest hsum (by linarith) (by linarith)

/-- `d - 1` of a `d` in `[0, 2]`, the ramp (R249). -/
theorem within_fsub_C_1 {d : F32} (h : UpTo C_2 d) : Within C_NEG1 C_1 (fsub d C_1) := by
  obtain ⟨h0, h2⟩ := value_of_upTo_two h
  have hdiff := nearest_fsub (isFinite_of_upTo (by decide) h) (b := C_1) (by decide)
  rw [value_C_1] at hdiff
  exact within_unit_of_nearest hdiff (by linarith) (by linarith)

/-- `|u| - 0.5` of a `u` in `[-1, 1]`, the second step of the triangle (R247). -/
theorem within_fabs_sub_half {u : F32} (h : Within C_NEG1 C_1 u) :
    Within (flipSign C_0_5) C_0_5 (fsub (fabs u) C_0_5) := by
  have hu := isFinite_of_within (by decide) (by decide) h
  have habs : |value u| ≤ 1 := abs_le.2 (value_of_within_unit h)
  refine within_of_nearest (nearest_fsub (isFinite_fabs hu) (by decide)) (by decide) (by decide) ?_
  rw [value_flipSign, value_fabs (isNaN_of_isFinite hu), value_C_0_5]
  constructor <;> linarith [abs_nonneg (value u)]

/-- `2·v` of a `v` in `[-0.5, 0.5]`, the last step of the triangle (R247). -/
theorem within_fmul_two {v : F32} (h : Within (flipSign C_0_5) C_0_5 v) : Within C_NEG1 C_1 (fmul C_2 v) := by
  obtain ⟨hlo, hhi⟩ := value_of_within (by decide) (by decide) h
  rw [value_flipSign, value_C_0_5] at hlo
  rw [value_C_0_5] at hhi
  have hprod := nearest_fmul (a := C_2) (by decide) (isFinite_of_within (by decide) (by decide) h)
  rw [value_C_2] at hprod
  exact within_unit_of_nearest hprod (by linarith) (by linarith)

section
variable {phase : F32} (h : UpTo TWO_PI phase)
include h

/-- A phase of at most one turn is at most one cycle (R241). -/
theorem upTo_cycles : UpTo C_1 (cycles phase) := by
  obtain ⟨h0, h1⟩ := value_of_upTo (by decide) h
  have hquot := nearest_fdiv (isFinite_of_upTo (by decide) h) (b := TWO_PI) (by decide) (by decide)
  refine upTo_iff_within.2 (within_of_nearest hquot (by decide) (by decide) ?_)
  rw [value_C_0, value_C_1]
  exact ⟨div_nonneg h0 (h0.trans h1), div_le_one_of_le₀ h1 (h0.trans h1)⟩

theorem upTo_doubleCycles : UpTo C_2 (fmul C_2 (cycles phase)) :=
  upTo_fmul (a' := C_2) ⟨by decide, by decide⟩ (upTo_cycles h) (by decide) (by decide)

theorem within_defaultRamp : Within C_NEG1 C_1 (defaultRamp phase) := within_fsub_C_1 (upTo_doubleCycles h)

/-- The saw is the ramp with its sign changed (R248). -/
theorem within_defaultSaw : Within C_NEG1 C_1 (defaultSaw phase) := within_fneg (within_defaultRamp h)

theorem within_defaultTri : Within C_NEG1 C_1 (defaultTri phase) :=
  within_fmul_two (within_fabs_sub_half (within_fadd_C_NEG1 (upTo_doubleCycles h)))

end

/-- The naive square answers one of the two ends, at every phase (R244). -/
theorem within_naiveSquare (phase : F32) : Within C_NEG1 C_1 (naiveSquare phase) := by
  unfold naiveSquare
  split
  · exact ⟨by decide, by decide⟩
  · exact ⟨by decide, by decide⟩

/-! ## The statements -/

/-- Settles O58. -/
theorem defaultPlainShapesLieInUnitRange : Obligations.DefaultPlainShapesLieInUnitRange := by
  intro phase h0 h1
  have h : UpTo TWO_PI phase := ⟨h0, h1⟩
  simp only [List.forall_mem_cons, List.not_mem_nil, false_imp_iff, forall_true_iff, and_true]
  exact ⟨params.num_lawful.sin_range (isFinite_of_upTo (by decide) h), within_defaultTri h, within_defaultSaw h,
    within_defaultRamp h, within_naiveSquare phase⟩

/-- Settles O59: with a zero increment both tests fail, `t < 0` and `1 < t`. -/
theorem polyBlepIsZeroAtZeroIncrement : Obligations.PolyBlepIsZeroAtZeroIncrement := by
  intro t h0 h1
  have hwidth : fsub C_1 C_0 = C_1 := by decide
  simp only [polyBlep, hwidth, not_flt_of_fle h0, not_flt_of_fle h1, Bool.false_eq_true, if_false]

end Sys2Proof.Machine
end

section
/-! Statuses and refusals (60_exceptions.md R270 to R276). A refusal presents its word and changes nothing else; a command passes
two checks, of the live flag and of the registers a PROCESS requires, and one that passes both completes with `OK`. -/

namespace Sys2Proof.Machine

/-! ## Words that are no command -/

/-- A transferred word that decodes to no command is refused in its step, which runs no command (R272). -/
theorem step_of_illegal {s : State} {w : CmdWord} {rest : List HostInput} {e : DecodeError}
    (hin : s.port.inputs = .command w :: rest) (hready : s.cmdReady = true) (hw : decode w = .error e) :
    step s = .next ((s.withInputs rest).refuse .illegal) := by
  have hfetch : fetch s = .settled ((s.withInputs rest).refuse .illegal) := by
    simp only [fetch, hin, hready, if_true, transferCommand, hw]
  rw [step, hfetch]

/-- Settles O8. -/
theorem stepRefusesAnIllegalWord : Obligations.StepRefusesAnIllegalWord :=
  fun _ _ _ _ hin hrsp hw => step_of_illegal hin (cmdReady_eq_true hrsp) hw

/-! ## What a refusal changes -/

/-- A completed command's status is `OK` (R270). -/
theorem status_of_respond {s : State} {v : BitVec 32} {w : RspWord} (h : (s.respond v).port.rsp = some w) :
    w.extractLsb' 32 8 = 0x00#8 := by
  obtain rfl : rspWord .ok v = w := Option.some.inj h
  exact rspWord_status .ok v

/-- Of the states a command can leave, those with another status than `OK` differ from the old one in the response only: where a
unit moves, the command has completed. -/
theorem Leaves.eq_of_refused {i : Instr} {s t : State} {w : RspWord} (h : Leaves s i t) (hrsp : t.port.rsp = some w)
    (hst : w.extractLsb' 32 8 ≠ 0x00#8) : t = s.answered w ∧ w.extractLsb' 0 32 = 0#32 := by
  cases h with
  | @answer _ w' hw' =>
    obtain rfl : w' = w := Option.some.inj hrsp
    obtain ⟨_, hdata⟩ := hw'
    exact ⟨rfl, hdata hst⟩
  | dl | lp | svf | ap | sp | osc => exact absurd (status_of_respond hrsp) hst

/-- Settles O16. -/
theorem refusedCommandChangesNothing : Obligations.RefusedCommandChangesNothing :=
  fun _ _ _ _ h hrsp hst => (exec_leaves h).eq_of_refused hrsp hst

/-! ## A PROCESS with a required register unset -/

theorem processable_lp_eq_false {s : State} : s.processable .lp = false ↔ s.lp.a0 = none ∨ s.lp.b1 = none := by
  simp only [State.processable, Lp.v, Bool.and_eq_false_iff, Option.isSome_eq_false_iff, Option.isNone_iff_eq_none]

theorem processable_svf_eq_false {s : State} :
    s.processable .svf = false ↔ s.svf.freq = none ∨ s.svf.damp = none ∨ s.svf.drive = none := by
  simp only [State.processable, Bool.and_eq_false_iff, Option.isSome_eq_false_iff, Option.isNone_iff_eq_none, or_assoc]

theorem processable_ap_eq_false {s : State} : s.processable .ap = false ↔ s.ap.k1 = none := by
  simp [State.processable, Ap.v]

theorem processable_sp_eq_false {s : State} : s.processable .sp = false ↔ s.sp.coef = none := by
  simp [State.processable, Sp.vCoef]

theorem processable_osc_eq_false {s : State} : s.processable .osc = false ↔
    s.osc.phaseIncrement = none ∨ s.osc.amplitude = none ∨ s.osc.wave = none := by
  simp only [State.processable, Osc.vInc, Osc.vAmp, Osc.vWave, Bool.and_eq_false_iff, Option.isSome_eq_false_iff,
    Option.isNone_iff_eq_none, or_assoc]

/-- A PROCESS of a live unit is refused while a register it requires is unset (R274). -/
theorem exec_unset {i : Instr} {s : State} (hp : isProcess i = true) (hl : s.live i.unit = true)
    (hu : s.processable i.unit = false) : exec i s = .next (s.refuse .unset) := by
  cases i with
  | lpProcess x => exact exec_lpProcess_unset hl (processable_lp_eq_false.1 hu) x
  | svfProcess x => exact exec_svfProcess_unset hl (processable_svf_eq_false.1 hu) x
  | apProcess x => exact exec_apProcess_unset hl (processable_ap_eq_false.1 hu) x
  | spProcess x => exact exec_spProcess_unset hl (processable_sp_eq_false.1 hu) x
  | oscProcess => exact exec_oscProcess_unset hl (processable_osc_eq_false.1 hu)
  | _ => cases hp

/-! ## Commands that complete -/

/-- Where the result is a next state, its response has the status `OK`. -/
def Completes (r : Result) : Prop :=
  ∀ t, r = .next t → ∃ d : BitVec 32, t.port.rsp = some (0x00#8 ++ d)

theorem Completes.respond {s : State} {d : BitVec 32} : Completes (.next (s.respond d)) := by
  rintro _ ⟨⟩
  exact ⟨d, rfl⟩

/-- A check that is passed leaves the status to what follows it (R13). -/
theorem Completes.requires {c : Bool} {st : Status} {s : State} {k : Result} (hc : c = true) (hk : Completes k) :
    Completes (requires c st s k) := by
  rwa [hc, requires_true]

/-- A sample that does not exist is a fault, which presents no response. -/
theorem Completes.withSample {α : Type} {r : Except Fault α} {k : α → Result} (hk : ∀ a, Completes (k a)) :
    Completes (withSample r k) := by
  intro t h
  obtain ⟨a, _, ha⟩ := withSample_next h
  exact hk a t ha

section
variable {s : State}

theorem lpProcess_completes (hl : s.lp.live = true) (hp : s.processable .lp = true) (x : F32) :
    Completes (lpProcess x s) :=
  .requires hl <| by
    split
    · exact .respond
    · next ha => simp [processable_lp_eq_false.2 (.inl ha)] at hp
    · next hb => simp [processable_lp_eq_false.2 (.inr hb)] at hp

theorem svfProcess_completes (hl : s.svf.live = true) (hp : s.processable .svf = true) (x : F32) :
    Completes (svfProcess x s) :=
  .requires hl <| by
    split
    · exact .respond
    · next hf => simp [processable_svf_eq_false.2 (.inl hf)] at hp
    · next hd => simp [processable_svf_eq_false.2 (.inr (.inl hd))] at hp
    · next hv => simp [processable_svf_eq_false.2 (.inr (.inr hv))] at hp

theorem apProcess_completes (hl : s.ap.live = true) (hp : s.processable .ap = true) (x : F32) :
    Completes (apProcess params x s) :=
  .requires hl <| by
    split
    · next hk => simp [processable_ap_eq_false.2 hk] at hp
    · exact .withSample fun _ => .respond

theorem spProcess_completes (hl : s.sp.live = true) (hp : s.processable .sp = true) (x : F32) :
    Completes (spProcess params x s) :=
  .requires hl <| by
    split
    · next hc => simp [processable_sp_eq_false.2 hc] at hp
    · exact .withSample fun _ => .respond

theorem oscProcess_completes (hl : s.osc.live = true) (hp : s.processable .osc = true) :
    Completes (oscProcess params s) :=
  .requires hl <| by
    split
    · exact .respond
    · next hi => simp [processable_osc_eq_false.2 (.inl hi)] at hp
    · next ha => simp [processable_osc_eq_false.2 (.inr (.inl ha))] at hp
    · next hw => simp [processable_osc_eq_false.2 (.inr (.inr hw))] at hp

/-- A wave code names a wave type, so the one check of `OSC.SET_WAVE` that is left is that of the live flag (R235). -/
theorem oscSetWave_completes (hl : s.osc.live = true) {w : U32} (hw : waveOperandOk w = true) :
    Completes (oscSetWave w s) := by
  obtain ⟨wave, hwave⟩ := waveOfOperand_isSome hw
  simp only [oscSetWave, hwave]
  exact .requires hl (.respond)

end

/-- A well-formed command that passes the check of its unit's live flag and, if it is a PROCESS, that of the registers it
requires, completes with `OK` (R276). -/
theorem exec_completes {i : Instr} {s : State} (hw : i.wf = true) (hlive : i.isNew = false → s.live i.unit = true)
    (hset : isProcess i = true → s.processable i.unit = true) : Completes (exec i s) := by
  cases i with
  | dlNew | lpNew | svfNew | apNew | spNew | oscNew => exact .respond
  | dlWrite | dlRead | dlGet => exact .requires (hlive rfl) (.withSample fun _ => .respond)
  | lpProcess x => exact lpProcess_completes (hlive rfl) (hset rfl) x
  | svfProcess x => exact svfProcess_completes (hlive rfl) (hset rfl) x
  | apProcess x => exact apProcess_completes (hlive rfl) (hset rfl) x
  | spProcess x => exact spProcess_completes (hlive rfl) (hset rfl) x
  | oscProcess => exact oscProcess_completes (hlive rfl) (hset rfl)
  | oscSetWave w => exact oscSetWave_completes (hlive rfl) hw
  | _ => exact .requires (hlive rfl) (.respond)

/-! ## The order of the causes -/

/-- NEW is no PROCESS (R274). -/
theorem isNew_of_isProcess {i : Instr} (h : isProcess i = true) : i.isNew = false := by
  cases i with
  | lpProcess | svfProcess | apProcess | spProcess | oscProcess => rfl
  | _ => cases h

theorem rsp_of_eq_answered {r : Result} {s t : State} {w : RspWord} (hr : r = .next (s.answered w)) (h : r = .next t) :
    t.port.rsp = some w := by
  obtain rfl := Host.Outcome.next.inj (hr.symm.trans h)
  exact answered_rsp s w

/-- Settles O15: one lemma for each status, in the order of R276. -/
theorem statusByPriority : Obligations.StatusByPriority := by
  refine ⟨fun s t w rest e hin hrsp hw h => ?_, fun i s t hw h => ⟨fun ⟨hn, hl⟩ => ?_, fun hlive =>
    ⟨fun ⟨hp, hu⟩ => ?_, fun hset => ?_⟩⟩⟩
  · exact rsp_of_eq_answered (step_of_illegal hin (cmdReady_eq_true hrsp) hw) h
  · exact rsp_of_eq_answered (exec_not_live hw hn hl) h
  · have hl : s.live i.unit = true := hlive.resolve_left (by simp [isNew_of_isProcess hp])
    exact rsp_of_eq_answered (exec_unset hp hl hu) h
  · exact exec_completes hw (fun hn => hlive.resolve_left (by simp [hn])) (fun hp => hset.resolve_left (by simp [hp])) t h

end Sys2Proof.Machine
end

section
/-! Reset (70_reset_and_hazards.md R290, R291): the event `rst`, found where the host gives it next or behind command words that
wait, and the launch state, which is its own reset. -/

namespace Sys2Proof.Machine

/-- `rst` is found behind any words that wait (R80, R290). -/
theorem otherEvent_words_reset (s : State) (ws : List CmdWord) (rest : List HostInput) :
    otherEvent s [] (ws.map .command ++ .reset :: rest) = s.afterReset.withInputs (ws.map .command ++ rest) :=
  otherEvent_words s [] ws _

/-- The step on `rst`: with no word before it whether or not a response is pending, and behind words that a pending response
makes wait (R290). -/
theorem step_of_reset {s : State} {ws : List CmdWord} {rest : List HostInput}
    (hin : s.port.inputs = ws.map .command ++ .reset :: rest) (h : ws = [] ∨ ∃ r, s.port.rsp = some r) :
    step s = .next (s.afterReset.withInputs (ws.map .command ++ rest)) := by
  obtain rfl | ⟨r, hrsp⟩ := h
  · have hin' : s.port.inputs = .reset :: rest := hin
    have hfetch : fetch s = .settled (otherEvent s [] (.reset :: rest)) := by simp only [fetch, hin']
    rw [step, hfetch]
    exact congrArg Host.Outcome.next (otherEvent_words_reset s [] rest)
  · rw [step_of_not_ready (cmdReady_eq_false hrsp), hin, otherEvent_words_reset]

/-- Settles O10. -/
theorem resetEventClearsEveryFlag : Obligations.ResetEventClearsEveryFlag := fun s _ _ hin h =>
  ⟨_, step_of_reset hin h, rfl, afterReset_live s,
    rfl, rfl, rfl, rfl, rfl, rfl, rfl, rfl, rfl, rfl, rfl, rfl, rfl, rfl, rfl, rfl, rfl⟩

/-- Settles O11: the launch state is its own reset, over three memories in which nothing is listed. -/
theorem launchStateIsResetState : Obligations.LaunchStateIsResetState :=
  ⟨afterReset_live State.reset, rfl, rfl, rfl, rfl, rfl, rfl, rfl, rfl, rfl, rfl, rfl, rfl, rfl, rfl,
    sample_nil params .dl, sample_nil params .ap, sample_nil params .sp⟩

end Sys2Proof.Machine
end

section
/-! Silencing the delay line (70_reset_and_hazards.md R293). A sequence of `DL.WRITE` commands is a sequence of `dl_write`, and
`N_DL` of those replace the whole queue of samples, whatever it held. -/

namespace Sys2Proof.Machine

/-- `DL.WRITE` on a live unit keeps the line that `dl_write` answers (R153, R156). -/
theorem exec_dlWrite_of_lineWrite {s : State} {x : F32} {d : DelayLine} (hl : s.dl.live = true)
    (hw : lineWrite params .dl s.dl.line x = .ok d) :
    exec (.dlWrite x) s = .next (({ s with dl := { live := true, line := d } } : State).respond 0#32) := by
  obtain ⟨hd, rfl⟩ := lineWrite_ok_iff.1 hw
  exact exec_dlWrite hl hd x

/-- Many writes answer where the first does and the others do on the line it leaves. -/
theorem lineWrites_cons_ok {P : Params} {b : Buf} {d d' : DelayLine} {x : F32} {w : List F32}
    (h : lineWrites P b d (x :: w) = .ok d') : ∃ d₁, lineWrite P b d x = .ok d₁ ∧ lineWrites P b d₁ w = .ok d' := by
  rw [lineWrites] at h
  split at h
  · cases h
  · next d₁ hd₁ => exact ⟨d₁, hd₁, h⟩

/-- `DL.WRITE` commands on a live unit complete where the writes to its line do, and leave the line those leave. -/
theorem execAll_dlWrites {w : List F32} {s : State} {d : DelayLine} (hl : s.dl.live = true)
    (hw : lineWrites params .dl s.dl.line w = .ok d) :
    ∃ t, execAll (w.map .dlWrite) s = .next t ∧ t.dl.line = d := by
  induction w generalizing s with
  | nil => exact ⟨s, rfl, Except.ok.inj hw⟩
  | cons x w ih =>
    obtain ⟨d₁, hx, hrest⟩ := lineWrites_cons_ok hw
    rw [List.map_cons, execAll, exec_dlWrite_of_lineWrite hl hx]
    exact ih rfl hrest

/-- `N` writes of one sample leave the cursor where it was and that sample in every cell (R153). -/
theorem lineWrites_replicate_len {P : Params} {b : Buf} {d : DelayLine} (hd : d.index.toNat < P.len b) (x : F32) :
    ∃ d', lineWrites P b d (List.replicate (P.len b) x) = .ok d' ∧ d'.index = d.index ∧
      ∀ a, a < P.len b → Memory.sample P b d'.mem a = x := by
  obtain ⟨d', hwrites, hindex, hqueue⟩ := lineWrites_ok hd (List.replicate (P.len b) x)
  rw [List.length_replicate] at hindex hqueue
  have hback : d'.index.toNat = d.index.toNat := by rw [hindex, Nat.add_mod_right, Nat.mod_eq_of_lt hd]
  have hall : lineQueue P b d' = List.replicate (P.len b) x := by
    rw [hqueue, List.drop_left' (length_lineQueue P b d)]
  refine ⟨d', hwrites, BitVec.eq_of_toNat_eq hback, fun a ha => ?_⟩
  -- the cursor comes to cell `a` after `N + a - index` steps, modulo `N`
  have hplace : (P.len b - d.index.toNat + a) % P.len b < P.len b := Nat.mod_lt _ (P.len_pos b)
  have hcell : (d.index.toNat + (P.len b - d.index.toNat + a) % P.len b) % P.len b = a := by
    rw [Nat.add_mod_mod, ← Nat.add_assoc, Nat.add_sub_cancel' hd.le, Nat.add_mod_left, Nat.mod_eq_of_lt ha]
  have hread := getElem?_lineQueue P b d' hplace
  rw [hall, List.getElem?_replicate_of_lt hplace, hback, hcell] at hread
  exact (Option.some.inj hread).symm

/-- Behind `DL.NEW` the commands write to the restarted line, whether or not the unit was live (R155). -/
theorem execAll_dlNew_dlWrites {w : List F32} {s : State} {d : DelayLine}
    (hw : lineWrites params .dl (lineRestart s.dl.line) w = .ok d) :
    ∃ t, execAll (.dlNew :: w.map .dlWrite) s = .next t ∧ t.dl.line = d :=
  execAll_dlWrites (s := ({ s with dl := { live := true, line := lineRestart s.dl.line } } : State).respond 0#32) rfl hw

/-- Settles O24: the cursor is 0 after `DL.NEW`, and `N_DL` writes bring it back there. -/
theorem zeroWritesSilenceTheDelayLine : Obligations.ZeroWritesSilenceTheDelayLine := by
  intro s
  obtain ⟨d, hwrites, hindex, hcells⟩ :=
    lineWrites_replicate_len (d := lineRestart s.dl.line) (params.len_pos .dl) 0x00000000#32
  obtain ⟨t, hrun, rfl⟩ := execAll_dlNew_dlWrites hwrites
  rw [List.map_replicate] at hrun
  exact ⟨t, hrun, hindex, fun a ha => memRead_ok_iff.2 ⟨ha, (hcells a ha).symm⟩⟩

end Sys2Proof.Machine
end

section
/-! Hazards of the recursive state (70_reset_and_hazards.md R302, R307): a NaN passes through every operation a PROCESS computes
with it, so it comes back as `QNAN`; and a loop time clamped to an empty interval is its lower bound. -/

namespace Sys2Proof.Machine

/-! ## A NaN operand -/

section
variable {a b : F32}

theorem isNaN_QNAN : isNaN QNAN = true := by decide

theorem fadd_nan_left (h : isNaN a = true) : fadd a b = QNAN := fadd_of_isNaN (by simp [h])

theorem fadd_nan_right (h : isNaN b = true) : fadd a b = QNAN := fadd_of_isNaN (by simp [h])

theorem fsub_nan_left (h : isNaN a = true) : fsub a b = QNAN := fadd_nan_left h

theorem fsub_nan_right (h : isNaN b = true) : fsub a b = QNAN := fadd_nan_right (by rwa [isNaN_flipSign])

theorem fmul_nan_left (h : isNaN a = true) : fmul a b = QNAN := fmul_of_isNaN (by simp [h])

theorem fmul_nan_right (h : isNaN b = true) : fmul a b = QNAN := fmul_of_isNaN (by simp [h])

end

/-! ## The recurrences -/

/-- A NaN in `z1` is the recurrence's next value (R173, R302). -/
theorem lpOutput_of_nan {z1 : F32} (h : isNaN z1 = true) (x a0 b1 : F32) : lpOutput x a0 z1 b1 = QNAN := by
  rw [lpOutput, fmul_nan_left h, fadd_nan_right isNaN_QNAN]

/-- A NaN under the cursor is stored again there and answered (R213, R218, R302). -/
theorem allpassTick_of_nan {P : Params} {b : Buf} {d : DelayLine} (hd : d.index.toNat < P.len b)
    (h : isNaN (Memory.sample P b d.mem d.index.toNat) = true) (k x : F32) :
    ∃ d', allpassTick P b d k x = .ok (d', QNAN) ∧ Memory.sample P b d'.mem d.index.toNat = QNAN := by
  obtain ⟨d', htick, -, hsample⟩ := allpassTick_stores hd k x
  rw [fsub_nan_left h] at htick
  refine ⟨d', htick, ?_⟩
  rw [hsample, if_pos rfl, fmul_nan_right h, fadd_nan_left isNaN_QNAN]

section
variable {freq damp drive input : F32} {u : Svf}

/-- A pass with a NaN in `band_pass` leaves `QNAN` in all four accumulators: each of its statements reads `band_pass` or what
has become `QNAN` before it (R187). -/
theorem svfPass_of_bandPass_nan (h : isNaN u.bandPass = true) :
    svfPass freq damp drive input u =
      { u with notch := QNAN, lowPass := QNAN, highPass := QNAN, bandPass := QNAN } := by
  simp only [svfPass, fmul_nan_right h, fsub_nan_right isNaN_QNAN, fadd_nan_right isNaN_QNAN, fadd_nan_left h]

/-- A pass carries a NaN of `low_pass`, `band_pass` or its input to `band_pass`, by way of `high_pass` where it is not there
already (R187). -/
theorem svfPass_bandPass_of_nan (h : isNaN u.lowPass = true ∨ isNaN u.bandPass = true ∨ isNaN input = true) :
    (svfPass freq damp drive input u).bandPass = QNAN := by
  have hquiet := isNaN_QNAN
  obtain hl | hb | hi := h
  · simp only [svfPass, fadd_nan_left hl, fsub_nan_right hquiet, fmul_nan_right hquiet, fsub_nan_left hquiet,
      fadd_nan_right hquiet]
  · rw [svfPass_of_bandPass_nan hb]
  · simp only [svfPass, fsub_nan_left hi, fsub_nan_left hquiet, fmul_nan_right hquiet, fadd_nan_right hquiet]

end

/-- The first of the two passes brings a NaN of what it reads to `band_pass`, and the second from there to every accumulator and
with them to what is published (R188, R302). -/
theorem svfTick_of_nan {u : Svf} (h : isNaN u.lowPass = true ∨ isNaN u.bandPass = true ∨ isNaN u.previous = true)
    (freq damp drive x : F32) :
    svfTick freq damp drive x u = { u with
      lowPass := QNAN, highPass := QNAN, bandPass := QNAN, notch := QNAN, previous := x
      outLowPass := QNAN, outHighPass := QNAN, outBandPass := QNAN, outNotch := QNAN, outPeak := QNAN } := by
  have hband : isNaN (svfPass freq damp drive u.previous u).bandPass = true := by
    rw [svfPass_bandPass_of_nan h, isNaN_QNAN]
  rw [svfTick, svfPass_of_bandPass_nan hband, svfPublish, fsub_nan_left isNaN_QNAN, svfPass]

/-! ## The statements -/

/-- Settles O56. -/
theorem nanIsStickyInRecursiveState : Obligations.NanIsStickyInRecursiveState := by
  refine ⟨fun x a0 b1 s hl ha hb hnan => ?_, fun x freq damp drive s hl hf hd hv hnan => ?_,
    fun x k1 s hl hk hd hnan => ?_, fun x coef s hl hc hd hnan => ?_⟩
  · refine ⟨_, exec_lpProcess hl ha hb x, ?_⟩
    rw [lpOutput_of_nan hnan]
    exact ⟨rfl, rfl⟩
  · refine ⟨_, exec_svfProcess hl hf hd hv x, ?_⟩
    rw [svfTick_of_nan hnan]
    exact ⟨rfl, rfl, rfl, rfl, rfl, rfl, rfl, rfl, rfl⟩
  · obtain ⟨_, htick, hstored⟩ := allpassTick_of_nan hd hnan k1 x
    exact ⟨_, exec_apProcess hl hk htick, rfl, hstored⟩
  · obtain ⟨_, htick, hstored⟩ := allpassTick_of_nan hd hnan coef x
    exact ⟨_, exec_spProcess hl hc htick, rfl, hstored⟩

/-- Settles O54: the interval of R216 is empty, and there the lower bound wins. -/
theorem spShortBufferForcesMinimumLoopTime : Obligations.SpShortBufferForcesMinimumLoopTime :=
  fun x _ hl hmax hx => ⟨_, exec_spSetFreq hl x, congrArg some (fclamp_of_empty hmax hx)⟩

end Sys2Proof.Machine
end
